-- ==== Sys2Proof/Word.lean ====
section
/-! DEFINITION. The word types of the AVB-STFT engine (spec/00_scope.md R9, R10). -/

namespace Sys2Proof

/-- A byte of local memory. -/
abbrev Byte := BitVec 8

/-- A 32-bit register, address or count (R41, R42). -/
abbrev Word := BitVec 32

/-- A binary32 bit pattern (R9, R12). -/
abbrev F32 := BitVec 32

/-- A 16-bit code (R21). -/
abbrev Code := BitVec 16

/-- A 64-bit command word (R110). -/
abbrev Command := BitVec 64

/-- The number of an address register, A0 to A7 (R42, R112). -/
abbrev Reg := Fin 8

/-- One complex bin: real and imaginary part (R85). -/
abbrev Bin := F32 × F32

/-- One pixel: real, magnitude and imaginary code (R86). -/
abbrev Pixel := Code × Code × Code

end Sys2Proof
end

