-- ==== Sys2Proof/Config.lean ====
section
/-! DEFINITION. What an implementation fixes (spec/00_scope.md R8) and the free values, which the spec leaves open
(spec/93_implementation_defined.md U1, U2, U4 to U7, U11). An `opaque` constant has no body: no proof can know it. -/

namespace Sys2Proof.Config

/-- The numerics record NUM (R8, R14, R15): NUM_ref, the spec's default, or the record of some silicon. -/
inductive NumChoice where
  /-- NUM_ref: the exact real result rounded once (R15). -/
  | reference
  /-- Any other record: free functions that meet the laws of R17 and R223 (assumption 5). -/
  | silicon
deriving DecidableEq, Repr

/-- The parameters the model takes as arguments (R8). They stand in `State` and nothing writes them (assumption 17). -/
structure Params where
  /-- LMEM_SIZE, in bytes. -/
  lmemSize : Nat
  /-- MAX_LOG2N. -/
  maxLog2N : Nat
  /-- NUM. -/
  num : NumChoice
deriving DecidableEq, Repr

/-- The values R8 assigns. -/
def defaultParams : Params := { lmemSize := 0x00400000, maxLog2N := 16, num := .reference }

/-- The ranges R8 gives: LMEM_SIZE a multiple of 8 in [0x0001_0000, 0x0100_0000], MAX_LOG2N in [2, 16]. -/
def legalParams (p : Params) : Bool :=
  decide (p.lmemSize % 8 = 0) && decide (0x00010000 ≤ p.lmemSize) && decide (p.lmemSize ≤ 0x01000000) &&
    decide (2 ≤ p.maxLog2N) && decide (p.maxLog2N ≤ 16)

/-- LMEM_HBASE, the host offset of LMEM byte 0 (R8, fixed). -/
def lmemHBase : Nat := 0x01000000

/-- MIN_LOG2N (R8, fixed). -/
def minLog2N : Nat := 2

/-- MSQRT_DEFAULT_K, OPEN; nothing in the engine reads it (R29). -/
opaque msqrtDefaultK : Nat

/-- EPS_TR, OPEN: the accuracy bound of ln, pow and cos2pi in ulps (R16). -/
opaque epsTr : ℚ

/-- EPS_FFT, OPEN: the accuracy bound of rfft and irfft (R16). -/
opaque epsFft : ℚ

/-- A free byte: draw number, LMEM address. The bytes of LMEM after a hardware reset (R320, U1) and of a race (R98, U4). -/
opaque freeByte : Nat → Nat → Byte

/-- A free table: draw number, table (0 = W, 1 = R). W and R after a reset (R320, R321, U2). -/
opaque freeTable : Nat → Nat → List F32

/-- A free word: draw number, constant. The curve constants after a reset (R49, U2). -/
opaque freeWord : Nat → Nat → F32

/-- A free number: draw number. The constant K after a reset (R49, U2). -/
opaque freeCount : Nat → Nat

/-- A free LUT entry: draw number, code. The LUT after a reset (R48, U2, U3). -/
opaque freeLut : Nat → Code → F32

/-- A free table entry: table (0 = W, 1 = R), index. What reading W or R past its last entry gives, which no run does (assumption 29). -/
opaque freeEntry : Nat → Nat → F32

/-- The compression curve of METHOD = 3, which never reaches a datapath command (R161; assumption 13). -/
opaque reservedCurve : F32 → F32

/-- ln of a NUM other than NUM_ref, before the laws of R17. -/
opaque siliconLn : F32 → F32

/-- pow of a NUM other than NUM_ref, before the laws of R17; of NUM_ref where there is no real power (assumption 7). -/
opaque siliconPow : F32 → F32 → F32

/-- cos2pi of a NUM other than NUM_ref, before the laws of R17; of NUM_ref for an angle that is not finite (assumption 7). -/
opaque siliconCos2pi : Nat → F32 → F32

/-- Output bin k of rfft of a NUM other than NUM_ref, before the laws of R17 and R223: N, samples, k. -/
opaque siliconRfft : Nat → List F32 → Nat → Bin

/-- Output sample n of irfft of a NUM other than NUM_ref, before the laws of R223: N, bins, n. -/
opaque siliconIrfft : Nat → List Bin → Nat → F32

end Sys2Proof.Config
end

