-- ==== Sys2Proof/Machine/Float.lean ====
section
/-! DEFINITION. Binary32 arithmetic (spec/00_scope.md R12, R13). A finite value is an exact integer number of units of 2^-149, so
every operation computes its exact result and rounds it once with `rne`. -/

namespace Sys2Proof.Machine

/-- The canonical quiet NaN (R13). -/
def nan32 : F32 := 0x7FC00000#32

/-- 1.0. -/
def one32 : F32 := 0x3F800000#32

/-- 2.0. -/
def two32 : F32 := 0x40000000#32

/-- 4.0. -/
def four32 : F32 := 0x40800000#32

/-- 0.5. -/
def half32 : F32 := 0x3F000000#32

/-- +0.0. -/
def zero32 : F32 := 0x00000000#32

/-- -1.0. -/
def negOne32 : F32 := 0xBF800000#32

/-- The magnitude bits of +infinity. -/
def infBits : Nat := 0x7F800000

/-- The sign bit. -/
def signBit (x : F32) : Bool := x.msb

/-- Bits 30:0: exponent and fraction together, which order the non-NaN magnitudes. -/
def magBits (x : F32) : Nat := x.toNat % 2 ^ 31

/-- `isNaN(v)` (R12). -/
def isNaN (x : F32) : Bool := decide (infBits < magBits x)

/-- Is x an infinity? -/
def isInf (x : F32) : Bool := decide (magBits x = infBits)

/-- Is x neither NaN nor infinite? -/
def isFinite (x : F32) : Bool := decide (magBits x < infBits)

/-- Is x +0 or -0? -/
def isZero (x : F32) : Bool := decide (magBits x = 0)

/-- Every NaN produced or written is the canonical one (R13). -/
def canon (x : F32) : F32 := if isNaN x then nan32 else x

/-- |x| in units of 2^-149, for a finite x. -/
def magUnits (x : F32) : Nat :=
  let e := magBits x / 2 ^ 23
  let f := magBits x % 2 ^ 23
  if e = 0 then f else (2 ^ 23 + f) * 2 ^ (e - 1)

/-- x in units of 2^-149, for a finite x. -/
def units (x : F32) : Int := if signBit x then -(magUnits x : Int) else magUnits x

/-- The sign and magnitude put together. -/
def withSign (neg : Bool) (bits : Nat) : F32 := BitVec.ofNat 32 (if neg then 2 ^ 31 + bits else bits)

/-- The integer nearest to p/q, ties to even (q > 0). -/
def roundHalfEven (p q : Nat) : Nat :=
  let n := p / q
  let rem := p % q
  if 2 * rem < q then n else if q < 2 * rem then n + 1 else n + n % 2

/-- The greatest e with 2^e ≤ p/q (p, q > 0). -/
def floorLog2 (p q : Nat) : Int :=
  let d : Int := (Nat.log2 p : Int) - (Nat.log2 q : Int)
  if q * 2 ^ d.toNat ≤ p * 2 ^ (-d).toNat then d else d - 1

/-- The magnitude bits of RNE(p/q), q > 0: round to a multiple of the unit in the last place 2^u, u at least -149, with overflow
to infinity (R12). The bits of n units of 2^u are (u + 149)·2^23 + n, the carry into the exponent included. -/
def rneBits (p q : Nat) : Nat :=
  if p = 0 then 0
  else
    let u : Int := max (floorLog2 p q - 23) (-149)
    let n := roundHalfEven (p * 2 ^ (-u).toNat) (q * 2 ^ u.toNat)
    min ((u + 149).toNat * 2 ^ 23 + n) infBits

/-- `RNE(r)` for r = p/q, or -p/q if neg (R12). -/
def rne (neg : Bool) (p q : Nat) : F32 := withSign neg (rneBits p q)

/-- `RNE(v · 2^-s)` for an integer v; an exact 0 gives +0. -/
def rneInt (v : Int) (s : Nat) : F32 := rne (decide (v < 0)) v.natAbs (2 ^ s)

/-- `u2f(i)`, exact for |i| < 2^24 (R12). -/
def u2f (i : Int) : F32 := rneInt i 0

/-- `fneg`: flips the sign bit (R12); a NaN gives the canonical NaN (R13, assumption 11). -/
def fneg (x : F32) : F32 := if isNaN x then nan32 else x ^^^ 0x80000000#32

/-- `fabs`: clears the sign bit (R12); a NaN gives the canonical NaN (R13, assumption 11). -/
def fabs (x : F32) : F32 := if isNaN x then nan32 else x &&& 0x7FFFFFFF#32

/-- `fadd` (R12). An exact zero sum is +0, but for (-0) + (-0). -/
def fadd (a b : F32) : F32 :=
  if isNaN a || isNaN b then nan32
  else if isInf a then (if isInf b && signBit a != signBit b then nan32 else a)
  else if isInf b then b
  else if units a + units b = 0 then withSign (signBit a && signBit b) 0
  else rneInt (units a + units b) 149

/-- `fsub` (R12): a + (-b). -/
def fsub (a b : F32) : F32 := fadd a (fneg b)

/-- `fmul` (R12). -/
def fmul (a b : F32) : F32 :=
  if isNaN a || isNaN b then nan32
  else if isInf a || isInf b then
    (if isZero a || isZero b then nan32 else withSign (signBit a != signBit b) infBits)
  else rne (signBit a != signBit b) (magUnits a * magUnits b) (2 ^ 149 * 2 ^ 149)

/-- `fdiv` (R12). -/
def fdiv (a b : F32) : F32 :=
  if isNaN a || isNaN b then nan32
  else if isInf a then (if isInf b then nan32 else withSign (signBit a != signBit b) infBits)
  else if isInf b then withSign (signBit a != signBit b) 0
  else if isZero b then (if isZero a then nan32 else withSign (signBit a != signBit b) infBits)
  else rne (signBit a != signBit b) (magUnits a) (magUnits b)

/-- The integer square root of n below 2^k, found from its highest bit down, on top of the bits r found already. -/
def isqrtFrom (n : Nat) : Nat → Nat → Nat
  | 0, r => r
  | k + 1, r => isqrtFrom n k (if (r + 2 ^ k) * (r + 2 ^ k) ≤ n then r + 2 ^ k else r)

/-- The greatest r with r² ≤ n. -/
def isqrt (n : Nat) : Nat := isqrtFrom n (Nat.log2 n / 2 + 1) 0

/-- `fsqrt` (R12): fsqrt(-0) = -0, NaN for a negative non-zero value. The root of m·2^-149 is that of m·2^51·2^-200; its integer
part, with one more bit that is 1 where the root is not exact, rounds as the exact root does, since it has at least 25 bits. -/
def fsqrt (x : F32) : F32 :=
  if isNaN x then nan32
  else if isZero x then x
  else if signBit x then nan32
  else if isInf x then x
  else
    let n := magUnits x * 2 ^ 51
    let r := isqrt n
    rne false (2 * r + (if r * r = n then 0 else 1)) (2 ^ 101)

/-- A non-NaN value's place in the order of R12: -0 and +0 alike, the infinities at the ends. -/
def orderKey (x : F32) : Int := if signBit x then -(magBits x : Int) else magBits x

/-- IEEE a < b: false with a NaN (R12). -/
def flt (a b : F32) : Bool := !isNaN a && !isNaN b && decide (orderKey a < orderKey b)

/-- IEEE a ≤ b: false with a NaN (R12). -/
def fle (a b : F32) : Bool := !isNaN a && !isNaN b && decide (orderKey a ≤ orderKey b)

/-- IEEE a = b: false with a NaN, -0 = +0 (R12). -/
def feq (a b : F32) : Bool := !isNaN a && !isNaN b && decide (orderKey a = orderKey b)

/-- `floor` of a finite non-negative value, as an integer. -/
def floorNat (x : F32) : Nat := magUnits x / 2 ^ 149

/-- Is the finite x an integer (x = floor(x))? -/
def isIntegral (x : F32) : Bool := decide (magUnits x % 2 ^ 149 = 0)

end Sys2Proof.Machine
end

