-- ==== Sys2Proof/Machine/NumRef.lean ====
section
/-! DEFINITION. NUM_ref, the default numerics record (spec/00_scope.md R15, spec/43_fft.md R221 to R223): the exact real result
rounded once, for every operand that has one. A logarithm and a cosine are computed in fixed point, far more exactly than any of
their values is near a rounding boundary. A power and a transform sum that are dyadic rationals are rounded from their exact value; else
they are enclosed in fixed point, at rising precision, until both ends of the enclosure round alike; and where no precision tried
settles them they are compared exactly, in integers, with the midpoints of the binary32 numbers (assumption 6). -/

namespace Sys2Proof.Machine

/-- The precisions tried for a power, in bits after the point. -/
def precisions : List Nat := [160, 320, 640, 1280, 2560]

/-- The common rounding of every real in [lo, hi]·2^-s, if the ends round alike. -/
def settle (lo hi : Int) (s : Nat) : Option F32 :=
  if rneInt lo s = rneInt hi s then some (rneInt lo s) else none

/-- `RNE(v · 2^-s)` for any integer s. -/
def rneScaled (v s : Int) : F32 := rneInt (v * 2 ^ (-s).toNat) s.toNat

/-- The magnitude bits at or above r, to which k further bits are to be settled, of the rounding of a positive real that is no midpoint:
`above i` says that it exceeds the midpoint of the magnitudes i and i + 1. -/
def midpointSearch (above : Nat → Bool) : Nat → Nat → Nat
  | 0, r => r
  | k + 1, r => midpointSearch above k (if r + 2 ^ k ≤ infBits && above (r + 2 ^ k - 1) then r + 2 ^ k else r)

/-- `RNE` of a positive real that is no midpoint, from the midpoints it exceeds: as many as its magnitude bits say (R12). The midpoint
below infinity is half a unit above the greatest finite number. -/
def roundByMidpoints (neg : Bool) (above : Nat → Bool) : F32 := withSign neg (midpointSearch above 31 0)

/-- The midpoint of the magnitudes r and r + 1 in units of 2^-150. -/
def midpoint (r : Nat) : Nat := magUnits (BitVec.ofNat 32 r) + magUnits (BitVec.ofNat 32 (r + 1))

/-- The odd part of v and how often 2 divides it, for 0 < v < 2^fuel. -/
def oddPart : Nat → Nat → Nat → Nat × Nat
  | 0, v, t => (v, t)
  | fuel + 1, v, t => if v % 2 = 0 then oddPart fuel (v / 2) (t + 1) else (v, t)

/-! ### The natural logarithm -/

/-- The terms term/d, term·u²/(d+2), … of the series of atanh, in units of 2^-p. -/
def atanhTerms (p u2 : Nat) : Nat → Nat → Nat → Nat
  | 0, _, _ => 0
  | k + 1, term, d => term / d + atanhTerms p u2 k (term * u2 / 2 ^ p) (d + 2)

/-- atanh(num/den) in units of 2^-p, num/den ≤ 1/3: low by less than p + 10 units. -/
def atanhFix (p num den : Nat) : Nat :=
  let u := num * 2 ^ p / den
  atanhTerms p (u * u / 2 ^ p) (p / 3 + 2) u 1

/-- ln 2 in units of 2^-p. -/
def ln2Fix (p : Nat) : Nat := 2 * atanhFix p 1 3

/-- ln x in units of 2^-p for a finite x > 0: with x = z·2^e, 1 ≤ z < 2, it is 2·atanh((z-1)/(z+1)) + e·ln 2; off by less than
`lnSlack`. -/
def lnFix (p : Nat) (x : F32) : Int :=
  let v := magUnits x
  let e := Nat.log2 v
  2 * (atanhFix p (v - 2 ^ e) (v + 2 ^ e) : Int) + ((e : Int) - 149) * ln2Fix p

/-- A bound on the error of `lnFix`, in its units, at every precision tried. -/
def lnSlack : Nat := 2 ^ 20

/-- NUM_ref.ln for a finite x > 0 other than 1. The logarithm of a binary32 number is at least 2^-59 of itself away from every rounding
boundary and at least 2^-25 in size, so its value to 2^-140 rounds as it does (assumption 6). -/
def lnRef (x : F32) : F32 := rneInt (lnFix 160 x) 160

/-! ### The power -/

/-- The 2^k-th root of m·2^e, if it is a dyadic rational. -/
def dyadicRoot : Nat → Nat → Int → Option (Nat × Int)
  | 0, m, e => some (m, e)
  | k + 1, m, e => if isqrt m * isqrt m = m ∧ e % 2 = 0 then dyadicRoot k (isqrt m) (e / 2) else none

/-- b^y for finite b > 0 and y ≠ 0 where it is a dyadic rational of few bits. With b = m·2^e, m odd, and y = ±s·2^t: for t < 0
the 2^-t-th root must be dyadic; its power is a dyadic rational, of more bits than a rounding can confuse beyond the 64th. -/
def powExact (b y : F32) : Option F32 :=
  let (m, tb) := oddPart 300 (magUnits b) 0
  let (s, ty) := oddPart 300 (magUnits y) 0
  let t : Int := (ty : Int) - 149
  match dyadicRoot (-t).toNat m ((tb : Int) - 149) with
  | none => none
  | some (m', e') =>
    let n := s * 2 ^ t.toNat
    if m' = 1 then
      let x : Int := e' * n * (if signBit y then -1 else 1)
      some (rneScaled 1 (-(max (-200) (min x 200))))
    else if n ≤ 64 ∧ signBit y = false then some (rneScaled ((m' : Int) ^ n) (-(e' * n)))
    else none

/-- The terms term, term·r/(i+1), … of the series of exp, in units of 2^-p. -/
def expTerms (p : Nat) (r : Int) : Nat → Int → Nat → Int
  | 0, _, _ => 0
  | k + 1, term, i => term + expTerms p r k (term * r / (2 ^ p * (i + 1 : Nat))) (i + 1)

/-- The rounding of b^y for finite b > 0 and y at precision p, if it is settled: b^y = 2^k·exp(y·ln b - k·ln 2), with k the
integer nearest to y·log2 b. An exponent far out of range overflows or underflows. -/
def powSettle (p : Nat) (b y : F32) : Option F32 :=
  let t := lnFix p b * units y / 2 ^ 149
  let slack : Int := magUnits y * lnSlack / 2 ^ 149 + 1
  let l : Int := ln2Fix p
  let k := (2 * t + l) / (2 * l)
  if 1000 < k then some (withSign false infBits)
  else if k < -1000 then some zero32
  else
    let v := expTerms p (t - k * l) (p / 2 + 8) (2 ^ p) 0
    let err := 2 * slack + 2 ^ 30
    if rneScaled (v - err) (p - k) = rneScaled (v + err) (p - k) then some (rneScaled (v - err) (p - k)) else none

/-- Does b^y, for finite b > 0 and y, exceed the midpoint of the magnitudes r and r + 1? With b = m·2^e, y = ±n/k and the midpoint
d·2^-150, b^y > d·2^-150 says (m·2^e)^±n > d^k·2^(-150·k), a comparison of integers. -/
def powAbove (b y : F32) (r : Nat) : Bool :=
  let (m, tb) := oddPart 300 (magUnits b) 0
  let (s, ty) := oddPart 300 (magUnits y) 0
  let t : Int := (ty : Int) - 149
  let n := s * 2 ^ t.toNat
  let k : Nat := 2 ^ (-t).toNat
  let x : Int := ((tb : Int) - 149) * n * (if signBit y then -1 else 1) + 150 * k
  if signBit y then decide (midpoint r ^ k * m ^ n * 2 ^ (-x).toNat < 2 ^ x.toNat)
  else decide (midpoint r ^ k * 2 ^ (-x).toNat < m ^ n * 2 ^ x.toNat)

/-- RNE(b^y) for finite b > 0 and y ≠ 0: exact where dyadic, else enclosed, else compared. -/
def powPositive (b y : F32) : F32 :=
  match powExact b y with
  | some v => v
  | none =>
    match precisions.findSome? fun p => powSettle p b y with
    | some v => v
    | none => roundByMidpoints false (powAbove b y)

/-- Is the finite y an odd integer? -/
def isOddInteger (y : F32) : Bool := decide (magUnits y % 2 ^ 150 = 2 ^ 149)

/-- NUM_ref.pow for y neither zero nor NaN: the real power of a positive base, of a negative base to an integer, and of a zero base to
a positive exponent. No other operands have a real power to round, and nothing states one; the result is free, and so is the sign of
the zero that a base of -0 gives to an odd exponent (assumption 7). -/
def powRef (b y : F32) : F32 :=
  let free := canon (Config.siliconPow (canon b) (canon y))
  if !isFinite b || !isFinite y then free
  else if isZero b then (if signBit y then free else withSign (signBit b && isOddInteger y && signBit free) 0)
  else if !signBit b then powPositive b y
  else if isIntegral y then (if isOddInteger y then fneg (powPositive (fabs b) y) else powPositive (fabs b) y)
  else free

/-! ### The cosine -/

/-- The terms term/d, -term/(n²·(d+2)), … of the series of atan(1/n), in units of the first term. -/
def atanTerms (n2 : Nat) : Nat → Nat → Nat → Int
  | 0, _, _ => 0
  | k + 1, term, d => ((term / d : Nat) : Int) - atanTerms n2 k (term / n2) (d + 2)

/-- π in units of 2^-p, by Machin's formula 16·atan(1/5) - 4·atan(1/239). -/
def piFix (p : Nat) : Nat :=
  (16 * atanTerms 25 (p / 4 + 2) (2 ^ p / 5) 1 - 4 * atanTerms 57121 (p / 4 + 2) (2 ^ p / 239) 1).toNat

/-- The terms term, -term·a²/((i+1)(i+2)), … of the series of cos, in units of 2^-p. -/
def cosTerms (p a2 : Nat) : Nat → Nat → Nat → Int
  | 0, _, _ => 0
  | k + 1, term, i => (term : Int) - cosTerms p a2 k (term * a2 / (2 ^ p * ((i + 1) * (i + 2)))) (i + 2)

/-- cos(2π·num/den) in units of 2^-p for num/den ≤ 1/4, off by less than `cosSlack`. -/
def cosFix (p num den : Nat) : Int :=
  let a := 2 * piFix p * num / den
  cosTerms p (a * a / 2 ^ p) (p / 4 + 8) (2 ^ p) 0

/-- A bound on the error of `cosFix`, in its units, at every precision tried. -/
def cosSlack : Nat := 2 ^ 16

/-- A fraction num/den of a turn brought into the first quarter: cos of it is ±cos of the new fraction. -/
def foldTurn (num den : Nat) : Bool × Nat × Nat :=
  let a := num % den
  let a := if den < 2 * a then den - a else a
  if den < 4 * a then (true, den - 2 * a, 2 * den) else (false, a, den)

/-- The fraction of a turn m·x makes, folded, for a finite x: x is a number of units of 2^-149, and cos is even. -/
def turnOf (m : Nat) (x : F32) : Bool × Nat × Nat := foldTurn (m * magUnits x) (2 ^ 149)

/-- NUM_ref.cos2pi for m in 1 to 3 and a finite x where m·x is no multiple of 1/4, so that the cosine is irrational. It is at least
2^-55 of itself away from every rounding boundary and at least 2^-25 in size, so its value to 2^-140 rounds as it does
(assumption 6). -/
def cos2piRef (m : Nat) (x : F32) : F32 :=
  let (neg, num, den) := turnOf m x
  rneInt (if neg then -cosFix 160 num den else cosFix 160 num den) 160

/-! ### The transforms -/

/-- cos(2π·j/N) as ± an entry q < N/4 of the cosine table, or none where it is 0. -/
def foldIndex (n j : Nat) : Option (Bool × Nat) :=
  let a := j % n
  let a := if n < 2 * a then n - a else a
  if 4 * a = n then none else if n < 4 * a then some (true, n / 2 - a) else some (false, a)

/-- One term t·cos(2π·j/N) added to the coefficients of the table's entries. -/
def addCosTerm (n : Nat) (acc : Array Int) (t : Int × Nat) : Array Int :=
  match foldIndex n t.2 with
  | none => acc
  | some (neg, q) => acc.setIfInBounds q (acc.getD q 0 + if neg then -t.1 else t.1)

/-- The coefficients c_q, q < N/4, with Σ t·cos(2π·j/N) = Σ c_q·cos(2π·q/N), for N a power of two, N ≥ 4. The cosines
cos(2π·q/N), q < N/4, are linearly independent over the rationals, so the sum is rational exactly if c_q = 0 for q > 0. -/
def cosCoefficients (n : Nat) (terms : List (Int × Nat)) : List Int :=
  (terms.foldl (addCosTerm n) (Array.replicate (n / 4) 0)).toList

/-- cos(2π·q/N) for q < N/4 in units of 2^-p. -/
def cosTable (p n : Nat) : List Int := (List.range (n / 4)).map fun q => cosFix p q n

/-- The rounding of Σ c_q·cos(2π·q/N)·2^-149 at precision p, if it is settled. -/
def sumSettle (p : Nat) (table c : List Int) : Option F32 :=
  if c.tail.all (· == 0) then some (rneInt (c.headD 0) 149)
  else
    let v := (List.zipWith (· * ·) c table).sum
    let err : Int := cosSlack * (c.map fun x => (x.natAbs : Int)).sum
    settle (v - err) (v + err) (p + 149)

/-- The entries at the even and at the odd places of a list. -/
def splitPlaces : List Int → List Int × List Int
  | [] => ([], [])
  | x :: l => (x :: (splitPlaces l).2, (splitPlaces l).1)

/-- The alternating sums x_i - x_(i+1) + x_(i+2) - … of the tails of a list. -/
def alternatingTails (l : List Int) : List Int := l.foldr (fun x acc => (x - acc.headD 0) :: acc) []

/-- The coefficients of B in Σ o_i·cos((2i+1)·φ) = cos φ·B, B a sum of cos(2iφ): cos((2i+1)·φ) is cos φ times
2cos(2iφ) - 2cos(2(i-1)φ) + … ± 1. -/
def oddQuotient (o : List Int) : List Int :=
  match alternatingTails o with
  | [] => []
  | x :: l => x :: l.map (2 * ·)

/-- The coefficients of 2·A·B for two sums A and B of cosines cos(2π·q/N): 2·cos u·cos v = cos(u + v) + cos(u - v). -/
def twiceProduct (n : Nat) (a b : List Int) : List Int :=
  cosCoefficients n (a.zipIdx.flatMap fun p => b.zipIdx.flatMap fun q => [(p.1 * q.1, p.2 + q.2), (p.1 * q.1, p.2 + n - q.2)])

/-- The sign of Σ c_q·cos(2π·q/N), q < N/4, N = 4·2^j, exactly. The sum is A + cos φ·B with φ = 2π/N, cos φ > 0, and sums A and B of
cosines of multiples of 2φ. Where A and B differ in sign, A² and cos²φ·B² decide; 8·(A² - cos²φ·B²) = 4·(2A²) - 2·(1 + cos 2φ)·(2B²)
is again such a sum. -/
def cosSumSign : Nat → List Int → Int
  | 0, c => (c.headD 0).sign
  | j + 1, c =>
    let n := 4 * 2 ^ j
    let a := (splitPlaces c).1
    let b := oddQuotient (splitPlaces c).2
    let sa := cosSumSign j a
    let sb := cosSumSign j b
    if sa = 0 then sb
    else if sb = 0 ∨ sa = sb then sa
    else
      sa * cosSumSign j
        (List.zipWith (fun x y => 4 * x - y) (twiceProduct n a a) (twiceProduct n [1, 1] (twiceProduct n b b)))

/-- Does |Σ c_q·cos(2π·q/N)|·2^-149, of a sum with the sign sg, exceed the midpoint of the magnitudes r and r + 1? -/
def sumAbove (n : Nat) (c : List Int) (sg : Int) (r : Nat) : Bool :=
  match c.map (2 * sg * ·) with
  | [] => false
  | x :: l => decide (cosSumSign (Nat.log2 n - 2) ((x - midpoint r) :: l) = 1)

/-- The rounding of the irrational sum Σ c_q·cos(2π·q/N)·2^-149, by exact comparison with the midpoints. -/
def roundSumExactly (n : Nat) (c : List Int) : F32 :=
  let sg := cosSumSign (Nat.log2 n - 2) c
  roundByMidpoints (decide (sg < 0)) (sumAbove n c sg)

/-- The exact sum Σ t·cos(2π·j/N)·2^-149 rounded once, N a power of two, N ≥ 4; an exact 0 gives +0. `table` is the cosine table at
the first precision. -/
def roundCosSum (n : Nat) (table : List Int) (terms : List (Int × Nat)) : F32 :=
  let c := cosCoefficients n terms
  match sumSettle 256 table c with
  | some y => y
  | none =>
    match [640, 1280].findSome? fun p => sumSettle p (cosTable p n) c with
    | some y => y
    | none => roundSumExactly n c

/-- NUM_ref.rfft for finite samples (R221): Re X[k] = Σ t[i]·cos(2πki/N), Im X[k] = -Σ t[i]·sin(2πki/N), and sin is cos a quarter
turn earlier. -/
def rfftRef (n : Nat) (t : List F32) : List Bin :=
  let table := cosTable 256 n
  let u := (t.map units).zipIdx
  (List.range (n / 2 + 1)).map fun k =>
    (roundCosSum n table (u.map fun p => (p.1, k * p.2)),
      roundCosSum n table (u.map fun p => (-p.1, k * p.2 + 3 * n / 4)))

/-- The terms of y[i] of the inverse transform (R222): bins 0 and N/2 count once and without their imaginary parts. -/
def irfftTerms (n i : Nat) (y : List Bin) : List (Int × Nat) :=
  y.zipIdx.flatMap fun p =>
    if p.2 = 0 ∨ p.2 = n / 2 then [(units p.1.1, p.2 * i)]
    else [(2 * units p.1.1, p.2 * i), (-2 * units p.1.2, p.2 * i + 3 * n / 4)]

/-- NUM_ref.irfft for finite used inputs (R222). -/
def irfftRef (n : Nat) (y : List Bin) : List F32 :=
  let table := cosTable 256 n
  (List.range n).map fun i => roundCosSum n table (irfftTerms n i y)

end Sys2Proof.Machine
end

