-- ==== Sys2Proof/Machine/Numerics.lean ====
section
/-! DEFINITION. The numerics record NUM (spec/00_scope.md R14, R17, spec/43_fft.md R221 to R223): the laws every record must meet,
put round NUM_ref or the free functions of another record (assumption 5). -/

namespace Sys2Proof.Machine

open Config (NumChoice)

/-- `NUM.ln(x)` (R14, R17). -/
def numLn (num : NumChoice) (x : F32) : F32 :=
  if isNaN x then nan32
  else if isZero x then withSign true infBits
  else if signBit x then nan32
  else if isInf x then x
  else if x = one32 then zero32
  else
    match num with
    | .reference => lnRef x
    | .silicon => canon (Config.siliconLn x)

/-- `NUM.pow(b, y)` (R14, R17). -/
def numPow (num : NumChoice) (b y : F32) : F32 :=
  if isZero y then one32
  else if isNaN y then nan32
  else if y = one32 then canon b
  else
    match num with
    | .reference => powRef b y
    | .silicon => canon (Config.siliconPow (canon b) y)

/-- A cosine kept finite and in [-1, 1] (R17). No value of NUM_ref is outside. -/
def clampUnit (v : F32) : F32 :=
  if isNaN v then zero32 else if flt one32 v then one32 else if flt v negOne32 then negOne32 else v

/-- `NUM.cos2pi(m, x)` (R14, R17): exactly 1, 0, -1, 0 at the quarter turns, finite and in [-1, 1] for a finite x. R17 gives the two
zeros no sign; that they are +0 is the model's choice (DESIGN CHOICE, assumption 31). -/
def numCos2pi (num : NumChoice) (m : Nat) (x : F32) : F32 :=
  if isFinite x then
    let (neg, a, d) := turnOf m x
    if a = 0 then (if neg then negOne32 else one32)
    else if 4 * a = d then zero32
    else
      clampUnit
        (match num with
        | .reference => cos2piRef m x
        | .silicon => Config.siliconCos2pi m x)
  else canon (Config.siliconCos2pi m (canon x))

/-- A bin of an rfft's output: the imaginary parts of bins 0 and N/2 are +0 whatever the input (R17, R221, R223). -/
def realEdges (n k : Nat) (b : Bin) : Bin := if k = 0 ∨ k = n / 2 then (b.1, zero32) else b

/-- Is the list fit for the record's transform? NUM_ref takes finite inputs only; every record answers NaN to a NaN (R223). -/
def transformable (num : NumChoice) (t : List F32) : Bool :=
  match num with
  | .reference => t.all isFinite
  | .silicon => t.all fun x => !isNaN x

/-- `NUM.rfft(N, t)` (R221, R223): N/2 + 1 bins. -/
def numRfft (num : NumChoice) (n : Nat) (t : List F32) : List Bin :=
  let bins : List Bin :=
    if transformable num t then
      match num with
      | .reference => rfftRef n t
      | .silicon =>
        (List.range (n / 2 + 1)).map fun k => (canon (Config.siliconRfft n t k).1, canon (Config.siliconRfft n t k).2)
    else List.replicate (n / 2 + 1) (nan32, nan32)
  bins.zipIdx.map fun p => realEdges n p.2 p.1

/-- The bins with the ignored imaginary parts of bins 0 and N/2 taken out (R222). -/
def usedBins (n : Nat) (y : List Bin) : List Bin := y.zipIdx.map fun p => realEdges n p.2 p.1

/-- `NUM.irfft(N, Y)` (R222, R223): N samples, from the used inputs alone. -/
def numIrfft (num : NumChoice) (n : Nat) (y : List Bin) : List F32 :=
  let u := usedBins n y
  if transformable num (u.flatMap fun b => [b.1, b.2]) then
    match num with
    | .reference => irfftRef n u
    | .silicon => (List.range n).map fun i => canon (Config.siliconIrfft n u i)
  else List.replicate n nan32

end Sys2Proof.Machine
end

