-- ==== Sys2Proof/Syntax.lean ====
section
/-! DEFINITION. The command set, one constructor per row of spec/opcode_table.json (spec/30_encoding.md R114). -/

namespace Sys2Proof

/-- A command with its operands (R112, R113, R114). Every term is encodable: register numbers are below 8, IMM is 32 bits. -/
inductive Instr where
  /-- NOP (R142). -/
  | nop
  /-- HALT (R143). -/
  | halt
  /-- INIT (R200). -/
  | init
  /-- SETA: x[ra] <- imm (R144). -/
  | seta (ra : Reg) (imm : Word)
  /-- ADDA: x[ra] <- x[ra] + imm (R145). -/
  | adda (ra : Reg) (imm : Word)
  /-- JMP: pc <- imm (R146). -/
  | jmp (imm : Word)
  /-- DJNZ: decrement x[ra], to imm if non-zero (R147). -/
  | djnz (ra : Reg) (imm : Word)
  /-- SETG: SYNGAIN <- imm (R148). -/
  | setg (imm : Word)
  /-- WINDUMP: W and R to x[ra] (R203). -/
  | windump (ra : Reg)
  /-- COMP: x[rc] values at x[ra] to codes at x[rb] (R170). -/
  | comp (ra rb rc : Reg)
  /-- EXPD: x[rc] codes at x[ra] to values at x[rb] (R171). -/
  | expd (ra rb rc : Reg)
  /-- RFFT: samples at x[ra] to bins at x[rb] (R225). -/
  | rfft (ra rb : Reg)
  /-- IRFFT: bins at x[ra] to samples at x[rb] (R226). -/
  | irfft (ra rb : Reg)
  /-- PQNT: x[rc] phase components at x[ra] to codes at x[rb] (R240). -/
  | pqnt (ra rb rc : Reg)
  /-- FWD: samples at x[ra], limit x[rb], row at x[rc] (R242). -/
  | fwd (ra rb rc : Reg)
  /-- PDEQ: x[rc] codes at x[ra] to phase components at x[rb] (R261). -/
  | pdeq (ra rb rc : Reg)
  /-- INV: centre row at x[ra], samples at x[rb], previous and next row valid bits (R263). -/
  | inv (ra rb : Reg) (pv nv : Bool)
deriving DecidableEq, Repr

end Sys2Proof
end

