-- ==== Sys2Proof/Decode.lean ====
section
/-! DEFINITION. Decoding and encoding command words (spec/30_encoding.md R110 to R117). -/

namespace Sys2Proof

/-- The formats of R111. -/
inductive Format where
  | n | i | j | r1 | r2 | r3 | rf
deriving DecidableEq, Repr

/-- The causes decoding can raise (R115). -/
inductive DecodeError where
  /-- W[7:0] is not an assigned opcode. -/
  | illegalOp
  /-- A reserved-zero bit of the opcode's format is 1. -/
  | reservedBits
  /-- Fewer than the 8 bytes of a command word are there; a fetch of the engine always gives 8. -/
  | truncated
deriving DecidableEq, Repr

/-- The operand fields of a command word (R110). -/
structure Fields where
  ra : Reg
  rb : Reg
  rc : Reg
  pv : Bool
  nv : Bool
  imm : Word
deriving DecidableEq, Repr

/-- The reserved-zero bits of a format: its mask of R111 with bits 7:0 cleared. -/
def reservedMask : Format → Command
  | .n => 0xFFFFFFFFFFFFFF00#64
  | .i => 0x00000000FFFFF800#64
  | .j => 0x00000000FFFFFF00#64
  | .r1 => 0xFFFFFFFFFFFFF800#64
  | .r2 => 0xFFFFFFFFFFFFC000#64
  | .r3 => 0xFFFFFFFFFFFE0000#64
  | .rf => 0xFFFFFFFFFFF9C000#64

/-- OP, W[7:0]. -/
def opField (w : Command) : Byte := w.extractLsb' 0 8

/-- The fields RA = W[10:8], RB = W[13:11], RC = W[16:14], PV = W[17], NV = W[18], IMM = W[63:32] (R110, R115). -/
def fieldsOf (w : Command) : Fields where
  ra := (w.extractLsb' 8 3).toFin
  rb := (w.extractLsb' 11 3).toFin
  rc := (w.extractLsb' 14 3).toFin
  pv := w.getLsbD 17
  nv := w.getLsbD 18
  imm := w.extractLsb' 32 32

/-- The assigned opcodes and their formats (R114); none for the illegal ones (R116). -/
def formatOf (op : Byte) : Option Format :=
  match op with
  | 0x00#8 => some .n
  | 0x01#8 => some .n
  | 0x02#8 => some .n
  | 0x04#8 => some .i
  | 0x05#8 => some .i
  | 0x06#8 => some .j
  | 0x07#8 => some .i
  | 0x08#8 => some .j
  | 0x10#8 => some .r1
  | 0x11#8 => some .r3
  | 0x12#8 => some .r3
  | 0x13#8 => some .r2
  | 0x14#8 => some .r2
  | 0x15#8 => some .r3
  | 0x16#8 => some .r3
  | 0x17#8 => some .r3
  | 0x18#8 => some .rf
  | _ => none

/-- The command an assigned opcode and its fields stand for (R114). -/
def commandOf (op : Byte) (f : Fields) : Option Instr :=
  match op with
  | 0x00#8 => some .nop
  | 0x01#8 => some .halt
  | 0x02#8 => some .init
  | 0x04#8 => some (.seta f.ra f.imm)
  | 0x05#8 => some (.adda f.ra f.imm)
  | 0x06#8 => some (.jmp f.imm)
  | 0x07#8 => some (.djnz f.ra f.imm)
  | 0x08#8 => some (.setg f.imm)
  | 0x10#8 => some (.windump f.ra)
  | 0x11#8 => some (.comp f.ra f.rb f.rc)
  | 0x12#8 => some (.expd f.ra f.rb f.rc)
  | 0x13#8 => some (.rfft f.ra f.rb)
  | 0x14#8 => some (.irfft f.ra f.rb)
  | 0x15#8 => some (.pqnt f.ra f.rb f.rc)
  | 0x16#8 => some (.fwd f.ra f.rb f.rc)
  | 0x17#8 => some (.pdeq f.ra f.rb f.rc)
  | 0x18#8 => some (.inv f.ra f.rb f.pv f.nv)
  | _ => none

/-- `Decode(W)` (R115): ILLEGAL_OP first, then RESERVED_BITS, then the fields. -/
def decodeWord (w : Command) : Except DecodeError Instr :=
  match formatOf (opField w) with
  | none => .error .illegalOp
  | some f =>
    if w &&& reservedMask f = 0#64 then
      match commandOf (opField w) (fieldsOf w) with
      | some i => .ok i
      | none => .error .illegalOp
    else .error .reservedBits

/-- The unsigned number whose little-endian bytes these are (R82, R110). -/
def leNat : List Byte → Nat
  | [] => 0
  | b :: bs => b.toNat + 256 * leNat bs

/-- The n little-endian bytes of v (R82). -/
def leBytes : Nat → Nat → List Byte
  | 0, _ => []
  | n + 1, v => BitVec.ofNat 8 v :: leBytes n (v / 256)

/-- Decoding the command at the head of a list of bytes, and the bytes after it: every command is 8 bytes (R110, R117). -/
def decode (bytes : List Byte) : Except DecodeError (Instr × List Byte) :=
  if bytes.length < 8 then .error .truncated
  else
    match decodeWord (BitVec.ofNat 64 (leNat (bytes.take 8))) with
    | .ok i => .ok (i, bytes.drop 8)
    | .error e => .error e

/-- The instruction the decoder reads from a table word of nbits bits, the bits above them zero (R110). -/
def decodeTableWord (nbits w : Nat) : Option Instr :=
  match decode (leBytes 8 (w % 2 ^ nbits)) with
  | .ok (i, _) => some i
  | .error _ => none

/-- The opcode of a command (R114). -/
def opcodeOf : Instr → Byte
  | .nop => 0x00#8
  | .halt => 0x01#8
  | .init => 0x02#8
  | .seta _ _ => 0x04#8
  | .adda _ _ => 0x05#8
  | .jmp _ => 0x06#8
  | .djnz _ _ => 0x07#8
  | .setg _ => 0x08#8
  | .windump _ => 0x10#8
  | .comp _ _ _ => 0x11#8
  | .expd _ _ _ => 0x12#8
  | .rfft _ _ => 0x13#8
  | .irfft _ _ => 0x14#8
  | .pqnt _ _ _ => 0x15#8
  | .fwd _ _ _ => 0x16#8
  | .pdeq _ _ _ => 0x17#8
  | .inv _ _ _ _ => 0x18#8

/-- The operand fields of a command; a field its format does not use is 0 (R111). -/
def operandFields : Instr → Fields
  | .nop | .halt | .init => ⟨0, 0, 0, false, false, 0⟩
  | .seta a v | .adda a v | .djnz a v => ⟨a, 0, 0, false, false, v⟩
  | .jmp v | .setg v => ⟨0, 0, 0, false, false, v⟩
  | .windump a => ⟨a, 0, 0, false, false, 0⟩
  | .rfft a b | .irfft a b => ⟨a, b, 0, false, false, 0⟩
  | .comp a b c | .expd a b c | .pqnt a b c | .fwd a b c | .pdeq a b c => ⟨a, b, c, false, false, 0⟩
  | .inv a b pv nv => ⟨a, b, 0, pv, nv, 0⟩

/-- A register number as its 3-bit field (R112). -/
def regBits (r : Reg) : BitVec 3 := BitVec.ofNat 3 r.val

/-- The encoder's formula of R110, W = OP | RA<<8 | RB<<11 | RC<<14 | FL<<17 | IMM<<32, as the concatenation of its fields:
IMM (63:32), FL[14:2] = 0 (31:19), NV (18), PV (17), RC, RB, RA, OP. -/
def packFields (op : Byte) (f : Fields) : Command :=
  (f.imm ++ (0#13 ++ (BitVec.ofBool f.nv ++ (BitVec.ofBool f.pv ++
    (regBits f.rc ++ (regBits f.rb ++ (regBits f.ra ++ op)))))) : BitVec 64)

/-- The word of a command (R110, R111, R114). -/
def encodeWord (i : Instr) : Command := packFields (opcodeOf i) (operandFields i)

/-- The bytes of a command as they stand in LMEM, the first at the lowest address (R110). -/
def encode (i : Instr) : List Byte := leBytes 8 (encodeWord i).toNat

end Sys2Proof
end

