-- ==== Sys2Proof/Machine/Memory.lean ====
section
/-! DEFINITION. Local memory as data (spec/20_memory.md R80, R82, R83): the bytes something has written, in one canonical form. -/

namespace Sys2Proof.Machine

/-- The written bytes, addresses strictly rising. An address not listed holds no written byte: it is still what the hardware reset
left there, an unspecified byte (R320, assumption 3), which no entry can be equal to. -/
abbrev Memory := List Host.Cell

/-- The byte written at address a, if one was. -/
def Memory.get? : Memory → Nat → Option Byte
  | [], _ => none
  | (b, v) :: m, a => if a = b then some v else if a < b then none else Memory.get? m a

/-- Writing a byte at address a. -/
def Memory.set : Memory → Nat → Byte → Memory
  | [], a, v => [(a, v)]
  | (b, w) :: m, a, v =>
    if a = b then (a, v) :: m
    else if a < b then (a, v) :: (b, w) :: m
    else (b, w) :: Memory.set m a v

/-- Every listed address is above a, and the addresses strictly rise. -/
def Memory.wfFrom : Nat → Memory → Bool
  | _, [] => true
  | a, (b, _) :: m => decide (a < b) && Memory.wfFrom b m

/-- The canonical form: addresses strictly rising. Equal lists of written bytes are equal data. -/
def Memory.wf : Memory → Bool
  | [] => true
  | (a, _) :: m => Memory.wfFrom a m

/-- Every listed address is below n. -/
def Memory.below (n : Nat) (m : Memory) : Bool := m.all fun c => decide (c.1 < n)

end Sys2Proof.Machine
end

