-- ==== Sys2Proof/Machine/State.lean ====
section
/-! DEFINITION. The machine's state (spec/10_state.md) and its reset value (spec/70_reset_and_hazards.md R320). -/

namespace Sys2Proof.Machine

/-- The cause codes of R280; codes 12 to 15 are never written. -/
inductive Cause where
  | none | fetchAlign | fetchRange | illegalOp | reservedBits | notConfigured
  | cfgBlocksize | cfgMethod | cfgWindow | cfgParam | memAlign | memRange
deriving DecidableEq, Repr

/-- The bits of STATUS (R33); bits 31:7 hold nothing and read 0. -/
structure Status where
  busy : Bool
  done : Bool
  err : Bool
  cfgok : Bool
  nan : Bool
  sat : Bool
  wdrop : Bool
deriving DecidableEq, Repr

/-- The companding methods, CFG.METHOD = 0, 1, 2 (R36). -/
inductive Method where
  | mu | uv | sq
deriving DecidableEq, Repr

/-- The window shapes, CFG.WIN = 0 to 5 (R36). -/
inductive Window where
  | rectangular | triangular | hann | hamming | blackman | blackmanHarris
deriving DecidableEq, Repr

/-- The curve constants (R49, R163 to R165). -/
structure CurveConsts where
  kmb : F32
  kml : F32
  gam : F32
  alp : F32
  bet : F32
  uvd : F32
  uva : F32
  uve : F32
  uv2a : F32
  uv4a : F32
  k : Nat
deriving DecidableEq, Repr

/-- The expansion table (R48) in closed form: what its 65536 entries were computed from. R168 lets a model hold no table at all,
since every entry is a function of the constants it was built with (assumption 8). -/
inductive Lut where
  /-- Unspecified since a reset: draw number (R320, R321). -/
  | unspecified (draw : Nat)
  /-- Built by an INIT under mu-law: KMB and μ (R162). -/
  | mu (kmb p0 : F32)
  /-- Built by an INIT under uv-law: UVD, UVE, ALP, UV4A, UV2A (R166). -/
  | uv (uvd uve alp uv4a uv2a : F32)
deriving DecidableEq, Repr

/-- The LMEM bytes base to base + len - 1. -/
structure Span where
  base : Nat
  len : Nat
deriving DecidableEq, Repr

/-- A host read of LMEM while BUSY = 1 (R98). -/
structure HostRead where
  /-- The bytes it reads. -/
  span : Span
  /-- What they held at the read. -/
  seen : Word
  /-- The draw of the values it gives for bytes that a command of the run writes. -/
  draw : Nat
deriving DecidableEq, Repr

/-- What R98 needs to know of the current run; empty while idle (assumptions 9, 10). -/
structure RaceLog where
  /-- Bytes the host wrote while BUSY = 1, or that a command computed from such bytes: any value at the run's end. -/
  raced : List Span
  /-- Bytes the commands of this run wrote. -/
  wrote : List Span
  /-- The host's reads of LMEM in this run, the latest first. -/
  reads : List HostRead
  /-- Is the latest of them the host's latest read? -/
  lastRead : Bool
  /-- The A registers that hold a value from raced bytes. -/
  regs : List (Fin 8)
  /-- Does SYNGAIN hold a value from raced bytes? -/
  gain : Bool
  /-- Has a raced byte decided which command ran or which bytes one used? -/
  steered : Bool
deriving DecidableEq, Repr

/-- An access through the host port: offset, width in bits, data (R30, R84). -/
inductive HostAccess where
  | read (off : Word) (width : Nat)
  | write (off : Word) (width : Nat) (data : Word)
deriving DecidableEq, Repr

/-- What happens next at the boundary between two engine steps (R44; assumption 1). -/
inductive Turn where
  /-- The engine's turn: one command, if it is busy. -/
  | engine
  /-- One host access. -/
  | access (a : HostAccess)
  /-- The reset input is asserted (R320). -/
  | reset
deriving DecidableEq, Repr

/-- Everything the spec gives the machine, and below it the model's own fields. -/
structure State where
  /-- LMEM_SIZE, MAX_LOG2N and NUM, fixed for a machine (R8, R39). -/
  hw : Config.Params
  /-- CTRL.IRQEN (R32). -/
  irqen : Bool
  /-- STATUS (R33). -/
  status : Status
  /-- ERRCAUSE (R35). -/
  errCause : Cause
  /-- ERRPC (R35). -/
  errPc : Word
  /-- ERRADDR (R35). -/
  errAddr : Word
  /-- ERRCMDL (R35). -/
  errCmdL : Word
  /-- ERRCMDH (R35). -/
  errCmdH : Word
  /-- PC (R41). -/
  pc : Word
  /-- CFG (R36). -/
  cfg : Word
  /-- CPARAM0 (R37). -/
  cparam0 : F32
  /-- CPARAM1 (R37). -/
  cparam1 : F32
  /-- SYNGAIN (R38). -/
  syngain : F32
  /-- ACFG (R40). -/
  acfg : Word
  /-- ACPARAM0 (R40). -/
  acparam0 : F32
  /-- ACPARAM1 (R40). -/
  acparam1 : F32
  /-- A0 to A7 (R42). -/
  regs : Vector Word 8
  /-- The window table W (R46). -/
  w : List F32
  /-- The normalization table R (R47). -/
  r : List F32
  /-- The expansion table LUT (R48). -/
  lut : Lut
  /-- The curve constants (R49). -/
  consts : CurveConsts
  /-- LMEM: the bytes written since the last hardware reset (R80). -/
  lmem : Memory
  /-- Model: the draw that the unlisted LMEM bytes belong to (assumption 3). -/
  lmemDraw : Nat
  /-- Model: how many draws of free values were taken (assumption 4). -/
  draws : Nat
  /-- Model: the turns still to come; the engine has every turn after the last (assumption 1). -/
  turns : List Turn
  /-- Model: the data of the host's latest read (assumption 19). -/
  rdata : Word
  /-- Model: the data of the host's reads of LMEM while BUSY = 1 in the runs that have ended, the latest first (R98, assumption 10). -/
  raceReads : List Word
  /-- Model: the races of the current run (R98). -/
  race : RaceLog
deriving DecidableEq, Repr

/-- No step ends in a fault of the model: each of the spec's causes (R280) is taken as the fault entry of R290, a next state, and
the spec stops the machine nowhere else (assumption 14). -/
inductive Fault where
deriving DecidableEq, Repr

/-- Why a step has no meaning. -/
inductive Refusal where
  /-- Raised by an arm of `exec` whose instruction has no meaning yet; no arm does. Safe. -/
  | notModelled (mnemonic : String)
  /-- Raised by a host access to the register space that is not 32 bits wide and 4-byte aligned, which the model refuses (R45, U20).
  Safe: the host has the duty never to make one. -/
  | hostRegisterAccess (off : Word) (width : Nat)
  /-- Raised by a host access to LMEM or above that is not 8, 16 or 32 bits wide and naturally aligned, which the model refuses (R84,
  U20). Safe: the host has the duty never to make one. -/
  | hostMemoryAccess (off : Word) (width : Nat)
deriving DecidableEq, Repr

/-- All STATUS bits 0 (R33). -/
def clearStatus : Status :=
  { busy := false, done := false, err := false, cfgok := false, nan := false, sat := false, wdrop := false }

/-- Curve constants after a reset: unspecified (R320), so free values of the given draw (assumption 4). -/
def freeConsts (draw : Nat) : CurveConsts :=
  { kmb := Config.freeWord draw 0, kml := Config.freeWord draw 1, gam := Config.freeWord draw 2,
    alp := Config.freeWord draw 3, bet := Config.freeWord draw 4, uvd := Config.freeWord draw 5,
    uva := Config.freeWord draw 6, uve := Config.freeWord draw 7, uv2a := Config.freeWord draw 8,
    uv4a := Config.freeWord draw 9, k := Config.freeCount draw }

/-- No race has begun. -/
def noRaces : RaceLog :=
  { raced := [], wrote := [], reads := [], lastRead := false, regs := [], gain := false, steered := false }

/-- The machine right after a hardware reset (R320). -/
def State.reset : State :=
  { hw := Config.defaultParams
    irqen := false
    status := clearStatus
    errCause := .none
    errPc := 0
    errAddr := 0
    errCmdL := 0
    errCmdH := 0
    pc := 0
    cfg := 0x0000010B#32
    cparam0 := 0x43800000#32
    cparam1 := 0x3E800000#32
    syngain := 0x46800000#32
    acfg := 0
    acparam0 := 0
    acparam1 := 0
    regs := Vector.replicate 8 0
    w := Config.freeTable 0 0
    r := Config.freeTable 0 1
    lut := .unspecified 0
    consts := freeConsts 0
    lmem := []
    lmemDraw := 0
    draws := 1
    turns := []
    rdata := 0
    raceReads := []
    race := noRaces }

end Sys2Proof.Machine
end

