-- ==== Sys2Proof/Machine/Ops.lean ====
section
/-! DEFINITION. The named operations over LMEM and the registers (spec/00_scope.md R11, spec/20_memory.md), the
fault entry (spec/60_exceptions.md R290) and START, which is the only way on after a fault (R141, R292). -/

namespace Sys2Proof.Machine

/-- The three outcomes of a step of this machine. -/
abbrev Result := Host.Outcome State Fault Refusal

/-- f 0, f 1, …, f (n-1) in this order. -/
def iter {α : Type} (f : Nat → α → α) : Nat → α → α
  | 0, a => a
  | n + 1, a => f n (iter f n a)

/-! ### Registers and pc -/

/-- `x[i]` (R11, R112). -/
def State.x (s : State) (i : Reg) : Word := s.regs[i]

/-- `x[i] <- v` (R11). -/
def State.setX (s : State) (i : Reg) (v : Word) : State := { s with regs := s.regs.set i v }

/-- `pc <- target` (R11). -/
def State.setPc (s : State) (target : Word) : State := { s with pc := target }

/-- `pc <- (pc + 8) mod 2^32` (R140). -/
def State.advance (s : State) : State := { s with pc := s.pc + 8 }

/-! ### LMEM -/

/-- The byte of LMEM at address a: what was written there, or the unspecified byte of the last hardware reset (R80, R320). -/
def State.byte (s : State) (a : Nat) : Byte := (Memory.get? s.lmem a).getD (Config.freeByte s.lmemDraw a)

/-- The n bytes from address a up. -/
def State.bytesAt (s : State) : Nat → Nat → List Byte
  | _, 0 => []
  | a, n + 1 => s.byte a :: State.bytesAt s (a + 1) n

/-- `MemRead(addr, n)` (R11): little-endian. -/
def State.memRead (s : State) (a n : Nat) : Nat := leNat (s.bytesAt a n)

/-- Bytes written from address a up. -/
def storeBytes : Memory → Nat → List Byte → Memory
  | m, _, [] => m
  | m, a, b :: bs => storeBytes (Memory.set m a b) (a + 1) bs

/-- `MemWrite(addr, n, v)` (R11): the n low bytes of v, little-endian. -/
def State.memWrite (s : State) (a n v : Nat) : State := { s with lmem := storeBytes s.lmem a (leBytes n v) }

/-- `ReadF32(a)` (R11). -/
def State.readF32 (s : State) (a : Word) : F32 := BitVec.ofNat 32 (s.memRead a.toNat 4)

/-- `ReadU16(a)` (R11). -/
def State.readU16 (s : State) (a : Word) : Code := BitVec.ofNat 16 (s.memRead a.toNat 2)

/-- `WriteF32(a, v)` (R11); a NaN is written as the canonical one (R13). -/
def State.writeF32 (s : State) (a : Word) (v : F32) : State := s.memWrite a.toNat 4 (canon v).toNat

/-- `WriteU16(a, q)` (R11). -/
def State.writeU16 (s : State) (a : Word) (q : Code) : State := s.memWrite a.toNat 2 q.toNat

/-- The address of element i of an operand: (base + size·i) mod 2^32 (R91). -/
def element (base : Word) (size i : Nat) : Word := base + BitVec.ofNat 32 (size * i)

/-- n samples from address a up. -/
def State.readSamples (s : State) (a : Word) (n : Nat) : List F32 := (List.range n).map fun i => s.readF32 (element a 4 i)

/-- n complex bins from address a up: real part at +0, imaginary part at +4 (R85). -/
def State.readBins (s : State) (a : Word) (n : Nat) : List Bin :=
  (List.range n).map fun i => (s.readF32 (element a 8 i), s.readF32 (element a 8 i + 4))

/-- n pixels from address a up: codes at +0, +2 and +4 (R86). -/
def State.readPixels (s : State) (a : Word) (n : Nat) : List Pixel :=
  (List.range n).map fun i => (s.readU16 (element a 6 i), s.readU16 (element a 6 i + 2), s.readU16 (element a 6 i + 4))

/-- Samples written from address a up, in increasing address order (R103). -/
def State.writeSamples : State → Word → List F32 → State
  | s, _, [] => s
  | s, a, v :: vs => State.writeSamples (s.writeF32 a v) (a + 4) vs

/-- Codes written from address a up, in increasing address order (R103). -/
def State.writeCodes : State → Word → List Code → State
  | s, _, [] => s
  | s, a, q :: qs => State.writeCodes (s.writeU16 a q) (a + 2) qs

/-- Complex bins written from address a up (R85). -/
def State.writeBins (s : State) (a : Word) (b : List Bin) : State := s.writeSamples a (b.flatMap fun z => [z.1, z.2])

/-- Pixels written from address a up (R86). -/
def State.writePixels (s : State) (a : Word) (p : List Pixel) : State :=
  s.writeCodes a (p.flatMap fun q => [q.1, q.2.1, q.2.2])

/-! ### Faults -/

/-- The code of a cause (R280). -/
def causeCode : Cause → Nat
  | .none => 0
  | .fetchAlign => 1
  | .fetchRange => 2
  | .illegalOp => 3
  | .reservedBits => 4
  | .notConfigured => 5
  | .cfgBlocksize => 6
  | .cfgMethod => 7
  | .cfgWindow => 8
  | .cfgParam => 9
  | .memAlign => 10
  | .memRange => 11

/-- Fault entry (R290): the run ends, ERR is set, the error registers record the cause, pc, the address and the command word (0
where none was fetched), and pc stays. -/
def State.raise (s : State) (c : Cause) (addr : Word) (cmd : Command) : State :=
  { s with
    status := { s.status with busy := false, err := true }
    errCause := c
    errPc := s.pc
    errAddr := addr
    errCmdL := cmd.extractLsb' 0 32
    errCmdH := cmd.extractLsb' 32 32 }

/-- `InitFail(c)` (R201): CFGOK is cleared, then the fault entry with address 0. -/
def State.initFail (s : State) (c : Cause) : State :=
  { s with status := { s.status with cfgok := false } }.raise c 0 (encodeWord .init)

/-- START (R141), the way a run begins and the return from a fault (R292): accepted while idle, else WDROP. -/
def State.start (s : State) : State :=
  if s.status.busy then { s with status := { s.status with wdrop := true } }
  else
    { s with
      status := { s.status with done := false, err := false, busy := true }
      errCause := .none
      errPc := 0
      errAddr := 0
      errCmdL := 0
      errCmdH := 0 }

end Sys2Proof.Machine
end

