-- ==== Sys2Proof/Machine/Flags.lean ====
section
/-! DEFINITION. The STATUS bits and the quantizer that sets the sticky flags (spec/10_state.md R33, R34, spec/41_companding.md R160),
and the IRQ line (spec/60_exceptions.md R300). -/

namespace Sys2Proof.Machine

/-- STATUS as the host reads it (R33). -/
def statusWord (s : Status) : Word :=
  0#25 ++ (BitVec.ofBool s.wdrop ++ (BitVec.ofBool s.sat ++ (BitVec.ofBool s.nan ++ (BitVec.ofBool s.cfgok ++
    (BitVec.ofBool s.err ++ (BitVec.ofBool s.done ++ BitVec.ofBool s.busy))))))

/-- A host write to STATUS: a 1 clears an RW1C bit, a 0 leaves it; RO bits ignore the write (R33). -/
def clearWritten (s : Status) (v : Word) : Status :=
  { s with
    done := s.done && !v.getLsbD 1
    err := s.err && !v.getLsbD 2
    nan := s.nan && !v.getLsbD 4
    sat := s.sat && !v.getLsbD 5
    wdrop := s.wdrop && !v.getLsbD 6 }

/-- IRQ = IRQEN and (DONE or ERR) (R300). -/
def State.irq (s : State) : Bool := s.irqen && (s.status.done || s.status.err)

/-- A code with the flags its quantization sets. -/
structure Quantized where
  code : Code
  nan : Bool
  sat : Bool
deriving DecidableEq, Repr

/-- `Q(y)` (R160). -/
def quantize (y : F32) : Quantized :=
  if isNaN y then { code := 0, nan := true, sat := false }
  else if flt y zero32 then { code := 0, nan := false, sat := true }
  else if flt one32 y then { code := 65535, nan := false, sat := true }
  else { code := BitVec.ofNat 16 (floorNat (fmul y 0x477FFF00#32)), nan := false, sat := false }

/-- The flags of a quantization, set in STATUS and never cleared by it (R34). -/
def State.stick (s : State) (q : Quantized) : State :=
  { s with status := { s.status with nan := s.status.nan || q.nan, sat := s.status.sat || q.sat } }

end Sys2Proof.Machine
end

