-- ==== Sys2Proof/Machine/Operands.lean ====
section
/-! DEFINITION. Operand forms of the data commands: the active configuration (spec/10_state.md R36, R40), the operand check
(spec/20_memory.md R93), the order of a data command's checks (spec/60_exceptions.md R281, R291) and the code conversions
(spec/00_scope.md R18). -/

namespace Sys2Proof.Machine

/-- BLK_LOG2, bits 4:0 of CFG or ACFG (R36). -/
def blkLog2 (cfg : Word) : Nat := (cfg.extractLsb' 0 5).toNat

/-- The bits of METHOD, 9:8 (R36). -/
def methodBits (cfg : Word) : BitVec 2 := cfg.extractLsb' 8 2

/-- METHOD: none for the reserved code 3 (R36). -/
def methodOf (cfg : Word) : Option Method :=
  match methodBits cfg with
  | 0#2 => some .mu
  | 1#2 => some .uv
  | 2#2 => some .sq
  | _ => none

/-- The bits of WIN, 14:12 (R36). -/
def windowBits (cfg : Word) : BitVec 3 := cfg.extractLsb' 12 3

/-- WIN: none for the reserved codes 6 and 7 (R36). -/
def windowOf (cfg : Word) : Option Window :=
  match windowBits cfg with
  | 0#3 => some .rectangular
  | 1#3 => some .triangular
  | 2#3 => some .hann
  | 3#3 => some .hamming
  | 4#3 => some .blackman
  | 5#3 => some .blackmanHarris
  | _ => none

/-- The bits of CFG that store what is written; 7:5, 11:10 and 15 read 0 (R36). -/
def cfgMask : Word := 0xFFFF731F#32

/-- aN, the active block size N = 2^ACFG.BLK_LOG2 (R40). -/
def State.aN (s : State) : Nat := 2 ^ blkLog2 s.acfg

/-- M = N/2 + 1, the bins of a row (R21). -/
def binCount (n : Nat) : Nat := n / 2 + 1

/-- RB = 6·M, the bytes of a row (R21, R87). -/
def rowBytes (n : Nat) : Nat := 6 * binCount n

/-- `Yin(r)` (R18, R167). -/
def yin (r : Code) : F32 := fdiv (u2f r.toNat) 0x477FFF00#32

/-- `Deq(r)` (R18, R260). -/
def deq (r : Code) : F32 := fdiv (u2f ((r.toNat : Int) - 32768)) 0x47000000#32

/-- An operand of a data command: base address, length in bytes, alignment (R93). -/
structure Operand where
  base : Word
  len : Nat
  align : Nat
deriving DecidableEq, Repr

/-- The bytes an operand names. -/
def Operand.span (o : Operand) : Span := { base := o.base.toNat, len := o.len }

/-- `Check(a, len, al)` (R93): length 0 passes, MEM_ALIGN before MEM_RANGE, the end without wrap. -/
def checkOperand (lmemSize : Nat) (o : Operand) : Option Cause :=
  if o.len = 0 then none
  else if o.base.toNat % o.align ≠ 0 then some .memAlign
  else if lmemSize < o.base.toNat + o.len then some .memRange
  else none

/-- The first failing check of a list of operands, with ERRADDR = its base (R280, R281). -/
def firstFault (lmemSize : Nat) : List Operand → Option (Cause × Word)
  | [] => none
  | o :: os =>
    match checkOperand lmemSize o with
    | some c => some (c, o.base)
    | none => firstFault lmemSize os

/-- A data command: NOT_CONFIGURED, then the checks of what it reads and of what it writes, in this order, before any effect (R281,
R291); then its effect on LMEM and flags, and pc + 8 (R140). -/
def dataCommand (i : Instr) (ins : List Operand) (out : Operand) (effect : State → State) (s : State) : Result :=
  if s.status.cfgok then
    match firstFault s.hw.lmemSize (ins ++ [out]) with
    | some (c, a) => .next (s.raise c a (encodeWord i))
    | none => .next (effect s).advance
  else .next (s.raise .notConfigured 0 (encodeWord i))

/-! ### The operands of each command -/

/-- The commands that need CFGOK: every OP from 0x10 up (R114, R280). -/
def isDataCommand (i : Instr) : Bool := decide (0x10 ≤ (opcodeOf i).toNat)

/-- The operands of a data command in the order they are checked: base, length in bytes, alignment (the second table of R280). -/
def operandTable (i : Instr) (s : State) : List Operand :=
  let n := s.aN
  let m := n / 2 + 1
  match i with
  | .nop | .halt | .init | .seta _ _ | .adda _ _ | .jmp _ | .djnz _ _ | .setg _ => []
  | .windump a => [⟨s.x a, 8 * n, 4⟩]
  | .comp a b c | .pqnt a b c => [⟨s.x a, 4 * (s.x c).toNat, 4⟩, ⟨s.x b, 2 * (s.x c).toNat, 2⟩]
  | .expd a b c | .pdeq a b c => [⟨s.x a, 2 * (s.x c).toNat, 2⟩, ⟨s.x b, 4 * (s.x c).toNat, 4⟩]
  | .rfft a b => [⟨s.x a, 4 * n, 4⟩, ⟨s.x b, 8 * m, 4⟩]
  | .irfft a b => [⟨s.x a, 8 * m, 4⟩, ⟨s.x b, 4 * n, 4⟩]
  | .fwd a b c => [⟨s.x a, 4 * min (s.x b).toNat n, 4⟩, ⟨s.x c, 6 * m, 2⟩]
  | .inv a b pv nv =>
    [⟨s.x a, 6 * m, 2⟩] ++ (if pv then [⟨s.x a - BitVec.ofNat 32 (6 * m), 6 * m, 2⟩] else []) ++
      (if nv then [⟨s.x a + BitVec.ofNat 32 (6 * m), 6 * m, 2⟩] else []) ++ [⟨s.x b, 4 * n, 4⟩]

/-- The operand a data command writes: the last of its table. -/
def outputOperand (i : Instr) (s : State) : Operand := (operandTable i s).getLastD ⟨0, 0, 1⟩

end Sys2Proof.Machine
end

