-- ==== Sys2Proof/Machine/Companding.lean ====
section
/-! DEFINITION. The companding curves, their constants, the expansion table, COMP and EXPD (spec/41_companding.md). -/

namespace Sys2Proof.Machine

open Config (NumChoice)

/-- KMB (R163). -/
def kmbOf (p0 : F32) : F32 := fadd one32 p0

/-- The mu-law constants, if valid_mu holds (R163); the constants of the other methods stay (assumption 27). -/
def muConsts (num : NumChoice) (p0 : F32) (old : CurveConsts) : Option CurveConsts :=
  let kmb := kmbOf p0
  if isFinite p0 && flt one32 kmb then some { old with kmb := kmb, kml := numLn num kmb } else none

/-- The uv-law constants, if valid_uv holds (R164). -/
def uvConsts (u v : F32) (old : CurveConsts) : Option CurveConsts :=
  let uvnum := fsub (fmul u v) one32
  let uvden := fsub (fadd u v) two32
  let gam := fdiv uvnum uvden
  let bet := fdiv one32 (fsub one32 gam)
  let alp := fdiv one32 (fsub u gam)
  let uvd := fsub bet alp
  let uva := fmul gam uvd
  let uve := fadd one32 (fmul gam alp)
  if isFinite u && isFinite v && !isZero uvden && !isZero uva && isFinite gam && isFinite bet && isFinite alp && isFinite uvd
      && isFinite uva && isFinite uve then
    some
      { old with
        gam := gam
        bet := bet
        alp := alp
        uvd := uvd
        uva := uva
        uve := uve
        uv2a := fmul two32 (fneg uva)
        uv4a := fmul four32 (fneg uva) }
  else none

/-- The monotone-square-root constant K, if valid_sq holds (R165). -/
def sqConsts (p0 : F32) (old : CurveConsts) : Option CurveConsts :=
  if isFinite p0 && isIntegral p0 && fle one32 p0 && fle p0 0x42800000#32 then some { old with k := floorNat p0 } else none

/-- The constants INIT derives for a method, or none where its validity test fails (R200). -/
def curveConsts (num : NumChoice) (m : Method) (p0 p1 : F32) (old : CurveConsts) : Option CurveConsts :=
  match m with
  | .mu => muConsts num p0 old
  | .uv => uvConsts p0 p1 old
  | .sq => sqConsts p0 old

/-- `C_mu(x)` (R162). -/
def cMu (num : NumChoice) (k : CurveConsts) (p0 x : F32) : F32 :=
  let p := fmul p0 x
  let t := fadd one32 p
  fdiv (numLn num t) k.kml

/-- `E_mu(y)` (R162). -/
def eMu (num : NumChoice) (kmb p0 y : F32) : F32 :=
  let p := numPow num kmb y
  fdiv (fsub p one32) p0

/-- `C_uv(x)` (R166). -/
def cUv (k : CurveConsts) (x : F32) : F32 :=
  let d := fadd (fmul k.uvd x) k.alp
  fadd (fdiv x d) (fmul k.gam x)

/-- `E_uv(y)` (R166). -/
def eUv (uvd uve alp uv4a uv2a y : F32) : F32 :=
  let b := fsub (fmul uvd y) uve
  let c := fmul alp y
  let disc := fsub (fmul b b) (fmul uv4a c)
  fdiv (fsub (fneg b) (fsqrt disc)) uv2a

/-- `C_sq(x)` (R169): K - 1 square roots. -/
def cSq (k : Nat) (x : F32) : F32 := iter (fun _ y => fsqrt y) (k - 1) x

/-- `E_sq(y)` (R169): K - 1 squarings. -/
def eSq (k : Nat) (y : F32) : F32 := iter (fun _ x => fmul x x) (k - 1) y

/-- C of the active method (R161). METHOD = 3 never gets here (assumption 13). -/
def State.compress (s : State) (x : F32) : F32 :=
  match methodOf s.acfg with
  | some .mu => cMu s.hw.num s.consts s.acparam0 x
  | some .uv => cUv s.consts x
  | some .sq => cSq s.consts.k x
  | none => Config.reservedCurve x

/-- The LUT an INIT builds (R168, R200); it leaves the old one for monotone-square-root (R48). -/
def buildLut (m : Method) (k : CurveConsts) (p0 : F32) (old : Lut) : Lut :=
  match m with
  | .mu => .mu k.kmb p0
  | .uv => .uv k.uvd k.uve k.alp k.uv4a k.uv2a
  | .sq => old

/-- LUT[r] (R48, R168). -/
def lutEntry (num : NumChoice) (t : Lut) (r : Code) : F32 :=
  match t with
  | .unspecified draw => Config.freeLut draw r
  | .mu kmb p0 => eMu num kmb p0 (yin r)
  | .uv uvd uve alp uv4a uv2a => eUv uvd uve alp uv4a uv2a (yin r)

/-- `Expand(r)` (R168). -/
def State.expand (s : State) (r : Code) : F32 :=
  match methodOf s.acfg with
  | some .mu => lutEntry s.hw.num s.lut r
  | some .uv => lutEntry s.hw.num s.lut r
  | _ => eSq s.consts.k (yin r)

/-- Element i of a quantizing vector command: read a value, write its code, set the flags (R103, R170, R240). -/
def quantizeElement (curve : F32 → F32) (src dst : Word) (i : Nat) (s : State) : State :=
  let q := quantize (curve (s.readF32 (element src 4 i)))
  (s.writeU16 (element dst 2 i) q.code).stick q

/-- Element i of an expanding vector command: read a code, write its value (R103, R171, R261). -/
def expandElement (curve : Code → F32) (src dst : Word) (i : Nat) (s : State) : State :=
  s.writeF32 (element dst 4 i) (curve (s.readU16 (element src 2 i)))

/-- COMP (R170). -/
def execComp (ra rb rc : Reg) (s : State) : Result :=
  let src := s.x ra
  let dst := s.x rb
  let n := (s.x rc).toNat
  dataCommand (.comp ra rb rc) [⟨src, 4 * n, 4⟩] ⟨dst, 2 * n, 2⟩ (iter (quantizeElement s.compress src dst) n) s

/-- EXPD (R171). -/
def execExpd (ra rb rc : Reg) (s : State) : Result :=
  let src := s.x ra
  let dst := s.x rb
  let n := (s.x rc).toNat
  dataCommand (.expd ra rb rc) [⟨src, 2 * n, 2⟩] ⟨dst, 4 * n, 4⟩ (iter (expandElement s.expand src dst) n) s

end Sys2Proof.Machine
end

