-- ==== Sys2Proof/Machine/Control.lean ====
section
/-! DEFINITION. The control commands (spec/40_control.md R142 to R148). -/

namespace Sys2Proof.Machine

/-- NOP (R142). -/
def execNop (s : State) : Result := .next s.advance

/-- HALT (R143): pc + 8, BUSY 0, DONE 1. -/
def execHalt (s : State) : Result :=
  .next { s.advance with status := { s.status with busy := false, done := true } }

/-- SETA (R144). -/
def execSeta (ra : Reg) (imm : Word) (s : State) : Result := .next (s.setX ra imm).advance

/-- ADDA (R145): the sum wraps mod 2^32. -/
def execAdda (ra : Reg) (imm : Word) (s : State) : Result := .next (s.setX ra (s.x ra + imm)).advance

/-- JMP (R146): the target is checked by the next fetch. -/
def execJmp (imm : Word) (s : State) : Result := .next (s.setPc imm)

/-- DJNZ (R147): the decrement wraps mod 2^32. -/
def execDjnz (ra : Reg) (imm : Word) (s : State) : Result :=
  let t := s.x ra - 1
  if t = 0 then .next (s.setX ra t).advance else .next ((s.setX ra t).setPc imm)

/-- SETG (R148): any bit pattern is stored unchanged. -/
def execSetg (imm : Word) (s : State) : Result := .next { s.advance with syngain := imm }

end Sys2Proof.Machine
end

