-- ==== Sys2Proof/Machine/WindowUnit.lean ====
section
/-! DEFINITION. The window generator, INIT and WINDUMP (spec/42_window_init.md). -/

namespace Sys2Proof.Machine

open Config (NumChoice)

/-- `Cos2(a0, a1, x)` (R190). -/
def cos2Sum (num : NumChoice) (a0 a1 x : F32) : F32 := fsub a0 (fmul a1 (numCos2pi num 1 x))

/-- `Cos3(a0, a1, a2, x)` (R190). -/
def cos3Sum (num : NumChoice) (a0 a1 a2 x : F32) : F32 := fadd (cos2Sum num a0 a1 x) (fmul a2 (numCos2pi num 2 x))

/-- `Cos4(a0, a1, a2, a3, x)` (R190). -/
def cos4Sum (num : NumChoice) (a0 a1 a2 a3 x : F32) : F32 :=
  fsub (cos3Sum num a0 a1 a2 x) (fmul a3 (numCos2pi num 3 x))

/-- W[i] for block size n (R190). -/
def windowAt (num : NumChoice) (win : Window) (n i : Nat) : F32 :=
  let x := fdiv (u2f i) (u2f ((n : Int) - 1))
  match win with
  | .rectangular => one32
  | .triangular => fsub one32 (fabs (fsub (fmul two32 x) one32))
  | .hann => cos2Sum num half32 half32 x
  | .hamming => cos2Sum num 0x3F0A3D71#32 0x3EEB851F#32 x
  | .blackman => cos3Sum num 0x3ED70A3D#32 half32 0x3DA3D70A#32 x
  | .blackmanHarris => cos4Sum num 0x3EB7AE14#32 0x3EFA0126#32 0x3E10ABB4#32 0x3C3F5D79#32 x

/-- The window table W for block size n (R46, R190). -/
def windowTable (num : NumChoice) (win : Window) (n : Nat) : List F32 := (List.range n).map (windowAt num win n)

/-- The normalization table R of a window table of n entries: R[i] = 1 / (W[i]² + W[j]²) with j = (i + n/2) mod n, the squares of the
window and the same squares turned by n/2 (R47, R191). -/
def normTable (w : List F32) (n : Nat) : List F32 :=
  let sq := w.map fun v => fmul v v
  List.zipWith (fun a b => fdiv one32 (fadd a b)) sq (sq.drop (n / 2) ++ sq.take (n / 2))

/-- W[i] as the datapath reads it. A table an INIT built has N entries; past the last there is nothing (assumption 29). -/
def State.windowEntry (s : State) (i : Nat) : F32 := s.w.getD i (Config.freeEntry 0 i)

/-- R[i] as the datapath reads it. -/
def State.normEntry (s : State) (i : Nat) : F32 := s.r.getD i (Config.freeEntry 1 i)

/-- A successful INIT of method m, window win and constants k (R200): the configuration is latched, the tables are built, SYNGAIN is
8·N and CFGOK is set. -/
def State.configure (s : State) (m : Method) (win : Window) (k : CurveConsts) : State :=
  let n := 2 ^ blkLog2 s.cfg
  let w := windowTable s.hw.num win n
  { s with
    acfg := s.cfg
    acparam0 := s.cparam0
    acparam1 := s.cparam1
    consts := k
    w := w
    r := normTable w n
    lut := buildLut m k s.cparam0 s.lut
    syngain := u2f (8 * (n : Int))
    status := { s.status with cfgok := true } }

/-- INIT (R200, R201): the checks in their order, then the tables. -/
def execInit (s : State) : Result :=
  if blkLog2 s.cfg < Config.minLog2N ∨ s.hw.maxLog2N < blkLog2 s.cfg then .next (s.initFail .cfgBlocksize)
  else
    match methodOf s.cfg with
    | none => .next (s.initFail .cfgMethod)
    | some m =>
      match windowOf s.cfg with
      | none => .next (s.initFail .cfgWindow)
      | some win =>
        match curveConsts s.hw.num m s.cparam0 s.cparam1 s.consts with
        | none => .next (s.initFail .cfgParam)
        | some k => .next (s.configure m win k).advance

/-- The N entries of W and then the N entries of R, as WINDUMP writes them (R203). -/
def State.dumpedTables (s : State) : List F32 :=
  ((List.range s.aN).map s.windowEntry) ++ ((List.range s.aN).map s.normEntry)

/-- WINDUMP (R203). -/
def execWindump (ra : Reg) (s : State) : Result :=
  let d := s.x ra
  dataCommand (.windump ra) [] ⟨d, 8 * s.aN, 4⟩ (fun t => t.writeSamples d s.dumpedTables) s

end Sys2Proof.Machine
end

