-- ==== Sys2Proof/Machine/Decoder.lean ====
section
/-! DEFINITION. The spectral decoder's commands PDEQ and INV (spec/45_backward.md). -/

namespace Sys2Proof.Machine

/-- PDEQ (R261). -/
def execPdeq (ra rb rc : Reg) (s : State) : Result :=
  let src := s.x ra
  let dst := s.x rb
  let n := (s.x rc).toNat
  dataCommand (.pdeq ra rb rc) [⟨src, 2 * n, 2⟩] ⟨dst, 4 * n, 4⟩ (iter (expandElement deq src dst) n) s

/-- The row before the row at c: (c - 6·M) mod 2^32 (R262). -/
def rowBefore (c : Word) (n : Nat) : Word := c - BitVec.ofNat 32 (rowBytes n)

/-- The row after the row at c: (c + 6·M) mod 2^32 (R262). -/
def rowAfter (c : Word) (n : Nat) : Word := c + BitVec.ofNat 32 (rowBytes n)

/-- A row of M pixels, or the all-zero row where the neighbour does not exist (R263, R265). -/
def State.rowOrZero (s : State) (valid : Bool) (a : Word) (n : Nat) : List Pixel :=
  if valid then s.readPixels a (binCount n) else List.replicate (binCount n) (0, 0, 0)

/-- The complex bins of a row: real·magnitude and imaginary·magnitude (R264). -/
def State.rowBins (s : State) (row : List Pixel) : List Bin :=
  row.map fun p => (fmul (deq p.1) (s.expand p.2.1), fmul (deq p.2.2) (s.expand p.2.1))

/-- `Synth(row, G)` (R264): the inverse transform, times W, times the gain. An infinite gain gives what these products give by R12, and
not always the NaN of R263's corner case (assumption 30). -/
def State.synth (s : State) (n : Nat) (gain : F32) (row : List Pixel) : List F32 :=
  let y := numIrfft s.hw.num n (s.rowBins row)
  (List.range n).map fun i => fmul (fmul (y.getD i zero32) (s.windowEntry i)) gain

/-- out[n] of R263: the centre frame, plus the previous frame shifted by +H, plus the next frame shifted by -H, times R[n]. -/
def State.overlapAdd (s : State) (n : Nat) (fc fp fn : List F32) : List F32 :=
  let h := n / 2
  (List.range n).map fun i =>
    let sp := if i < h then fp.getD (i + h) zero32 else zero32
    let sn := if h ≤ i then fn.getD (i - h) zero32 else zero32
    fmul (fadd (fadd (fc.getD i zero32) sp) sn) (s.normEntry i)

/-- The N samples INV writes for the centre row at c (R263). -/
def State.decodeBlock (s : State) (c : Word) (pv nv : Bool) : List F32 :=
  let n := s.aN
  let g := s.syngain
  s.overlapAdd n (s.synth n g (s.rowOrZero true c n)) (s.synth n g (s.rowOrZero pv (rowBefore c n) n))
    (s.synth n g (s.rowOrZero nv (rowAfter c n) n))

/-- The rows INV checks and reads: the centre row, the previous one if PV, the next one if NV (R263, R280). -/
def invRows (c : Word) (n : Nat) (pv nv : Bool) : List Operand :=
  ⟨c, rowBytes n, 2⟩ :: ((if pv then [⟨rowBefore c n, rowBytes n, 2⟩] else []) ++
    (if nv then [⟨rowAfter c n, rowBytes n, 2⟩] else []))

/-- INV (R263): every row is read before the first sample is written. -/
def execInv (ra rb : Reg) (pv nv : Bool) (s : State) : Result :=
  let c := s.x ra
  let o := s.x rb
  dataCommand (.inv ra rb pv nv) (invRows c s.aN pv nv) ⟨o, 4 * s.aN, 4⟩ (fun t => t.writeSamples o (t.decodeBlock c pv nv)) s

end Sys2Proof.Machine
end

