-- ==== Sys2Proof/Machine/Encoder.lean ====
section
/-! DEFINITION. The spectral encoder's commands PQNT and FWD (spec/44_forward.md). -/

namespace Sys2Proof.Machine

/-- The linear map of the phase quantizer, 0.5·v + 0.5 in two roundings (R240). -/
def phaseMap (v : F32) : F32 := fadd (fmul half32 v) half32

/-- `PhaseQ(v)` (R240). -/
def phaseQ (v : F32) : Quantized := quantize (phaseMap v)

/-- PQNT (R240). -/
def execPqnt (ra rb rc : Reg) (s : State) : Result :=
  let src := s.x ra
  let dst := s.x rb
  let n := (s.x rc).toNat
  dataCommand (.pqnt ra rb rc) [⟨src, 4 * n, 4⟩] ⟨dst, 2 * n, 2⟩ (iter (quantizeElement phaseMap src dst) n) s

/-- The magnitude of a bin (R241). -/
def binMagnitude (re im : F32) : F32 := fsqrt (fadd (fmul re re) (fmul im im))

/-- `EncodeBin(re, im)` with the quantizations of the real part, the magnitude and the imaginary part (R241). -/
def encodeBin (curve : F32 → F32) (re im : F32) : Quantized × Quantized × Quantized :=
  let mag := binMagnitude re im
  if feq mag zero32 then (phaseQ zero32, quantize (curve mag), phaseQ zero32)
  else (phaseQ (fdiv re mag), quantize (curve mag), phaseQ (fdiv im mag))

/-- Lr = min(x[RB], N), the samples FWD reads (R242). -/
def sampleLimit (limit : Word) (n : Nat) : Nat := min limit.toNat n

/-- t[n] for n = 0 .. N-1: the sample, or +0 past the limit, times W[n] (R242). -/
def State.windowed (s : State) (src : Word) (limit n : Nat) : List F32 :=
  (List.range n).map fun i =>
    fmul (if i < limit then s.readF32 (element src 4 i) else zero32) (s.windowEntry i)

/-- The pixels of one frame with their quantizations: window, transform, normalize by H = N/2, encode (R242). -/
def State.encodeFrame (s : State) (src : Word) (limit n : Nat) : List (Quantized × Quantized × Quantized) :=
  (numRfft s.hw.num n (s.windowed src limit n)).map fun z =>
    encodeBin s.compress (fdiv z.1 (u2f ((n / 2 : Nat) : Int))) (fdiv z.2 (u2f ((n / 2 : Nat) : Int)))

/-- The codes of quantized pixels. -/
def pixelsOf (row : List (Quantized × Quantized × Quantized)) : List Pixel :=
  row.map fun p => (p.1.code, p.2.1.code, p.2.2.code)

/-- The flags of quantized pixels, set in STATUS. -/
def State.stickRow (s : State) (row : List (Quantized × Quantized × Quantized)) : State :=
  row.foldl (fun t p => ((t.stick p.1).stick p.2.1).stick p.2.2) s

/-- FWD (R242): every sample is read before the first code is written. -/
def execFwd (ra rb rc : Reg) (s : State) : Result :=
  let src := s.x ra
  let limit := sampleLimit (s.x rb) s.aN
  let dst := s.x rc
  dataCommand (.fwd ra rb rc) [⟨src, 4 * limit, 4⟩] ⟨dst, rowBytes s.aN, 2⟩
    (fun t =>
      let row := t.encodeFrame src limit s.aN
      (t.writePixels dst (pixelsOf row)).stickRow row) s

end Sys2Proof.Machine
end

