-- ==== Sys2Proof/Machine/Transform.lean ====
section
/-! DEFINITION. The transform unit's commands RFFT and IRFFT (spec/43_fft.md R225, R226). -/

namespace Sys2Proof.Machine

/-- RFFT (R225): every sample is read before the first bin is written. -/
def execRfft (ra rb : Reg) (s : State) : Result :=
  let src := s.x ra
  let dst := s.x rb
  dataCommand (.rfft ra rb) [⟨src, 4 * s.aN, 4⟩] ⟨dst, 8 * binCount s.aN, 4⟩
    (fun t => t.writeBins dst (numRfft s.hw.num s.aN (t.readSamples src s.aN))) s

/-- IRFFT (R226): every bin is read before the first sample is written. -/
def execIrfft (ra rb : Reg) (s : State) : Result :=
  let src := s.x ra
  let dst := s.x rb
  dataCommand (.irfft ra rb) [⟨src, 8 * binCount s.aN, 4⟩] ⟨dst, 4 * s.aN, 4⟩
    (fun t => t.writeSamples dst (numIrfft s.hw.num s.aN (t.readBins src (binCount s.aN)))) s

end Sys2Proof.Machine
end

