-- ==== Sys2Proof/Machine/Dispatch.lean ====
section
/-! DEFINITION. One arm per command: each is one call of its meaning (spec/30_encoding.md R114). -/

namespace Sys2Proof.Machine

def exec (i : Instr) (s : State) : Host.Outcome State Fault Refusal :=
  match i with
  | .nop => Sys2Proof.Machine.execNop s
  | .halt => Sys2Proof.Machine.execHalt s
  | .init => Sys2Proof.Machine.execInit s
  | .seta ra imm => Sys2Proof.Machine.execSeta ra imm s
  | .adda ra imm => Sys2Proof.Machine.execAdda ra imm s
  | .jmp imm => Sys2Proof.Machine.execJmp imm s
  | .djnz ra imm => Sys2Proof.Machine.execDjnz ra imm s
  | .setg imm => Sys2Proof.Machine.execSetg imm s
  | .windump ra => Sys2Proof.Machine.execWindump ra s
  | .comp ra rb rc => Sys2Proof.Machine.execComp ra rb rc s
  | .expd ra rb rc => Sys2Proof.Machine.execExpd ra rb rc s
  | .rfft ra rb => Sys2Proof.Machine.execRfft ra rb s
  | .irfft ra rb => Sys2Proof.Machine.execIrfft ra rb s
  | .pqnt ra rb rc => Sys2Proof.Machine.execPqnt ra rb rc s
  | .fwd ra rb rc => Sys2Proof.Machine.execFwd ra rb rc s
  | .pdeq ra rb rc => Sys2Proof.Machine.execPdeq ra rb rc s
  | .inv ra rb pv nv => Sys2Proof.Machine.execInv ra rb pv nv s

end Sys2Proof.Machine
end

