-- ==== Sys2Proof/Machine/Fetch.lean ====
section
/-! DEFINITION. Fetching and decoding the command at pc (spec/40_control.md R140, spec/20_memory.md R88, R101). -/

namespace Sys2Proof.Machine

/-- The command word at pc: 8 bytes, little-endian (R88, R110). -/
def State.fetchWord (s : State) : Command := BitVec.ofNat 64 (s.memRead s.pc.toNat 8)

/-- Fetch and decode (R140): the command, or the state after the fault entry of the first cause that applies (R281). -/
def fetchDecode (s : State) : Except State Instr :=
  if s.pc.toNat % 8 ≠ 0 then .error (s.raise .fetchAlign s.pc 0)
  else if s.hw.lmemSize < s.pc.toNat + 8 then .error (s.raise .fetchRange s.pc 0)
  else
    match decode (s.bytesAt s.pc.toNat 8) with
    | .ok (i, _) => .ok i
    | .error .illegalOp => .error (s.raise .illegalOp 0 s.fetchWord)
    | .error .reservedBits => .error (s.raise .reservedBits 0 s.fetchWord)
    | .error .truncated => .error (s.raise .fetchRange s.pc 0)

/-- The bytes of a command word placed at address a. -/
def placeWord (m : Memory) (a : Nat) (w : Nat) : Memory := storeBytes m a (leBytes 8 w)

end Sys2Proof.Machine
end

