-- ==== Sys2Proof/Machine/Races.lean ====
section
/-! DEFINITION. Races between the host and a run (spec/20_memory.md R98, R101, spec/93_implementation_defined.md U4; assumptions 9, 10):
which bytes a command computes from bytes the host wrote during the run, and what a run's end gives. No meaning of a command reads
any of it. -/

namespace Sys2Proof.Machine

/-! ### Spans -/

/-- Does the span hold address a? -/
def Span.holds (p : Span) (a : Nat) : Bool := decide (p.base ≤ a) && decide (a < p.base + p.len)

/-- Do two spans share a byte? -/
def Span.meets (p q : Span) : Bool :=
  decide (0 < p.len) && decide (0 < q.len) && decide (p.base < q.base + q.len) && decide (q.base < p.base + p.len)

/-- Does the span share a byte with one of the list? -/
def Span.meetsAny (p : Span) (l : List Span) : Bool := l.any fun q => p.meets q

/-- The list with the span before it, unless the span is empty. -/
def addSpan (p : Span) (l : List Span) : List Span := if p.len = 0 then l else p :: l

/-- Every byte of the span drawn anew. -/
def redrawSpan (draw : Nat) (m : Memory) (p : Span) : Memory :=
  storeBytes m p.base ((List.range p.len).map fun i => Config.freeByte draw (p.base + i))

/-! ### What a command computes from what -/

/-- Bytes a command writes, and the bytes it computes them from. -/
structure Flow where
  ins : List Span
  out : Span
deriving DecidableEq, Repr

/-- The flows of a vector command: each element from its own (R103). -/
def elementFlows (src dst : Word) (inSize outSize n : Nat) : List Flow :=
  (List.range n).map fun j => ⟨[⟨(element src inSize j).toNat, inSize⟩], ⟨(element dst outSize j).toNat, outSize⟩⟩

/-- The bytes of N/2 + 1 bins but for the imaginary parts of bins 0 and N/2, which rfft writes as +0 and irfft ignores (R221, R222). -/
def liveBins (a : Word) (n : Nat) : List Span := [⟨a.toNat, 4⟩, ⟨a.toNat + 8, 8 * (n / 2) - 4⟩]

/-- The bytes of a row but for the imaginary codes of bins 0 and N/2, which Synth does not use (R222, R264). -/
def liveRow (a : Word) (n : Nat) : List Span := [⟨a.toNat, 4⟩, ⟨a.toNat + 6, 6 * (n / 2) - 2⟩]

/-- The flows of a command. In INV the previous row reaches the first half of the output only, and the next row the second (R263).
WINDUMP reads no LMEM. -/
def flowsOf (i : Instr) (s : State) : List Flow :=
  let n := s.aN
  match i with
  | .nop | .halt | .init | .seta _ _ | .adda _ _ | .jmp _ | .djnz _ _ | .setg _ | .windump _ => []
  | .comp a b c | .pqnt a b c => elementFlows (s.x a) (s.x b) 4 2 (s.x c).toNat
  | .expd a b c | .pdeq a b c => elementFlows (s.x a) (s.x b) 2 4 (s.x c).toNat
  | .rfft a b => (liveBins (s.x b) n).map fun out => ⟨[⟨(s.x a).toNat, 4 * n⟩], out⟩
  | .irfft a b => [⟨liveBins (s.x a) n, ⟨(s.x b).toNat, 4 * n⟩⟩]
  | .fwd a b c => [⟨[⟨(s.x a).toNat, 4 * sampleLimit (s.x b) n⟩], ⟨(s.x c).toNat, rowBytes n⟩⟩]
  | .inv a b pv nv =>
    let c := s.x a
    let o := (s.x b).toNat
    let h := n / 2
    let previous := if pv then liveRow (rowBefore c n) n else []
    let following := if nv then liveRow (rowAfter c n) n else []
    [⟨liveRow c n ++ previous, ⟨o, 4 * h⟩⟩, ⟨liveRow c n ++ following, ⟨o + 4 * h, 4 * h⟩⟩]

/-- Does a later element of the command read what an earlier one wrote (R103)? -/
def isVectorCommand : Instr → Bool
  | .comp _ _ _ | .expd _ _ _ | .pqnt _ _ _ | .pdeq _ _ _ => true
  | .nop | .halt | .init | .seta _ _ | .adda _ _ | .jmp _ | .djnz _ _ | .setg _ | .windump _ | .rfft _ _ | .irfft _ _ | .fwd _ _ _
  | .inv _ _ _ _ => false

/-- Does the flow take in a raced byte? -/
def Flow.tainted (f : Flow) (raced : List Span) : Bool := f.ins.any fun p => p.meetsAny raced

/-- The raced bytes after the flows of a command: each output with a raced input is raced too. In a vector command an element sees the
ones before it. -/
def racedBy (vector : Bool) (flows : List Flow) (raced : List Span) : List Span :=
  flows.foldl (fun acc f => if f.tainted (bif vector then acc else raced) then addSpan f.out acc else acc) raced

/-- The A registers that decide where a command goes on or which bytes it uses. -/
def decidingRegs : Instr → List Reg
  | .nop | .halt | .init | .seta _ _ | .adda _ _ | .jmp _ | .setg _ => []
  | .djnz a _ | .windump a => [a]
  | .rfft a b | .irfft a b | .inv a b _ _ => [a, b]
  | .comp a b c | .expd a b c | .pqnt a b c | .pdeq a b c | .fwd a b c => [a, b, c]

/-- Does the immediate half of its word decide where a command goes on? A value that SETA, ADDA or SETG stores does not, nor the target of
a DJNZ that falls through. Where a command has no immediate the half must be 0 (R115). -/
def immediateDecides (i : Instr) (s : State) : Bool :=
  match i with
  | .seta _ _ | .adda _ _ | .setg _ => false
  | .djnz a _ => decide (s.x a ≠ 1)
  | .nop | .halt | .init | .jmp _ | .windump _ | .comp _ _ _ | .expd _ _ _ | .rfft _ _ | .irfft _ _ | .pqnt _ _ _ | .fwd _ _ _
  | .pdeq _ _ _ | .inv _ _ _ _ => true

/-- Does a raced byte decide what runs or which bytes are used, now or before: a byte of the word at pc, or one an A register came from? -/
def State.steeredBy (s : State) (i : Instr) : Bool :=
  s.race.steered || Span.meetsAny ⟨s.pc.toNat, 4⟩ s.race.raced ||
    (immediateDecides i s && Span.meetsAny ⟨s.pc.toNat + 4, 4⟩ s.race.raced) || (decidingRegs i).any fun r => s.race.regs.contains r

/-- Does the command use SYNGAIN? -/
def usesGain : Instr → Bool
  | .inv _ _ _ _ => true
  | .nop | .halt | .init | .seta _ _ | .adda _ _ | .jmp _ | .djnz _ _ | .setg _ | .windump _ | .comp _ _ _ | .expd _ _ _
  | .rfft _ _ | .irfft _ _ | .pqnt _ _ _ | .fwd _ _ _ | .pdeq _ _ _ => false

/-- The A registers with a value from raced bytes after a command; `imm` says that its immediate half is raced. -/
def racedRegs (imm : Bool) (regs : List Reg) : Instr → List Reg
  | .seta a _ => if imm then a :: regs else regs.filter fun r => decide (r ≠ a)
  | .adda a _ => if imm then a :: regs else regs
  | .nop | .halt | .init | .jmp _ | .djnz _ _ | .setg _ | .windump _ | .comp _ _ _ | .expd _ _ _ | .rfft _ _ | .irfft _ _
  | .pqnt _ _ _ | .fwd _ _ _ | .pdeq _ _ _ | .inv _ _ _ _ => regs

/-- Does SYNGAIN hold a value from raced bytes after a command? INIT gives it 8·N (R200). -/
def racedGain (imm gain : Bool) : Instr → Bool
  | .init => false
  | .setg _ => imm
  | .nop | .halt | .seta _ _ | .adda _ _ | .jmp _ | .djnz _ _ | .windump _ | .comp _ _ _ | .expd _ _ _ | .rfft _ _ | .irfft _ _
  | .pqnt _ _ _ | .fwd _ _ _ | .pdeq _ _ _ | .inv _ _ _ _ => gain

/-- The raced bytes after command i of a run ran in s (R98). Where a raced byte decided what runs, or reached the SYNGAIN of an INV, all
of the output counts as computed from it. -/
def State.racedAfter (s : State) (i : Instr) : List Span :=
  if s.steeredBy i || (usesGain i && s.race.gain) then addSpan (outputOperand i s).span s.race.raced
  else racedBy (isVectorCommand i) (flowsOf i s) s.race.raced

/-- The races after command i of a run ran in s (R98). -/
def State.raceAfter (s : State) (i : Instr) : RaceLog :=
  let imm := Span.meetsAny ⟨s.pc.toNat + 4, 4⟩ s.race.raced
  { s.race with
    raced := s.racedAfter i
    wrote := addSpan (outputOperand i s).span s.race.wrote
    regs := racedRegs imm s.race.regs i
    gain := racedGain imm s.race.gain i
    steered := s.steeredBy i }

/-! ### What the host reads -/

/-- The data of a read in which the bytes `free` are any value and the others are as they were. -/
def HostRead.data (r : HostRead) (free : Nat → Bool) : Word :=
  BitVec.ofNat 32 (leNat ((List.range r.span.len).map fun i =>
    if free (r.span.base + i) then Config.freeByte r.draw (r.span.base + i) else r.seen.extractLsb' (8 * i) 8))

/-- The data of a read while the run goes on: any value, since a byte of it may still be written. -/
def HostRead.pending (r : HostRead) : Word := r.data fun _ => true

/-- The data of a read once the commands of the run are known to have written `wrote`: any value for such a byte, and its value for
every other (R98). -/
def HostRead.settled (wrote : List Span) (r : HostRead) : Word := r.data fun a => wrote.any fun p => p.holds a

/-! ### The end of a run -/

/-- The end of a run: the raced bytes hold any value, what the host read is settled (R98), and the next run starts with no race. -/
def State.endRun (s : State) : State :=
  let data := s.race.reads.map (HostRead.settled s.race.wrote)
  { s with
    lmem := s.race.raced.foldl (redrawSpan s.draws) s.lmem
    race := noRaces
    rdata := if s.race.lastRead then data.headD s.rdata else s.rdata
    raceReads := data ++ s.raceReads
    draws := if s.race.raced = [] then s.draws else s.draws + 1 }

/-- What a command means for the races of its run: t is the machine after command i in s. A run that goes on records the command; one
that a HALT or a fault stopped ends. -/
def State.follow (s : State) (i : Instr) (t : State) : State :=
  if t.status.busy then { t with race := s.raceAfter i } else t.endRun

end Sys2Proof.Machine
end

