-- ==== Sys2Proof/Machine/HostPort.lean ====
section
/-! DEFINITION. The host port: the register map and LMEM as the host reads and writes them (spec/10_state.md R30 to R45,
spec/20_memory.md R84, R98), soft and hardware reset (spec/70_reset_and_hazards.md R320, R321). -/

namespace Sys2Proof.Machine

/-- ID (R31). -/
def idWord : Word := 0x41564201#32

/-- CTRL as read: IRQEN in bit 1, START and SRST read 0 (R32). -/
def State.ctrlWord (s : State) : Word := 0#30 ++ (BitVec.ofBool s.irqen ++ 0#1)

/-- Ai at offset 0x080 + 4·i (R30, R42). -/
def regAt (off : Nat) : Option Reg :=
  if 0x080 ≤ off ∧ off < 0x0A0 ∧ off % 4 = 0 then some (Fin.ofNat 8 ((off - 0x080) / 4)) else none

/-- A read of the register at an offset below LMEM_HBASE: an unmapped offset reads 0 (R30, R45). -/
def State.readRegister (s : State) (off : Nat) : Word :=
  match off with
  | 0x000 => idWord
  | 0x004 => s.ctrlWord
  | 0x008 => statusWord s.status
  | 0x00C => BitVec.ofNat 32 (causeCode s.errCause)
  | 0x010 => s.errPc
  | 0x014 => s.errAddr
  | 0x018 => s.errCmdL
  | 0x01C => s.errCmdH
  | 0x020 => s.pc
  | 0x024 => s.cfg
  | 0x028 => s.cparam0
  | 0x02C => s.cparam1
  | 0x030 => s.syngain
  | 0x034 => BitVec.ofNat 32 s.hw.lmemSize
  | 0x038 => s.acfg
  | 0x03C => s.acparam0
  | 0x040 => s.acparam1
  | _ =>
    match regAt off with
    | some i => s.x i
    | none => 0

/-- A write that is discarded, with WDROP set, while BUSY = 1 (R43). -/
def State.whileIdle (s : State) (write : State → State) : State :=
  if s.status.busy then { s with status := { s.status with wdrop := true } } else write s

/-- Every register of R320 at its reset value; W, R, LUT and the curve constants unspecified, of a new draw (R320, R321). -/
def State.resetRegisters (s : State) : State :=
  { s with
    irqen := false
    status := clearStatus
    errCause := .none
    errPc := 0
    errAddr := 0
    errCmdL := 0
    errCmdH := 0
    pc := 0
    cfg := State.reset.cfg
    cparam0 := State.reset.cparam0
    cparam1 := State.reset.cparam1
    syngain := State.reset.syngain
    acfg := 0
    acparam0 := 0
    acparam1 := 0
    regs := Vector.replicate 8 0
    w := Config.freeTable s.draws 0
    r := Config.freeTable s.draws 1
    lut := .unspecified s.draws
    consts := freeConsts s.draws
    draws := s.draws + 1 }

/-- Soft reset (R321): a run it stops ends between two steps; LMEM is preserved. -/
def State.softReset (s : State) : State := s.endRun.resetRegisters

/-- Hardware reset by the reset input (R320): as a soft reset, but LMEM is unspecified (R322). -/
def State.hardwareReset (s : State) : State := { s.softReset with lmem := [], lmemDraw := s.endRun.draws }

/-- A write to CTRL (R32): SRST alone if it is set; else IRQEN takes bit 1, and START is handled by R141. -/
def State.writeCtrl (s : State) (v : Word) : State :=
  if v.getLsbD 2 then s.softReset
  else if v.getLsbD 0 then State.start { s with irqen := v.getLsbD 1 }
  else { s with irqen := v.getLsbD 1 }

/-- A write to the register at an offset below LMEM_HBASE: RO registers and unmapped offsets ignore it (R30, R43, R45). -/
def State.writeRegister (s : State) (off : Nat) (v : Word) : State :=
  match off with
  | 0x004 => s.writeCtrl v
  | 0x008 => { s with status := clearWritten s.status v }
  | 0x020 => s.whileIdle fun t => t.setPc v
  | 0x024 => s.whileIdle fun t => { t with cfg := v &&& cfgMask }
  | 0x028 => s.whileIdle fun t => { t with cparam0 := v }
  | 0x02C => s.whileIdle fun t => { t with cparam1 := v }
  | 0x030 => s.whileIdle fun t => { t with syngain := v }
  | _ =>
    match regAt off with
    | some i => s.whileIdle fun t => t.setX i v
    | none => s

/-- A host read of n bytes of LMEM at address a; past LMEM_SIZE it reads 0. While BUSY = 1 the data stay open until the run's end says
which of the bytes a command of the run wrote (R84, R98, assumption 10). -/
def State.hostReadMemory (s : State) (a n : Nat) : State :=
  if a < s.hw.lmemSize then
    let seen := BitVec.ofNat 32 (s.memRead a n)
    if s.status.busy then
      let r : HostRead := { span := { base := a, len := n }, seen := seen, draw := s.draws }
      { s with
        rdata := r.pending
        race := { s.race with reads := r :: s.race.reads, lastRead := true }
        draws := s.draws + 1 }
    else { s with rdata := seen, race := { s.race with lastRead := false } }
  else { s with rdata := 0, race := { s.race with lastRead := false } }

/-- A host write of the n low bytes of v at LMEM address a; past LMEM_SIZE it is ignored. While BUSY = 1 the bytes become any value,
now and again at the run's end (R84, R98). -/
def State.hostWriteMemory (s : State) (a n : Nat) (v : Word) : State :=
  if a < s.hw.lmemSize then
    if s.status.busy then
      { s with
        lmem := redrawSpan s.draws s.lmem { base := a, len := n }
        race := { s.race with raced := { base := a, len := n } :: s.race.raced }
        draws := s.draws + 1 }
    else s.memWrite a n v.toNat
  else s

/-- A register access the model does not refuse: 32 bits, 4-byte aligned (R45). -/
def registerAccessOk (off width : Nat) : Bool := decide (width = 32) && decide (off % 4 = 0)

/-- An LMEM access the model does not refuse: 8, 16 or 32 bits, naturally aligned (R84). -/
def memoryAccessOk (off width : Nat) : Bool :=
  (decide (width = 8) || decide (width = 16) || decide (width = 32)) && decide (off % (width / 8) = 0)

/-- One host access (R30, R80, R84). -/
def hostAccess (a : HostAccess) (s : State) : Result :=
  match a with
  | .read off width =>
    if off.toNat < Config.lmemHBase then
      if registerAccessOk off.toNat width then
        .next { s with rdata := s.readRegister off.toNat, race := { s.race with lastRead := false } }
      else .refused (.hostRegisterAccess off width)
    else if memoryAccessOk off.toNat width then .next (s.hostReadMemory (off.toNat - Config.lmemHBase) (width / 8))
    else .refused (.hostMemoryAccess off width)
  | .write off width data =>
    if off.toNat < Config.lmemHBase then
      if registerAccessOk off.toNat width then .next (s.writeRegister off.toNat data)
      else .refused (.hostRegisterAccess off width)
    else if memoryAccessOk off.toNat width then .next (s.hostWriteMemory (off.toNat - Config.lmemHBase) (width / 8) data)
    else .refused (.hostMemoryAccess off width)

end Sys2Proof.Machine
end

