-- ==== Sys2Proof/Machine/Step.lean ====
section
/-! DEFINITION. One step of the machine: the next turn, the engine's (spec/40_control.md R140) or the outside's (R44). -/

namespace Sys2Proof.Machine

/-- EngineStep (R140): fetch, decode, execute one command; then what it means for the races of the run (R98). -/
def engineStep (s : State) : Host.Outcome State Fault Refusal :=
  match fetchDecode s with
  | .ok i =>
    match exec i s with
    | .next t => .next (s.follow i t)
    | stop => stop
  | .error t => .next t.endRun

/-- The engine's turn: a step only while BUSY = 1 (R140); an idle engine holds its state (R309). -/
def engineTurn (s : State) : Host.Outcome State Fault Refusal :=
  if s.status.busy then engineStep s else .next s

/-- One step: the first of the turns to come, and the engine's when none is left (assumption 1). -/
def step (s : State) : Host.Outcome State Fault Refusal :=
  match s.turns with
  | [] => engineTurn s
  | .engine :: ts => engineTurn { s with turns := ts }
  | .access a :: ts => hostAccess a { s with turns := ts }
  | .reset :: ts => .next (State.hardwareReset { s with turns := ts })

/-- s with the command word w at pc and the engine about to fetch it: the run is on and the turn is the engine's (assumption 2). -/
def State.withFetchWord (s : State) (nbits w : Nat) : State :=
  { s with
    lmem := placeWord s.lmem s.pc.toNat (w % 2 ^ nbits)
    status := { s.status with busy := true }
    turns := [] }

end Sys2Proof.Machine
end

