-- ==== Sys2Proof/Safety.lean ====
section
/-! DEFINITION. The terms in which claims about the machine are made: operands as spec/60_exceptions.md R280 lists them, what a
command may change, and the invariants of the machine. Nothing in the machine uses them. -/

namespace Sys2Proof.Machine

/-! ### Operands -/

/-- The operand passes its check: it is empty, or its base is aligned and its end, computed without wrap, is inside LMEM (R93). -/
def Operand.Ok (lmemSize : Nat) (o : Operand) : Prop :=
  o.len = 0 ∨ (o.base.toNat % o.align = 0 ∧ o.base.toNat + o.len ≤ lmemSize)

/-- A data command may run: CFGOK is set and every operand passes its check (R281). -/
def State.Ready (s : State) (i : Instr) : Prop := s.status.cfgok = true ∧ ∀ o ∈ operandTable i s, o.Ok s.hw.lmemSize

/-! ### What a data command leaves alone -/

/-- t is s after a data command with the output operand `out`, and nothing else changed: LMEM outside `out`, every register, every table
and every flag but NAN and SAT are as before; pc is 8 further. -/
structure DataFrame (out : Operand) (s t : State) : Prop where
  rest : t = { s with pc := s.pc + 8, lmem := t.lmem, status := { s.status with nan := t.status.nan, sat := t.status.sat } }
  bytes : ∀ a, out.span.holds a = false → t.byte a = s.byte a

/-- The next turn is the engine's, and `ts` are the turns after it. -/
def State.EngineTurn (s : State) (ts : List Turn) : Prop := (s.turns = [] ∧ ts = []) ∨ s.turns = .engine :: ts

/-! ### Reset -/

/-- Every register the host can read has the value R320 gives it, the engine is idle and IRQ is deasserted. -/
structure State.RegistersReset (s : State) : Prop where
  id : s.readRegister 0x000 = 0x41564201#32
  ctrl : s.readRegister 0x004 = 0
  status : s.readRegister 0x008 = 0
  errors : ∀ off ∈ [0x00C, 0x010, 0x014, 0x018, 0x01C], s.readRegister off = 0
  pc : s.readRegister 0x020 = 0
  cfg : s.readRegister 0x024 = 0x0000010B#32
  cparam0 : s.readRegister 0x028 = 0x43800000#32
  cparam1 : s.readRegister 0x02C = 0x3E800000#32
  syngain : s.readRegister 0x030 = 0x46800000#32
  lmemsz : s.readRegister 0x034 = BitVec.ofNat 32 s.hw.lmemSize
  active : ∀ off ∈ [0x038, 0x03C, 0x040], s.readRegister off = 0
  regs : ∀ i : Reg, s.readRegister (0x080 + 4 * i.val) = 0
  idle : s.status.busy = false ∧ s.irq = false

/-! ### Vector commands -/

/-- n codes from address a up. -/
def State.readCodes (s : State) (a : Word) (n : Nat) : List Code := (List.range n).map fun i => s.readU16 (element a 2 i)

/-- t is s after n values at src were quantized to codes at dst one after the other (R103): m i is the machine before element i, so a
later element reads what an earlier one wrote; each writes its code and nothing else, and NAN and SAT collect the quantizations. -/
def QuantizesEach (curve : F32 → F32) (src dst : Word) (n : Nat) (s t : State) : Prop :=
  ∃ m : Nat → State,
    m 0 = s ∧
    (∀ i < n,
      (m (i + 1)).readU16 (element dst 2 i) = (quantize (curve ((m i).readF32 (element src 4 i)))).code ∧
      ∀ a, Span.holds ⟨(element dst 2 i).toNat, 2⟩ a = false → (m (i + 1)).byte a = (m i).byte a) ∧
    (∀ a, t.byte a = (m n).byte a) ∧
    t.status.nan = (s.status.nan || (List.range n).any fun i => (quantize (curve ((m i).readF32 (element src 4 i)))).nan) ∧
    t.status.sat = (s.status.sat || (List.range n).any fun i => (quantize (curve ((m i).readF32 (element src 4 i)))).sat)

/-- t is s after n codes at src were expanded to values at dst one after the other (R103); a NaN is written as the canonical one. -/
def ExpandsEach (curve : Code → F32) (src dst : Word) (n : Nat) (s t : State) : Prop :=
  ∃ m : Nat → State,
    m 0 = s ∧
    (∀ i < n,
      (m (i + 1)).readF32 (element dst 4 i) = canon (curve ((m i).readU16 (element src 2 i))) ∧
      ∀ a, Span.holds ⟨(element dst 4 i).toNat, 4⟩ a = false → (m (i + 1)).byte a = (m i).byte a) ∧
    (∀ a, t.byte a = (m n).byte a) ∧ t.status = s.status

/-! ### INIT -/

/-- The parameters p0, p1 pass the validity test of method m, and k is `old` with the constants INIT derives from them (R163 to R165).
The whole numbers 1 to 64 are counted in units of 2^-149. -/
def DerivedConsts (num : Config.NumChoice) (m : Method) (p0 p1 : F32) (old k : CurveConsts) : Prop :=
  match m with
  | .mu =>
    isFinite p0 = true ∧ flt 0x3F800000#32 (fadd 0x3F800000#32 p0) = true ∧
      k = { old with kmb := fadd 0x3F800000#32 p0, kml := numLn num (fadd 0x3F800000#32 p0) }
  | .uv =>
    let uvnum := fsub (fmul p0 p1) 0x3F800000#32
    let uvden := fsub (fadd p0 p1) 0x40000000#32
    let gam := fdiv uvnum uvden
    let bet := fdiv 0x3F800000#32 (fsub 0x3F800000#32 gam)
    let alp := fdiv 0x3F800000#32 (fsub p0 gam)
    let uvd := fsub bet alp
    let uva := fmul gam uvd
    let uve := fadd 0x3F800000#32 (fmul gam alp)
    (isFinite p0 = true ∧ isFinite p1 = true ∧ feq uvden 0 = false ∧ feq uva 0 = false ∧
      ∀ v ∈ [gam, bet, alp, uvd, uva, uve], isFinite v = true) ∧
      k =
        { old with
          gam := gam
          bet := bet
          alp := alp
          uvd := uvd
          uva := uva
          uve := uve
          uv2a := fmul 0x40000000#32 (fneg uva)
          uv4a := fmul 0x40800000#32 (fneg uva) }
  | .sq => isFinite p0 = true ∧ ∃ n : Nat, 1 ≤ n ∧ n ≤ 64 ∧ units p0 = n * 2 ^ 149 ∧ k = { old with k := n }

/-! ### Races -/

/-- Byte a is on record as raced: the host wrote it in this run, or a command computed it from such a byte (R98). -/
def RaceLog.Raced (r : RaceLog) (a : Nat) : Prop := (r.raced.any fun p => p.holds a) = true

/-- Byte b is one of the `len` bytes from `off` past address a up. -/
def Among (a : Word) (off len b : Nat) : Prop := a.toNat + off ≤ b ∧ b < a.toNat + off + len

/-- Byte b is in the N/2 + 1 bins at a, and not in the imaginary part of bin 0 or N/2 (R85, R221, R222). -/
def InLiveBins (a : Word) (n b : Nat) : Prop :=
  Among a 0 (8 * (n / 2 + 1)) b ∧ ¬Among a 4 4 b ∧ ¬Among a (8 * (n / 2) + 4) 4 b

/-- Byte b is in the row at a, and not in the imaginary code of bin 0 or N/2 (R86, R222, R264). -/
def InLiveRow (a : Word) (n b : Nat) : Prop :=
  Among a 0 (6 * (n / 2 + 1)) b ∧ ¬Among a 4 2 b ∧ ¬Among a (6 * (n / 2) + 4) 2 b

/-- What a vector command does to the raced bytes: m j are those before element j, and the element's output is raced if its input is by
then (R98, R103). -/
def RacesEach (src dst : Word) (inSize outSize n : Nat) (r t : RaceLog) : Prop :=
  ∃ m : Nat → Nat → Prop,
    (∀ b, m 0 b ↔ r.Raced b) ∧
    (∀ j < n, ∀ b,
      m (j + 1) b ↔ m j b ∨ (Among dst (outSize * j) outSize b ∧ ∃ c, m j c ∧ Among src (inSize * j) inSize c)) ∧
    ∀ b, t.Raced b ↔ m n b

/-- What any other command does to them: its output bytes `out` are raced if a byte it computes them from, in `ins`, is. -/
def RacesFrom (ins out : Nat → Prop) (r t : RaceLog) : Prop := ∀ b, t.Raced b ↔ r.Raced b ∨ (out b ∧ ∃ c, r.Raced c ∧ ins c)

/-- Which bytes a data command that runs computes from which (R98, R170, R171, R225, R226, R240, R242, R261, R263): its output is raced
as far as its input is. INV's previous row reaches the first half of the output, its next row the second. -/
def RacesOf (i : Instr) (s : State) (r t : RaceLog) : Prop :=
  let n := s.aN
  let h := n / 2
  let m := n / 2 + 1
  match i with
  | .nop | .halt | .init | .seta _ _ | .adda _ _ | .jmp _ | .djnz _ _ | .setg _ | .windump _ => ∀ b, t.Raced b ↔ r.Raced b
  | .comp a b c | .pqnt a b c => RacesEach (s.x a) (s.x b) 4 2 (s.x c).toNat r t
  | .expd a b c | .pdeq a b c => RacesEach (s.x a) (s.x b) 2 4 (s.x c).toNat r t
  | .rfft a b => RacesFrom (Among (s.x a) 0 (4 * n)) (InLiveBins (s.x b) n) r t
  | .irfft a b => RacesFrom (InLiveBins (s.x a) n) (Among (s.x b) 0 (4 * n)) r t
  | .fwd a b c => RacesFrom (Among (s.x a) 0 (4 * min (s.x b).toNat n)) (Among (s.x c) 0 (6 * m)) r t
  | .inv a b pv nv =>
    let c := s.x a
    ∀ y, t.Raced y ↔
      r.Raced y ∨
      (Among (s.x b) 0 (4 * h) y ∧
        ∃ x, r.Raced x ∧ (InLiveRow c n x ∨ (pv = true ∧ InLiveRow (c - BitVec.ofNat 32 (6 * m)) n x))) ∨
      (Among (s.x b) (4 * h) (4 * h) y ∧
        ∃ x, r.Raced x ∧ (InLiveRow c n x ∨ (nv = true ∧ InLiveRow (c + BitVec.ofNat 32 (6 * m)) n x)))

/-- No raced byte has reached the word at pc, an A register or SYNGAIN, or steered the run. -/
def State.CleanCommand (s : State) : Prop :=
  (∀ a, Among s.pc 0 8 a → ¬s.race.Raced a) ∧ s.race.regs = [] ∧ s.race.gain = false ∧ s.race.steered = false

/-! ### Invariants -/

/-- The parameters are legal (R8), LMEM has its canonical form (assumption 3), and everything it lists and every race of the run
(assumption 9) is inside it (R80). -/
structure State.MemoryOk (s : State) : Prop where
  params : Config.legalParams s.hw = true
  canonical : Memory.wf s.lmem = true
  inside : Memory.below s.hw.lmemSize s.lmem = true
  raced : ∀ p ∈ s.race.raced, p.base + p.len ≤ s.hw.lmemSize

/-- With CFGOK set, the active configuration is a legal one, and the tables and constants are those INIT derives from it (R40, R46
to R49, R200). -/
def State.TablesLatched (s : State) : Prop :=
  s.status.cfgok = true →
    ∃ m win,
      methodOf s.acfg = some m ∧ windowOf s.acfg = some win ∧
      Config.minLog2N ≤ blkLog2 s.acfg ∧ blkLog2 s.acfg ≤ s.hw.maxLog2N ∧
      s.w = windowTable s.hw.num win s.aN ∧ s.r = normTable s.w s.aN ∧
      curveConsts s.hw.num m s.acparam0 s.acparam1 s.consts = some s.consts ∧
      buildLut m s.consts s.acparam0 s.lut = s.lut

/-- At most one of BUSY, DONE and ERR is set, ERRCAUSE names a cause while ERR is set (R23, R141, R290, R333), and an idle engine has no
race on record, which is the model's account of R98 (assumption 9). -/
structure State.RunFlags (s : State) : Prop where
  busy : s.status.busy = true → s.status.done = false ∧ s.status.err = false
  ended : s.status.done = true → s.status.err = false
  cause : s.status.err = true → s.errCause ≠ .none
  idle : s.status.busy = false → s.race = noRaces

/-- The reserved bits of CFG and ACFG read 0 (R36). -/
def State.CfgReserved (s : State) : Prop := s.cfg &&& ~~~cfgMask = 0 ∧ s.acfg &&& ~~~cfgMask = 0

end Sys2Proof.Machine
end

