-- ==== Sys2Proof/WellFormed.lean ====
section
/-! DEFINITION. The assembler's source commands with unchecked operands, and the checks an operand must pass
(spec/30_encoding.md R118, R119). The text of a line, its labels and comments are not modelled: a label stands as its address
(assumption 22). -/

namespace Sys2Proof

/-- One source line of R118 or R119: registers and flags as numbers, immediates as integers, nothing checked yet. -/
inductive Source where
  | nop
  | halt
  | init
  | seta (d : Nat) (imm : Int)
  | adda (d : Nat) (imm : Int)
  | jmp (target : Int)
  | djnz (c : Nat) (target : Int)
  /-- SETG with a bit pattern. -/
  | setgBits (bits : Int)
  /-- SETG with a decimal p/q, negative if neg, rounded by RNE. -/
  | setgDecimal (neg : Bool) (p q : Nat)
  | windump (d : Nat)
  | comp (s d n : Nat)
  | expd (s d n : Nat)
  | rfft (s d : Nat)
  | irfft (s d : Nat)
  | pqnt (s d n : Nat)
  | fwd (s l d : Nat)
  | pdeq (s d n : Nat)
  | inv (c d pv nv : Nat)
  /-- LI aD, imm (R119). -/
  | li (d : Nat) (imm : Int)
  /-- CLR aD (R119). -/
  | clr (d : Nat)
  /-- SUBA aD, k (R119). -/
  | suba (d : Nat) (k : Int)
  /-- LOOP aC, label (R119). -/
  | loop (c : Nat) (target : Int)
  /-- STOP (R119). -/
  | stop
  /-- ROWSTEP aD (R119). -/
  | rowstep (d : Nat)
  /-- FRAMESTEP aD (R119). -/
  | framestep (d : Nat)
  /-- INV2STEP aD (R119). -/
  | inv2step (d : Nat)
deriving DecidableEq, Repr

/-- A register operand is a0 to a7 (R118). -/
def regOk (n : Nat) : Bool := decide (n < 8)

/-- A signed or unsigned 32-bit immediate, in [-2^31, 2^32 - 1] (R118, ADDA). -/
def simmOk (v : Int) : Bool := decide (-(2 ^ 31) ≤ v) && decide (v < 2 ^ 32)

/-- A 32-bit address or bit pattern, in [0, 2^32 - 1] (R118). -/
def wordOk (v : Int) : Bool := decide (0 ≤ v) && decide (v < 2 ^ 32)

/-- A flag operand is 0 or 1 (R118, INV). -/
def flagOk (n : Nat) : Bool := decide (n < 2)

/-- The operand checks of R118 and R119. SETA takes its immediate mod 2^32, so any integer will do. -/
def Source.wellFormed : Source → Bool
  | .nop | .halt | .init | .stop => true
  | .seta d _ | .li d _ => regOk d
  | .adda d v => regOk d && simmOk v
  | .suba d k => regOk d && simmOk (-k)
  | .jmp t => wordOk t
  | .djnz c t | .loop c t => regOk c && wordOk t
  | .setgBits b => wordOk b
  | .setgDecimal _ _ q => decide (0 < q)
  | .windump d | .clr d | .rowstep d | .framestep d | .inv2step d => regOk d
  | .comp s d n | .expd s d n | .pqnt s d n | .pdeq s d n => regOk s && regOk d && regOk n
  | .fwd s l d => regOk s && regOk l && regOk d
  | .rfft s d | .irfft s d => regOk s && regOk d
  | .inv c d pv nv => regOk c && regOk d && flagOk pv && flagOk nv

/-- The command a line stands for, once its operands are checked; a pseudo-instruction is its expansion (R119), ROWSTEP,
FRAMESTEP and INV2STEP at block size n. -/
def Source.command (n : Nat) : Source → Instr
  | .nop => .nop
  | .halt | .stop => .halt
  | .init => .init
  | .seta d v | .li d v => .seta (Fin.ofNat 8 d) (BitVec.ofInt 32 v)
  | .clr d => .seta (Fin.ofNat 8 d) 0
  | .adda d v => .adda (Fin.ofNat 8 d) (BitVec.ofInt 32 v)
  | .suba d k => .adda (Fin.ofNat 8 d) (BitVec.ofInt 32 (-k))
  | .rowstep d => .adda (Fin.ofNat 8 d) (BitVec.ofNat 32 (6 * (n / 2 + 1)))
  | .framestep d => .adda (Fin.ofNat 8 d) (BitVec.ofNat 32 (2 * n))
  | .inv2step d => .adda (Fin.ofNat 8 d) (BitVec.ofNat 32 (2 * (6 * (n / 2 + 1))))
  | .jmp t => .jmp (BitVec.ofInt 32 t)
  | .djnz c t | .loop c t => .djnz (Fin.ofNat 8 c) (BitVec.ofInt 32 t)
  | .setgBits b => .setg (BitVec.ofInt 32 b)
  | .setgDecimal neg p q => .setg (Machine.rne neg p q)
  | .windump d => .windump (Fin.ofNat 8 d)
  | .comp s d c => .comp (Fin.ofNat 8 s) (Fin.ofNat 8 d) (Fin.ofNat 8 c)
  | .expd s d c => .expd (Fin.ofNat 8 s) (Fin.ofNat 8 d) (Fin.ofNat 8 c)
  | .rfft s d => .rfft (Fin.ofNat 8 s) (Fin.ofNat 8 d)
  | .irfft s d => .irfft (Fin.ofNat 8 s) (Fin.ofNat 8 d)
  | .pqnt s d c => .pqnt (Fin.ofNat 8 s) (Fin.ofNat 8 d) (Fin.ofNat 8 c)
  | .fwd s l d => .fwd (Fin.ofNat 8 s) (Fin.ofNat 8 l) (Fin.ofNat 8 d)
  | .pdeq s d c => .pdeq (Fin.ofNat 8 s) (Fin.ofNat 8 d) (Fin.ofNat 8 c)
  | .inv c d pv nv => .inv (Fin.ofNat 8 c) (Fin.ofNat 8 d) (decide (pv = 1)) (decide (nv = 1))

/-- Assembling a line: none where a check refuses it (R118). -/
def Source.assemble (n : Nat) (l : Source) : Option Instr := if l.wellFormed then some (l.command n) else none

/-- The line R118 writes a command as. -/
def Instr.source : Instr → Source
  | .nop => .nop
  | .halt => .halt
  | .init => .init
  | .seta a v => .seta a v.toNat
  | .adda a v => .adda a v.toNat
  | .jmp v => .jmp v.toNat
  | .djnz a v => .djnz a v.toNat
  | .setg v => .setgBits v.toNat
  | .windump a => .windump a
  | .comp a b c => .comp a b c
  | .expd a b c => .expd a b c
  | .rfft a b => .rfft a b
  | .irfft a b => .irfft a b
  | .pqnt a b c => .pqnt a b c
  | .fwd a b c => .fwd a b c
  | .pdeq a b c => .pdeq a b c
  | .inv a b pv nv => .inv a b pv.toNat nv.toNat

/-- A command is well-formed if its line passes every check. The types of `Instr` admit no other command. -/
def Instr.wellFormed (i : Instr) : Bool := i.source.wellFormed

end Sys2Proof
end

