-- ==== Sys2Proof/Certificates/Slice0/Obligations.lean ====
section
/-! DEFINITION. The statements for the provers, from the numbered rules of spec/. A docstring says which clause is the model's choice
and not the spec's, with its assumption. -/

open Sys2Proof Sys2Proof.Machine

/-! ### Encoding -/

/-- The worked encodings of R120: each source line assembles to a command whose word and bytes are those of the table, and the word
decodes to the command. -/
def Obligations.WorkedEncodingsAgree : Prop :=
  ∀ row ∈
    ([(.nop, 0x0000000000000000, [0x00, 0x00, 0x00, 0x00, 0x00, 0x00, 0x00, 0x00]),
      (.halt, 0x0000000000000001, [0x01, 0x00, 0x00, 0x00, 0x00, 0x00, 0x00, 0x00]),
      (.init, 0x0000000000000002, [0x02, 0x00, 0x00, 0x00, 0x00, 0x00, 0x00, 0x00]),
      (.seta 3 0x1000, 0x0000100000000304, [0x04, 0x03, 0x00, 0x00, 0x00, 0x10, 0x00, 0x00]),
      (.adda 1 (-8), 0xFFFFFFF800000105, [0x05, 0x01, 0x00, 0x00, 0xF8, 0xFF, 0xFF, 0xFF]),
      (.djnz 7 0x40, 0x0000004000000707, [0x07, 0x07, 0x00, 0x00, 0x40, 0x00, 0x00, 0x00]),
      (.setgDecimal false 1 2, 0x3F00000000000008, [0x08, 0x00, 0x00, 0x00, 0x00, 0x00, 0x00, 0x3F]),
      (.fwd 0 1 2, 0x0000000000008816, [0x16, 0x88, 0x00, 0x00, 0x00, 0x00, 0x00, 0x00]),
      (.inv 2 3 1 1, 0x0000000000061A18, [0x18, 0x1A, 0x06, 0x00, 0x00, 0x00, 0x00, 0x00]),
      (.comp 4 5 6, 0x000000000001AC11, [0x11, 0xAC, 0x01, 0x00, 0x00, 0x00, 0x00, 0x00])] :
      List (Source × Command × List Byte)),
    ∃ i, row.1.assemble 0 = some i ∧ encodeWord i = row.2.1 ∧ encode i = row.2.2 ∧ decodeWord row.2.1 = .ok i

/-- Decode and encode agree: the bytes of any command, whatever follows them, decode to that command (R110, R114, R115, R117). -/
def Obligations.DecodeEncode : Prop := ∀ (i : Instr) (rest : List Byte), decode (encode i ++ rest) = .ok (i, rest)

/-- The other direction: a word that decodes is the word of what it decodes to, so no two words decode alike and decoding drops no
bit (R111, R115). -/
def Obligations.AcceptedWordReencodes : Prop := ∀ (w : Command) (i : Instr), decodeWord w = .ok i → encodeWord i = w

/-- Decoding fails with ILLEGAL_OP exactly for the unassigned opcodes of R116, and with RESERVED_BITS exactly for an assigned opcode with
a reserved-zero bit of its format set (R111, R114, R115). -/
def Obligations.DecodeErrorsExactly : Prop :=
  ∀ w : Command,
    let op := (w.extractLsb' 0 8).toNat
    let illegal := op = 0x03 ∨ (0x09 ≤ op ∧ op ≤ 0x0F) ∨ 0x19 ≤ op
    let reserved :=
      (op ≤ 0x02 ∧ w.extractLsb' 8 56 ≠ 0) ∨
      ((op = 0x04 ∨ op = 0x05 ∨ op = 0x07) ∧ w.extractLsb' 11 21 ≠ 0) ∨
      ((op = 0x06 ∨ op = 0x08) ∧ w.extractLsb' 8 24 ≠ 0) ∨
      (op = 0x10 ∧ w.extractLsb' 11 53 ≠ 0) ∨
      ((op = 0x11 ∨ op = 0x12 ∨ op = 0x15 ∨ op = 0x16 ∨ op = 0x17) ∧ w.extractLsb' 17 47 ≠ 0) ∨
      ((op = 0x13 ∨ op = 0x14) ∧ w.extractLsb' 14 50 ≠ 0) ∨
      (op = 0x18 ∧ (w.extractLsb' 14 3 ≠ 0 ∨ w.extractLsb' 19 13 ≠ 0 ∨ w.extractLsb' 32 32 ≠ 0))
    (decodeWord w = .error .illegalOp ↔ illegal) ∧
    (decodeWord w = .error .reservedBits ↔ reserved) ∧
    (¬illegal → ¬reserved → ∃ i, decodeWord w = .ok i)

/-- The encoder's formula of R110 as a sum over disjoint fields, and the byte order: byte j of a command is bits 8j+7 to 8j. -/
def Obligations.EncoderFormulaHolds : Prop :=
  ∀ i : Instr,
    (encodeWord i).toNat =
      (opcodeOf i).toNat + (operandFields i).ra.val * 2 ^ 8 + (operandFields i).rb.val * 2 ^ 11 +
        (operandFields i).rc.val * 2 ^ 14 + (operandFields i).pv.toNat * 2 ^ 17 + (operandFields i).nv.toNat * 2 ^ 18 +
        (operandFields i).imm.toNat * 2 ^ 32 ∧
    (encode i).length = 8 ∧ ∀ j < 8, (encode i)[j]? = some ((encodeWord i).extractLsb' (8 * j) 8)

/-! ### The step -/

/-- A step runs the decoded command: on the engine's turn, busy, with pc aligned and inside LMEM and the bytes at pc decoding to i, the
step is exec of i (R140), and then what i means for the races of the run, which is the model's account of R98 (assumption 9): a run that
goes on changes only its record of races, and only what it has written where nothing is raced; a run that i ended, ends, which changes
nothing where no race is on record. Idle, the engine's turn changes nothing but the list of turns (R309). The turns are the model's
(assumption 1). -/
def Obligations.StepRunsDecoded : Prop :=
  ∀ (s : State) (ts : List Turn), s.EngineTurn ts →
    let u := { s with turns := ts }
    (s.status.busy = true → s.pc.toNat % 8 = 0 → s.pc.toNat + 8 ≤ s.hw.lmemSize →
      ∀ i rest, decode (s.bytesAt s.pc.toNat 8) = .ok (i, rest) →
        ∃ t, exec i u = .next t ∧ step s = .next (u.follow i t) ∧
          (t.status.busy = true →
            u.follow i t = { t with race := u.raceAfter i } ∧
            (s.race.raced = [] → s.race.regs = [] → s.race.gain = false → s.race.steered = false →
              u.raceAfter i = { s.race with wrote := (u.raceAfter i).wrote })) ∧
          (t.status.busy = false → u.follow i t = t.endRun ∧ (s.race = noRaces → u.follow i t = t))) ∧
    (s.status.busy = false → step s = .next u)

/-- The fetch and decode faults: FETCH_ALIGN before FETCH_RANGE, each with ERRADDR = pc and no command word; then ILLEGAL_OP or
RESERVED_BITS, with ERRADDR = 0 and the fetched word (R88, R115, R140, R280). The fault also ends the run's races, which is the model's
account of R98 (assumption 9). -/
def Obligations.FetchFaultsInOrder : Prop :=
  ∀ (s : State) (ts : List Turn), s.EngineTurn ts → s.status.busy = true →
    let u := { s with turns := ts }
    (s.pc.toNat % 8 ≠ 0 → step s = .next (u.raise .fetchAlign s.pc 0).endRun) ∧
    (s.pc.toNat % 8 = 0 → s.hw.lmemSize < s.pc.toNat + 8 → step s = .next (u.raise .fetchRange s.pc 0).endRun) ∧
    (s.pc.toNat % 8 = 0 → s.pc.toNat + 8 ≤ s.hw.lmemSize →
      (decode (s.bytesAt s.pc.toNat 8) = .error .illegalOp → step s = .next (u.raise .illegalOp 0 s.fetchWord).endRun) ∧
      (decode (s.bytesAt s.pc.toNat 8) = .error .reservedBits →
        step s = .next (u.raise .reservedBits 0 s.fetchWord).endRun))

/-- Faults are precise (R290, R291): an engine step that ends with ERR set, from a busy state without it, leaves exactly the state before
it, but for the fault entry: BUSY 0, ERR 1, the cause, ERRPC = pc (not advanced), ERRADDR as R280 says, ERRCMDL and ERRCMDH the word at
pc (0 for the fetch causes), and CFGOK cleared for the four CFG causes. The fault also ends the run's races, which is the model's account
of R98 (assumptions 9, 10, 19): every byte that is not raced is untouched, and without a race and a host read in the run nothing else
changes. That ERRCMDL and ERRCMDH are the fetched word for every cause is DEDUCED for a command that was already decoded
(assumption 16). -/
def Obligations.PreciseFaults : Prop :=
  ∀ s t : State, s.status.busy = true → s.status.err = false → engineStep s = .next t → t.status.err = true →
    let fetch := t.errCause = .fetchAlign ∨ t.errCause = .fetchRange
    let config := t.errCause = .cfgBlocksize ∨ t.errCause = .cfgMethod ∨ t.errCause = .cfgWindow ∨ t.errCause = .cfgParam
    let operand := t.errCause = .memAlign ∨ t.errCause = .memRange
    t.errCause ≠ .none ∧
    t =
      { s with
        status := { s.status with busy := false, err := true, cfgok := t.status.cfgok }
        errCause := t.errCause
        errPc := s.pc
        errAddr := t.errAddr
        errCmdL := t.errCmdL
        errCmdH := t.errCmdH
        lmem := t.lmem
        race := noRaces
        rdata := t.rdata
        raceReads := t.raceReads
        draws := t.draws } ∧
    (config → t.status.cfgok = false) ∧ (¬config → t.status.cfgok = s.status.cfgok) ∧
    (fetch → t.errAddr = s.pc ∧ t.errCmdL = 0 ∧ t.errCmdH = 0) ∧
    (¬fetch → t.errCmdL = s.fetchWord.extractLsb' 0 32 ∧ t.errCmdH = s.fetchWord.extractLsb' 32 32) ∧
    (¬fetch → ¬operand → t.errAddr = 0) ∧
    (operand → ∃ i rest, decode (s.bytesAt s.pc.toNat 8) = .ok (i, rest) ∧ ∃ o ∈ operandTable i s, t.errAddr = o.base) ∧
    (∀ a, ¬s.race.Raced a → t.byte a = s.byte a) ∧ (s.race.raced = [] → t.lmem = s.lmem ∧ t.draws = s.draws) ∧
    (s.race.reads = [] → t.rdata = s.rdata ∧ t.raceReads = s.raceReads)

/-- Every data command and no other needs CFGOK: without it a data command raises NOT_CONFIGURED, before any operand is looked at, and
no other command ever raises it (R114, R280, R281). That ERRCMDL and ERRCMDH are the command's word is DEDUCED (assumption 16). -/
def Obligations.NotConfiguredComesFirst : Prop :=
  ∀ (i : Instr) (s : State),
    (isDataCommand i = true → s.status.cfgok = false → exec i s = .next (s.raise .notConfigured 0 (encodeWord i))) ∧
    (isDataCommand i = false → s.errCause ≠ .notConfigured → ∀ t, exec i s = .next t → t.errCause ≠ .notConfigured)

/-- The operand checks of a data command (R93, R280, R281), before it changes anything: the first operand of the table that fails is
reported with its base address, MEM_ALIGN before MEM_RANGE, the end without wrap, by the fault entry of R290; an empty operand passes;
where all pass, no cause is raised. That ERRCMDL and ERRCMDH are the command's word is DEDUCED (assumption 16). -/
def Obligations.OperandFaultsInOrder : Prop :=
  ∀ (i : Instr) (s : State), s.status.cfgok = true →
    (∀ before o after, operandTable i s = before ++ o :: after → (∀ p ∈ before, p.Ok s.hw.lmemSize) → o.len ≠ 0 →
      (o.base.toNat % o.align ≠ 0 → exec i s = .next (s.raise .memAlign o.base (encodeWord i))) ∧
      (o.base.toNat % o.align = 0 → s.hw.lmemSize < o.base.toNat + o.len →
        exec i s = .next (s.raise .memRange o.base (encodeWord i)))) ∧
    (isDataCommand i = true →
      (∀ o ∈ operandTable i s, o.len = 0 ∨ (o.base.toNat % o.align = 0 ∧ o.base.toNat + o.len ≤ s.hw.lmemSize)) →
        ∃ t, exec i s = .next t ∧ t.errCause = s.errCause ∧ t.status.err = s.status.err ∧ t.status.busy = s.status.busy)

/-- No command stops the machine: each has a next state in every state, faults and numeric events included (R282, R290); only a host access
can be refused. -/
def Obligations.EveryCommandAnswers : Prop :=
  (∀ (i : Instr) (s : State), ∃ t, exec i s = .next t) ∧
  ∀ s : State, (∃ t, step s = .next t) ∨ ∃ a ts, s.turns = .access a :: ts

/-- Every data command completes when CFGOK is set and its operands pass their checks: pc + 8, and nothing changes but the bytes of
its output operand and, for COMP, PQNT and FWD alone, NAN and SAT (R34, R140, R281). -/
def Obligations.DataCommandsComplete : Prop :=
  ∀ (i : Instr) (s : State), Config.legalParams s.hw = true → isDataCommand i = true → s.Ready i →
    ∃ t, exec i s = .next t ∧ DataFrame (outputOperand i s) s t ∧
      ((∀ a b c, i ≠ .comp a b c ∧ i ≠ .pqnt a b c ∧ i ≠ .fwd a b c) → t.status = s.status)

/-! ### Control commands -/

/-- NOP (R142): pc + 8 and no other change; its word is 0, and any other word with its opcode is RESERVED_BITS. -/
def Obligations.NopAdvances : Prop :=
  (∀ s : State, exec .nop s = .next { s with pc := s.pc + 8 }) ∧
  encodeWord .nop = 0 ∧ decodeWord 0 = .ok .nop ∧
  ∀ w : Command, w.extractLsb' 0 8 = 0 → w.extractLsb' 8 56 ≠ 0 → decodeWord w = .error .reservedBits

/-- HALT (R143): pc + 8, BUSY 0, DONE 1 and no other change; IRQ with IRQEN, and a new START goes on behind it. (What the end of the run
draws, the step does after it: assumption 9.) -/
def Obligations.HaltEndsRun : Prop :=
  encodeWord .halt = 1 ∧
  ∀ s : State, ∃ t, exec .halt s = .next t ∧
    t = { s with pc := s.pc + 8, status := { s.status with busy := false, done := true } } ∧
    t.irq = s.irqen ∧ t.start.pc = s.pc + 8 ∧ t.start.status.busy = true

/-- SETA (R144): any 32-bit value is written to the register, and nothing else but pc changes. -/
def Obligations.SetaLoads : Prop :=
  ∀ (ra : Reg) (imm : Word) (s : State),
    exec (.seta ra imm) s = .next { s with regs := s.regs.set ra imm, pc := s.pc + 8 } ∧
    (encodeWord (.seta ra imm)).toNat = 0x04 + ra.val * 2 ^ 8 + imm.toNat * 2 ^ 32

/-- ADDA (R145): the sum mod 2^32, the same for a signed and an unsigned reading of the immediate, and nothing else but pc changes. -/
def Obligations.AddaAdds : Prop :=
  ∀ (ra : Reg) (imm : Word) (s : State),
    (∃ v : Word,
      exec (.adda ra imm) s = .next { s with regs := s.regs.set ra v, pc := s.pc + 8 } ∧
      v.toNat = ((s.x ra).toNat + imm.toNat) % 2 ^ 32 ∧ v = BitVec.ofInt 32 ((s.x ra).toNat + imm.toInt)) ∧
    (encodeWord (.adda ra imm)).toNat = 0x05 + ra.val * 2 ^ 8 + imm.toNat * 2 ^ 32

/-- JMP (R146): pc is the target, unchecked; the next step faults where the target is misaligned or outside LMEM, with ERRPC and ERRADDR
the target. -/
def Obligations.JmpSetsPc : Prop :=
  ∀ (imm : Word) (s : State),
    exec (.jmp imm) s = .next { s with pc := imm } ∧
    (encodeWord (.jmp imm)).toNat = 0x06 + imm.toNat * 2 ^ 32 ∧
    (imm.toNat % 8 ≠ 0 →
      ∃ t, engineStep { s with pc := imm } = .next t ∧ t.errCause = .fetchAlign ∧ t.errPc = imm ∧ t.errAddr = imm) ∧
    (imm.toNat % 8 = 0 → s.hw.lmemSize < imm.toNat + 8 →
      ∃ t, engineStep { s with pc := imm } = .next t ∧ t.errCause = .fetchRange ∧ t.errPc = imm ∧ t.errAddr = imm)

/-- DJNZ (R147): 1 gives 0 and falls through, every other value goes down by 1 mod 2^32 and branches; nothing but the register and pc
changes. -/
def Obligations.DjnzCountsDown : Prop :=
  ∀ (ra : Reg) (imm : Word) (s : State),
    ((s.x ra).toNat = 1 → exec (.djnz ra imm) s = .next { s with regs := s.regs.set ra 0, pc := s.pc + 8 }) ∧
    ((s.x ra).toNat = 0 → exec (.djnz ra imm) s = .next { s with regs := s.regs.set ra 0xFFFFFFFF#32, pc := imm }) ∧
    (1 < (s.x ra).toNat →
      exec (.djnz ra imm) s =
        .next { s with regs := s.regs.set ra (BitVec.ofNat 32 ((s.x ra).toNat - 1)), pc := imm }) ∧
    (encodeWord (.djnz ra imm)).toNat = 0x07 + ra.val * 2 ^ 8 + imm.toNat * 2 ^ 32

/-- SETG (R148): any bit pattern is stored unchanged in SYNGAIN, CFGOK or not, and nothing else but pc changes. -/
def Obligations.SetgStoresGain : Prop :=
  ∀ (imm : Word) (s : State),
    exec (.setg imm) s = .next { s with syngain := imm, pc := s.pc + 8 } ∧
    (encodeWord (.setg imm)).toNat = 0x08 + imm.toNat * 2 ^ 32

/-! ### INIT and the tables -/

/-- A successful INIT (R200): where the block size, METHOD and WIN are legal and the parameters pass the validity test of R163, R164 or R165,
the constants are those the rule computes, the configuration is latched, the tables are built, SYNGAIN is exactly 8·N, CFGOK is
set, pc + 8, and nothing else changes. That the constants of the other methods stay is the model's choice (assumption 27). -/
def Obligations.InitConfigures : Prop :=
  ∀ (s : State) m win k, Config.legalParams s.hw = true → 2 ≤ blkLog2 s.cfg → blkLog2 s.cfg ≤ s.hw.maxLog2N →
    methodOf s.cfg = some m → windowOf s.cfg = some win →
    DerivedConsts s.hw.num m s.cparam0 s.cparam1 s.consts k →
    ∃ gain : F32, units gain = 8 * 2 ^ blkLog2 s.cfg * 2 ^ 149 ∧ isFinite gain = true ∧
      exec .init s =
        .next
          { s with
            acfg := s.cfg
            acparam0 := s.cparam0
            acparam1 := s.cparam1
            consts := k
            w := windowTable s.hw.num win (2 ^ blkLog2 s.cfg)
            r := normTable (windowTable s.hw.num win (2 ^ blkLog2 s.cfg)) (2 ^ blkLog2 s.cfg)
            lut :=
              match m with
              | .mu => .mu k.kmb s.cparam0
              | .uv => .uv k.uvd k.uve k.alp k.uv4a k.uv2a
              | .sq => s.lut
            syngain := gain
            status := { s.status with cfgok := true }
            pc := s.pc + 8 }

/-- A failed INIT (R201): CFGOK and BUSY are cleared, ERR is set with the cause, address 0 and INIT's word, and everything else is kept: the
configuration, active or not, the tables, the constants, SYNGAIN, pc, every Ai, IRQEN, LMEM and the other flags. The causes are found
in the order of R200, the last of them where the validity test of the method (R163 to R165) fails. -/
def Obligations.InitFails : Prop :=
  ∀ s : State,
    (∀ c, s.initFail c =
      { s with
        status := { s.status with busy := false, err := true, cfgok := false }
        errCause := c
        errPc := s.pc
        errAddr := 0
        errCmdL := 2
        errCmdH := 0 }) ∧
    let sized := 2 ≤ blkLog2 s.cfg ∧ blkLog2 s.cfg ≤ s.hw.maxLog2N
    (¬sized → exec .init s = .next (s.initFail .cfgBlocksize)) ∧
    (sized → methodBits s.cfg = 3 → exec .init s = .next (s.initFail .cfgMethod)) ∧
    (sized → methodBits s.cfg ≠ 3 → 6 ≤ (windowBits s.cfg).toNat → exec .init s = .next (s.initFail .cfgWindow)) ∧
    (sized → (windowBits s.cfg).toNat < 6 →
      ∀ m, methodOf s.cfg = some m → (¬∃ k, DerivedConsts s.hw.num m s.cparam0 s.cparam1 s.consts k) →
        exec .init s = .next (s.initFail .cfgParam))

/-- The window and normalization curves (R190, R191): for N = 2^L, 2 ≤ L, W has N entries, entry i the curve's value at x = i/(N-1), and R
has N entries, entry i the reciprocal of W[i]² + W[j]² with j = (i + N/2) mod N. -/
def Obligations.TablesFollowCurves : Prop :=
  ∀ (num : Config.NumChoice) (win : Window) (l : Nat), 2 ≤ l →
    let n := 2 ^ l
    let w := windowTable num win n
    let r := normTable w n
    w.length = n ∧ r.length = n ∧
    ∀ i < n,
      let x := fdiv (u2f i) (u2f ((n : Int) - 1))
      let cos2 (a0 a1 : F32) := fsub a0 (fmul a1 (numCos2pi num 1 x))
      let cos3 (a0 a1 a2 : F32) := fadd (cos2 a0 a1) (fmul a2 (numCos2pi num 2 x))
      w[i]? =
        some
          (match win with
          | .rectangular => 0x3F800000#32
          | .triangular => fsub 0x3F800000#32 (fabs (fsub (fmul 0x40000000#32 x) 0x3F800000#32))
          | .hann => cos2 0x3F000000#32 0x3F000000#32
          | .hamming => cos2 0x3F0A3D71#32 0x3EEB851F#32
          | .blackman => cos3 0x3ED70A3D#32 0x3F000000#32 0x3DA3D70A#32
          | .blackmanHarris =>
            fsub (cos3 0x3EB7AE14#32 0x3EFA0126#32 0x3E10ABB4#32) (fmul 0x3C3F5D79#32 (numCos2pi num 3 x))) ∧
      ∃ wi wj, w[i]? = some wi ∧ w[(i + n / 2) % n]? = some wj ∧
        r[i]? = some (fdiv 0x3F800000#32 (fadd (fmul wi wi) (fmul wj wj))) ∧
        (win = .rectangular → r[i]? = some 0x3F000000#32)

/-- WINDUMP (R203): the N entries of W and then the N entries of R, NaNs canonical, are read back at the destination; nothing else
changes. -/
def Obligations.WindumpWritesTables : Prop :=
  ∀ (ra : Reg) (s : State), Config.legalParams s.hw = true → s.TablesLatched → s.Ready (.windump ra) →
    ∃ t, exec (.windump ra) s = .next t ∧ t.readSamples (s.x ra) (2 * s.aN) = (s.w ++ s.r).map canon ∧
      t.status = s.status ∧ DataFrame ⟨s.x ra, 8 * s.aN, 4⟩ s t

/-! ### Companding -/

/-- COMP (R170) on operands of any overlap: element by element (R103), the code of C of each value, NAN and SAT as Q sets them, and nothing
else. -/
def Obligations.CompWritesCodes : Prop :=
  ∀ (ra rb rc : Reg) (s : State), Config.legalParams s.hw = true → s.Ready (.comp ra rb rc) →
    ∃ t, exec (.comp ra rb rc) s = .next t ∧ QuantizesEach s.compress (s.x ra) (s.x rb) (s.x rc).toNat s t ∧
      DataFrame ⟨s.x rb, 2 * (s.x rc).toNat, 2⟩ s t

/-- EXPD (R171) on operands of any overlap: element by element, the value of each code's expansion, and nothing else. -/
def Obligations.ExpdWritesValues : Prop :=
  ∀ (ra rb rc : Reg) (s : State), Config.legalParams s.hw = true → s.Ready (.expd ra rb rc) →
    ∃ t, exec (.expd ra rb rc) s = .next t ∧ ExpandsEach s.expand (s.x ra) (s.x rb) (s.x rc).toNat s t ∧
      DataFrame ⟨s.x rb, 4 * (s.x rc).toNat, 4⟩ s t

/-- The curves of the active method (R161, R162, R166, R169), operation by operation. -/
def Obligations.CompressFollowsCurve : Prop :=
  ∀ (s : State) (x : F32),
    (methodOf s.acfg = some .mu →
      s.compress x = fdiv (numLn s.hw.num (fadd 0x3F800000#32 (fmul s.acparam0 x))) s.consts.kml) ∧
    (methodOf s.acfg = some .uv →
      s.compress x = fadd (fdiv x (fadd (fmul s.consts.uvd x) s.consts.alp)) (fmul s.consts.gam x)) ∧
    (methodOf s.acfg = some .sq →
      (s.consts.k = 1 → s.compress x = x) ∧
      ∀ j, s.consts.k = j + 2 → s.compress x = fsqrt (({ s with consts := { s.consts with k := j + 1 } } : State).compress x))

/-- Expand(r) = E(Yin(r)) for every method and code (R161, R162, R166 to R169), with the constants of the active configuration. -/
def Obligations.ExpandIsCurve : Prop :=
  ∀ (s : State) (r : Code), s.status.cfgok = true → s.TablesLatched →
    let y := fdiv (u2f r.toNat) 0x477FFF00#32
    let k := s.consts
    (methodOf s.acfg = some .mu →
      s.expand r = fdiv (fsub (numPow s.hw.num k.kmb y) 0x3F800000#32) s.acparam0) ∧
    (methodOf s.acfg = some .uv →
      let b := fsub (fmul k.uvd y) k.uve
      let c := fmul k.alp y
      let disc := fsub (fmul b b) (fmul k.uv4a c)
      s.expand r = fdiv (fsub (fneg b) (fsqrt disc)) k.uv2a) ∧
    (methodOf s.acfg = some .sq → s.expand r = iter (fun _ x => fmul x x) (k.k - 1) y)

/-! ### Transforms -/

/-- RFFT (R225): the N/2 + 1 bins of NUM.rfft of the N samples, all read before the first write, are read back at the destination, and
nothing else changes. -/
def Obligations.RfftWritesBins : Prop :=
  ∀ (ra rb : Reg) (s : State), Config.legalParams s.hw = true → s.Ready (.rfft ra rb) →
    ∃ t, exec (.rfft ra rb) s = .next t ∧
      t.readBins (s.x rb) (s.aN / 2 + 1) = numRfft s.hw.num s.aN (s.readSamples (s.x ra) s.aN) ∧
      t.status = s.status ∧ DataFrame ⟨s.x rb, 8 * (s.aN / 2 + 1), 4⟩ s t

/-- IRFFT (R226): the N samples of NUM.irfft of the N/2 + 1 bins, all read before the first write, are read back at the destination, and
nothing else changes. -/
def Obligations.IrfftWritesSamples : Prop :=
  ∀ (ra rb : Reg) (s : State), Config.legalParams s.hw = true → s.Ready (.irfft ra rb) →
    ∃ t, exec (.irfft ra rb) s = .next t ∧
      t.readSamples (s.x rb) s.aN = numIrfft s.hw.num s.aN (s.readBins (s.x ra) (s.aN / 2 + 1)) ∧
      t.status = s.status ∧ DataFrame ⟨s.x rb, 4 * s.aN, 4⟩ s t

/-- What a transform's inputs decide (R17, R221 to R223): NUM.rfft gives N/2 + 1 bins with +0 imaginary parts in bins 0 and N/2, all its
other components NaN where a sample is NaN; NUM.irfft gives N samples, all NaN where a used input is NaN, and never depends on the
imaginary parts of bins 0 and N/2. Under NUM_ref an infinity does the same as a NaN. -/
def Obligations.TransformsUseTheirInputs : Prop :=
  ∀ (num : Config.NumChoice) (n : Nat),
    let poison (v : F32) := isNaN v = true ∨ (num = .reference ∧ isInf v = true)
    (∀ t : List F32,
      (numRfft num n t).length = n / 2 + 1 ∧
      (∀ k z, k = 0 ∨ k = n / 2 → (numRfft num n t)[k]? = some z → z.2 = 0) ∧
      ((∃ v ∈ t, poison v) → ∀ k z, (numRfft num n t)[k]? = some z →
        z.1 = 0x7FC00000#32 ∧ (k ≠ 0 → k ≠ n / 2 → z.2 = 0x7FC00000#32))) ∧
    ∀ y : List Bin,
      (numIrfft num n y).length = n ∧
      ((∃ k z, y[k]? = some z ∧ (poison z.1 ∨ (k ≠ 0 ∧ k ≠ n / 2 ∧ poison z.2))) →
        ∀ v ∈ numIrfft num n y, v = 0x7FC00000#32) ∧
      ∀ y' : List Bin, y'.length = y.length →
        (∀ k z z', y[k]? = some z → y'[k]? = some z' → z.1 = z'.1 ∧ (k ≠ 0 → k ≠ n / 2 → z.2 = z'.2)) →
        numIrfft num n y' = numIrfft num n y

/-! ### The encoder -/

/-- PQNT (R240) on operands of any overlap: element by element the code Q(0.5·v + 0.5), and nothing else. -/
def Obligations.PqntWritesCodes : Prop :=
  ∀ (ra rb rc : Reg) (s : State), Config.legalParams s.hw = true → s.Ready (.pqnt ra rb rc) →
    ∃ t, exec (.pqnt ra rb rc) s = .next t ∧
      QuantizesEach (fun v => fadd (fmul 0x3F000000#32 v) 0x3F000000#32) (s.x ra) (s.x rb) (s.x rc).toNat s t ∧
      DataFrame ⟨s.x rb, 2 * (s.x rc).toNat, 2⟩ s t

/-- The bin encoder (R241): the codes of re/mag and im/mag and of C of the magnitude; a zero magnitude gives the phase codes 32767; a
NaN magnitude gives three codes 0 and NAN, under each of the three methods. -/
def Obligations.BinEncoderNormalizes : Prop :=
  ∀ (s : State) (re im : F32),
    let mag := fsqrt (fadd (fmul re re) (fmul im im))
    let phase (v : F32) := quantize (fadd (fmul 0x3F000000#32 v) 0x3F000000#32)
    (feq mag 0 = false →
      encodeBin s.compress re im = (phase (fdiv re mag), quantize (s.compress mag), phase (fdiv im mag))) ∧
    (feq mag 0 = true →
      (encodeBin s.compress re im).1 = ⟨32767, false, false⟩ ∧
      (encodeBin s.compress re im).2.1 = quantize (s.compress mag) ∧
      (encodeBin s.compress re im).2.2 = ⟨32767, false, false⟩) ∧
    (isNaN mag = true → (methodOf s.acfg).isSome = true →
      encodeBin s.compress re im = (⟨0, true, false⟩, ⟨0, true, false⟩, ⟨0, true, false⟩))

/-- FWD (R242): N windowed samples, +0 past the limit, through NUM.rfft, each bin divided by N/2 and encoded; the M pixels are read back
at the destination, NAN and SAT collect the quantizations, and nothing else changes. -/
def Obligations.FwdWritesRow : Prop :=
  ∀ (ra rb rc : Reg) (s : State), Config.legalParams s.hw = true → s.Ready (.fwd ra rb rc) →
    let n := s.aN
    let limit := min (s.x rb).toNat n
    let frame := (List.range n).map fun i =>
      fmul (if i < limit then s.readF32 (element (s.x ra) 4 i) else 0) (s.windowEntry i)
    let h := u2f ((n / 2 : Nat) : Int)
    let row := (numRfft s.hw.num n frame).map fun z => encodeBin s.compress (fdiv z.1 h) (fdiv z.2 h)
    ∃ t, exec (.fwd ra rb rc) s = .next t ∧
      t.readPixels (s.x rc) (n / 2 + 1) = row.map (fun p => (p.1.code, p.2.1.code, p.2.2.code)) ∧
      t.status.nan = (s.status.nan || row.any fun p => p.1.nan || p.2.1.nan || p.2.2.nan) ∧
      t.status.sat = (s.status.sat || row.any fun p => p.1.sat || p.2.1.sat || p.2.2.sat) ∧
      DataFrame ⟨s.x rc, 6 * (n / 2 + 1), 2⟩ s t

/-! ### The decoder -/

/-- PDEQ (R261) on operands of any overlap: element by element the exact value (r - 32768)/32768, and nothing else. -/
def Obligations.PdeqWritesValues : Prop :=
  ∀ (ra rb rc : Reg) (s : State), Config.legalParams s.hw = true → s.Ready (.pdeq ra rb rc) →
    ∃ t, exec (.pdeq ra rb rc) s = .next t ∧
      ExpandsEach (fun r => fdiv (u2f ((r.toNat : Int) - 32768)) 0x47000000#32) (s.x ra) (s.x rb) (s.x rc).toNat s t ∧
      DataFrame ⟨s.x rb, 4 * (s.x rc).toNat, 4⟩ s t

/-- INV (R263 to R265): the three rows, zero rows where PV or NV is 0, are synthesized (deq·expand bins, NUM.irfft, W, the gain), overlap-added
and normalized by R; the N samples, NaNs canonical, are read back at the destination, and nothing else changes. An infinite gain goes
through the pseudocode like any other, against a corner case of R263's text (assumption 30). -/
def Obligations.InvWritesSamples : Prop :=
  ∀ (ra rb : Reg) (pv nv : Bool) (s : State), Config.legalParams s.hw = true → s.Ready (.inv ra rb pv nv) →
    let n := s.aN
    let h := n / 2
    let m := n / 2 + 1
    let c := s.x ra
    let row (valid : Bool) (a : Word) := if valid then s.readPixels a m else List.replicate m (0, 0, 0)
    let frame (p : List Pixel) (i : Nat) :=
      fmul (fmul
        ((numIrfft s.hw.num n (p.map fun q => (fmul (deq q.1) (s.expand q.2.1), fmul (deq q.2.2) (s.expand q.2.1)))).getD i 0)
        (s.windowEntry i)) s.syngain
    let fc := frame (row true c)
    let fp := frame (row pv (c - BitVec.ofNat 32 (6 * m)))
    let fn := frame (row nv (c + BitVec.ofNat 32 (6 * m)))
    ∃ t, exec (.inv ra rb pv nv) s = .next t ∧
      t.readSamples (s.x rb) n =
        (List.range n).map (fun i =>
          canon (fmul (fadd (fadd (fc i) (if i < h then fp (i + h) else 0)) (if h ≤ i then fn (i - h) else 0)) (s.normEntry i))) ∧
      t.status = s.status ∧ DataFrame ⟨s.x rb, 4 * n, 4⟩ s t

/-- INV depends only on its rows, the tables, the curve and SYNGAIN (R269): two machines that agree on the active configuration, the
constants, the tables, SYNGAIN and the bytes of the rows INV names compute the same samples, whatever their other bytes and
registers are. -/
def Obligations.InvDependsOnItsRows : Prop :=
  ∀ (c : Word) (pv nv : Bool) (s u : State), Config.legalParams s.hw = true → s.TablesLatched → s.status.cfgok = true →
    (∀ o ∈ invRows c s.aN pv nv, o.Ok s.hw.lmemSize) →
    u.hw = s.hw → u.acfg = s.acfg → u.acparam0 = s.acparam0 → u.consts = s.consts → u.lut = s.lut → u.w = s.w → u.r = s.r →
    u.syngain = s.syngain →
    (∀ o ∈ invRows c s.aN pv nv, ∀ a, o.span.holds a = true → u.byte a = s.byte a) →
    u.decodeBlock c pv nv = s.decodeBlock c pv nv

/-- The vector commands where source and destination share no byte (R170, R171, R240, R261): the whole destination is the image of the
whole source. -/
def Obligations.VectorsWithoutOverlap : Prop :=
  ∀ (ra rb rc : Reg) (s : State), Config.legalParams s.hw = true →
    let n := (s.x rc).toNat
    (s.Ready (.comp ra rb rc) → Span.meets ⟨(s.x ra).toNat, 4 * n⟩ ⟨(s.x rb).toNat, 2 * n⟩ = false →
      ∃ t, exec (.comp ra rb rc) s = .next t ∧
        t.readCodes (s.x rb) n = (s.readSamples (s.x ra) n).map fun v => (quantize (s.compress v)).code) ∧
    (s.Ready (.pqnt ra rb rc) → Span.meets ⟨(s.x ra).toNat, 4 * n⟩ ⟨(s.x rb).toNat, 2 * n⟩ = false →
      ∃ t, exec (.pqnt ra rb rc) s = .next t ∧
        t.readCodes (s.x rb) n = (s.readSamples (s.x ra) n).map fun v => (phaseQ v).code) ∧
    (s.Ready (.expd ra rb rc) → Span.meets ⟨(s.x ra).toNat, 2 * n⟩ ⟨(s.x rb).toNat, 4 * n⟩ = false →
      ∃ t, exec (.expd ra rb rc) s = .next t ∧
        t.readSamples (s.x rb) n = (s.readCodes (s.x ra) n).map fun r => canon (s.expand r)) ∧
    (s.Ready (.pdeq ra rb rc) → Span.meets ⟨(s.x ra).toNat, 2 * n⟩ ⟨(s.x rb).toNat, 4 * n⟩ = false →
      ∃ t, exec (.pdeq ra rb rc) s = .next t ∧
        t.readSamples (s.x rb) n = (s.readCodes (s.x ra) n).map deq)

/-! ### Numbers -/

/-- RNE (R12): the magnitude rneBits gives for p/q is a nearest binary32 magnitude, the even one of two equally near, and infinity exactly
from half a unit above the greatest finite value on. Magnitudes are compared in units of 2^-149. -/
def Obligations.RoundToNearestEven : Prop :=
  ∀ p q : Nat, 0 < q →
    let b := rneBits p q
    let err (c : Nat) : Nat := (((p * 2 ^ 149 : Nat) : Int) - ((magUnits (BitVec.ofNat 32 c) * q : Nat) : Int)).natAbs
    b ≤ 0x7F800000 ∧ (b = 0x7F800000 ↔ (2 ^ 25 - 1) * 2 ^ 103 * q ≤ p) ∧
    (b < 0x7F800000 → ∀ c < 0x7F800000, err b ≤ err c ∧ (err b = err c → c ≠ b → b % 2 = 0))

/-- The NaN rule (R12, R13): no operation gives a NaN other than 0x7FC0_0000, none tells one NaN operand from another, and a NaN is written to
LMEM as 0x7FC0_0000. For fneg and fabs, which R12 makes a change of the sign bit alone, this is DEDUCED from R13 (assumption 11). -/
def Obligations.EveryNaNIsCanonical : Prop :=
  (∀ a b : F32,
    canon (fadd a b) = fadd a b ∧ canon (fsub a b) = fsub a b ∧ canon (fmul a b) = fmul a b ∧ canon (fdiv a b) = fdiv a b ∧
    canon (fsqrt a) = fsqrt a ∧ canon (fneg a) = fneg a ∧ canon (fabs a) = fabs a ∧
    fadd (canon a) (canon b) = fadd a b ∧ fsub (canon a) (canon b) = fsub a b ∧ fmul (canon a) (canon b) = fmul a b ∧
    fdiv (canon a) (canon b) = fdiv a b ∧ fsqrt (canon a) = fsqrt a ∧ fneg (canon a) = fneg a ∧ fabs (canon a) = fabs a ∧
    flt (canon a) (canon b) = flt a b ∧ fle (canon a) (canon b) = fle a b ∧ feq (canon a) (canon b) = feq a b ∧
    quantize (canon a) = quantize a) ∧
  (∀ (num : Config.NumChoice) (m : Nat) (a b : F32),
    canon (numLn num a) = numLn num a ∧ canon (numPow num a b) = numPow num a b ∧ canon (numCos2pi num m a) = numCos2pi num m a ∧
    numLn num (canon a) = numLn num a ∧ numPow num (canon a) (canon b) = numPow num a b ∧
    numCos2pi num m (canon a) = numCos2pi num m a) ∧
  (∀ (num : Config.NumChoice) (n : Nat) (t : List F32) (y : List Bin),
    (∀ z ∈ numRfft num n t, canon z.1 = z.1 ∧ canon z.2 = z.2) ∧ (∀ v ∈ numIrfft num n y, canon v = v) ∧
    numRfft num n (t.map canon) = numRfft num n t ∧
    numIrfft num n (y.map fun z => (canon z.1, canon z.2)) = numIrfft num n y) ∧
  ∀ (s : State) (a : Word) (v : F32), isNaN v = true → (s.writeF32 a v).readF32 a = 0x7FC00000#32

/-- The laws every NUM meets (R17): ln, pow and cos2pi at their special values, cos2pi in [-1, 1] and exact at the quarter turns (m·x in
units of 2^-149, so 2^149 is a whole turn), and the +0 imaginary parts of rfft. A NaN b comes back from pow(b, 1) as the canonical NaN
(R13). That the zeros of cos2pi at the quarter and three-quarter turn are +0 is the model's choice (assumption 31); R17 writes 0. -/
def Obligations.NumMeetsSpecialValues : Prop :=
  ∀ num : Config.NumChoice,
    numLn num 0x3F800000#32 = 0 ∧ numLn num 0x00000000#32 = 0xFF800000#32 ∧ numLn num 0x80000000#32 = 0xFF800000#32 ∧
    (∀ x, flt x 0 = true ∨ isNaN x = true → numLn num x = 0x7FC00000#32) ∧ numLn num 0x7F800000#32 = 0x7F800000#32 ∧
    (∀ b, numPow num b 0x00000000#32 = 0x3F800000#32 ∧ numPow num b 0x80000000#32 = 0x3F800000#32 ∧
      numPow num b 0x3F800000#32 = canon b) ∧
    (∀ b y, isNaN y = true → numPow num b y = 0x7FC00000#32) ∧
    (∀ m x, 1 ≤ m → m ≤ 3 → isFinite x = true →
      let c := numCos2pi num m x
      let turn := ((m : Int) * units x) % 2 ^ 149
      isFinite c = true ∧ fle 0xBF800000#32 c = true ∧ fle c 0x3F800000#32 = true ∧
      (turn = 0 → c = 0x3F800000#32) ∧ (turn = 2 ^ 147 → c = 0) ∧ (turn = 2 ^ 148 → c = 0xBF800000#32) ∧
      (turn = 3 * 2 ^ 147 → c = 0)) ∧
    ∀ n t k z, k = 0 ∨ k = n / 2 → (numRfft num n t)[k]? = some z → z.2 = 0

/-- The quantizer Q (R160): NaN to 0 with NAN, below 0 to 0 with SAT, above 1 to 65535 with SAT, and else the floor of fmul(y, 65535.0), which
is at most 65535, with neither; the flags are set in STATUS and nothing else is; with the corner cases of the rule. -/
def Obligations.QuantizerClampsAndFlags : Prop :=
  (∀ y : F32,
    (isNaN y = true → quantize y = ⟨0, true, false⟩) ∧
    (flt y 0 = true → quantize y = ⟨0, false, true⟩) ∧
    (flt 0x3F800000#32 y = true → quantize y = ⟨65535, false, true⟩) ∧
    (fle 0 y = true → fle y 0x3F800000#32 = true →
      (quantize y).code.toNat = floorNat (fmul y 0x477FFF00#32) ∧ (quantize y).nan = false ∧ (quantize y).sat = false) ∧
    ((quantize y).code = 0 → isNaN y = false → flt y 0x37800080#32 = true) ∧
    ∀ s : State,
      s.stick (quantize y) =
        { s with
          status :=
            { s.status with
              nan := s.status.nan || isNaN y
              sat := s.status.sat || flt y 0 || flt 0x3F800000#32 y } }) ∧
  rne false 1 65535 = 0x37800080#32 ∧
  quantize 0x80000000#32 = ⟨0, false, false⟩ ∧ quantize 0x3F800000#32 = ⟨65535, false, false⟩ ∧
  quantize 0x3F7FFFFF#32 = ⟨65534, false, false⟩ ∧ quantize 0x3F000000#32 = ⟨32767, false, false⟩ ∧
  quantize 0x7F800000#32 = ⟨65535, false, true⟩ ∧ quantize 0xFF800000#32 = ⟨0, false, true⟩ ∧
  quantize 0x37800080#32 = ⟨1, false, false⟩ ∧ quantize 0x3780007F#32 = ⟨0, false, false⟩

/-- The phase decode (R260): exact for every code, (r - 32768)·2^-15, with no -0, so in [-1, 1 - 2^-15]; a zero phase component encodes to
32767 and decodes to -2^-15, and +1 decodes to 1 - 2^-15. -/
def Obligations.PhaseDecodeIsExact : Prop :=
  (∀ r : Code,
    isFinite (deq r) = true ∧ units (deq r) = ((r.toNat : Int) - 32768) * 2 ^ 134 ∧ deq r ≠ 0x80000000#32 ∧
    fle 0xBF800000#32 (deq r) = true ∧ fle (deq r) 0x3F7FFE00#32 = true) ∧
  deq 0 = 0xBF800000#32 ∧ deq 32768 = 0 ∧ deq 65535 = 0x3F7FFE00#32 ∧
  (phaseQ 0).code = 32767 ∧ deq 32767 = 0xB8000000#32 ∧ (phaseQ 0x3F800000#32).code = 65535

/-! ### The whole machine -/

/-- Configuration takes effect only at INIT (R40, R330): every other command does the same whatever CFG, CPARAM0 and CPARAM1 hold, and
leaves them alone. -/
def Obligations.ConfigurationOnlyAtInit : Prop :=
  ∀ (i : Instr) (s t : State) (cfg p0 p1 : Word), i ≠ .init → exec i s = .next t →
    exec i { s with cfg := cfg, cparam0 := p0, cparam1 := p1 } = .next { t with cfg := cfg, cparam0 := p0, cparam1 := p1 }

/-- Only a successful INIT, run by the engine in its turn, and a reset change the active configuration, the tables and the constants (R40,
R46 to R49, R102, R321). -/
def Obligations.TablesChangeOnlyAtInit : Prop :=
  ∀ s t : State, step s = .next t →
    (t.acfg = s.acfg ∧ t.acparam0 = s.acparam0 ∧ t.acparam1 = s.acparam1 ∧ t.w = s.w ∧ t.r = s.r ∧ t.lut = s.lut ∧
      t.consts = s.consts) ∨
    (t.status.cfgok = true ∧ s.status.busy = true ∧ (∃ ts, s.EngineTurn ts) ∧ s.pc.toNat % 8 = 0 ∧
      s.pc.toNat + 8 ≤ s.hw.lmemSize ∧ ∃ rest, decode (s.bytesAt s.pc.toNat 8) = .ok (.init, rest)) ∨
    (∃ ts, s.turns = .reset :: ts) ∨
    (∃ v ts, s.turns = .access (.write 0x004 32 v) :: ts ∧ v.getLsbD 2 = true)

/-- Only SETA, ADDA and DJNZ write an A register, and each only its RA (R42, R112); no command writes CFG, CPARAM0, CPARAM1, IRQEN, WDROP or
the parameters, and only INIT and SETG write SYNGAIN (R38, R43, R200). -/
def Obligations.OnlyAddressCommandsWriteRegisters : Prop :=
  ∀ (i : Instr) (s t : State), exec i s = .next t →
    (∀ r, t.x r = s.x r ∨ ∃ v, i = .seta r v ∨ i = .adda r v ∨ i = .djnz r v) ∧
    t.cfg = s.cfg ∧ t.cparam0 = s.cparam0 ∧ t.cparam1 = s.cparam1 ∧ t.irqen = s.irqen ∧ t.status.wdrop = s.status.wdrop ∧
    t.hw = s.hw ∧ t.turns = s.turns ∧ (t.syngain = s.syngain ∨ i = .init ∨ ∃ v, i = .setg v)

/-- NAN and SAT are sticky (R34): no command clears them, and only COMP, PQNT and FWD can set them; DONE changes only at HALT (R333). -/
def Obligations.StickyFlags : Prop :=
  ∀ (i : Instr) (s t : State), exec i s = .next t →
    (s.status.nan = true → t.status.nan = true) ∧ (s.status.sat = true → t.status.sat = true) ∧
    ((∀ a b c, i ≠ .comp a b c ∧ i ≠ .pqnt a b c ∧ i ≠ .fwd a b c) →
      t.status.nan = s.status.nan ∧ t.status.sat = s.status.sat) ∧
    (i ≠ .halt → t.status.done = s.status.done)

/-- Every step keeps the parameters legal, LMEM in its canonical form and inside LMEM_SIZE (R8, R80), and the bytes on record as raced
inside it. The canonical form is the model's (assumption 3), and so is the record of races (assumption 9). -/
def Obligations.StepKeepsMemory : Prop := ∀ s t : State, s.MemoryOk → step s = .next t → t.MemoryOk

/-- Every step keeps the tables those of the active configuration while CFGOK is set (R40, R46 to R49, R200, R201). -/
def Obligations.StepKeepsTables : Prop := ∀ s t : State, s.TablesLatched → step s = .next t → t.TablesLatched

/-- Every step keeps at most one of BUSY, DONE and ERR and a cause behind ERR (R23, R141, R290, R333), and no race on record while idle,
which is the model's account of R98 (assumption 9). -/
def Obligations.StepKeepsRunFlags : Prop := ∀ s t : State, s.RunFlags → step s = .next t → t.RunFlags

/-- Every step keeps the reserved bits of CFG and ACFG at 0 (R36, R40). -/
def Obligations.StepKeepsCfgReserved : Prop := ∀ s t : State, s.CfgReserved → step s = .next t → t.CfgReserved

/-- The machine after reset meets the four invariants. -/
def Obligations.ResetMeetsInvariants : Prop :=
  State.reset.MemoryOk ∧ State.reset.TablesLatched ∧ State.reset.RunFlags ∧ State.reset.CfgReserved

/-! ### Reset and the host port -/

/-- Reset (R320): after reset, and after the reset input in any state, every register the spec gives a value has it, the engine is idle and
IRQ is deasserted; LMEM lists no written byte, which is the model's form of unspecified bytes (assumption 3). -/
def Obligations.ResetGivesValues : Prop :=
  State.reset.RegistersReset ∧ State.reset.hw.lmemSize = 0x00400000 ∧ State.reset.lmem = [] ∧
  ∀ (s : State) (ts : List Turn), s.turns = .reset :: ts →
    ∃ t, step s = .next t ∧ t.RegistersReset ∧ t.hw = s.hw ∧ t.turns = ts ∧ t.lmem = []

/-- Soft reset (R32, R321): a CTRL write with SRST set, whatever its other bits and whether or not the engine is busy, gives every register
its reset value and keeps LMEM. Only the bytes on record as raced (R98), those the host wrote during the run it stops and those computed
from them, are drawn anew, as at any end of a run (assumption 9). -/
def Obligations.SoftResetKeepsLmem : Prop :=
  ∀ (s : State) (v : Word) (ts : List Turn), s.turns = .access (.write 0x004 32 v) :: ts → v.getLsbD 2 = true →
    ∃ t, step s = .next t ∧ t.RegistersReset ∧ t.hw = s.hw ∧ t.turns = ts ∧
      (∀ a, ¬s.race.Raced a → t.byte a = s.byte a) ∧ (s.race.raced = [] → t.lmem = s.lmem)

/-- While BUSY = 1 (R43): a host write to PC, CFG, CPARAM0, CPARAM1, SYNGAIN or an Ai changes nothing but WDROP; a START without SRST leaves
BUSY and sets WDROP, its IRQEN bit taking effect; W1C writes of STATUS take effect at any time; writes to the read-only registers are
ignored at any time and never set WDROP. -/
def Obligations.HostWritesWhileBusy : Prop :=
  ∀ (s : State) (off v : Word) (ts : List Turn), s.turns = .access (.write off 32 v) :: ts →
    (s.status.busy = true → off ∈ [0x020#32, 0x024#32, 0x028#32, 0x02C#32, 0x030#32] ∨ (∃ i : Reg, off.toNat = 0x080 + 4 * i.val) →
      step s = .next { s with turns := ts, status := { s.status with wdrop := true } }) ∧
    (s.status.busy = true → off = 0x004#32 → v.getLsbD 0 = true → v.getLsbD 2 = false →
      step s = .next { s with turns := ts, irqen := v.getLsbD 1, status := { s.status with wdrop := true } }) ∧
    (off = 0x008#32 →
      step s =
        .next
          { s with
            turns := ts
            status :=
              { busy := s.status.busy
                done := s.status.done && !v.getLsbD 1
                err := s.status.err && !v.getLsbD 2
                cfgok := s.status.cfgok
                nan := s.status.nan && !v.getLsbD 4
                sat := s.status.sat && !v.getLsbD 5
                wdrop := s.status.wdrop && !v.getLsbD 6 } }) ∧
    (off ∈ [0x000#32, 0x00C#32, 0x010#32, 0x014#32, 0x018#32, 0x01C#32, 0x034#32, 0x038#32, 0x03C#32, 0x040#32] →
      step s = .next { s with turns := ts })

/-- Host writes while idle: PC and the Ai take any value, CFG all bits but the reserved ones, CPARAM0, CPARAM1 and SYNGAIN any pattern, each
changing nothing else (R36 to R38, R41, R42). Idle or busy, a CTRL write without START and SRST sets IRQEN and nothing else (R32). -/
def Obligations.HostWritesWhileIdle : Prop :=
  ∀ (s : State) (off v : Word) (ts : List Turn), s.turns = .access (.write off 32 v) :: ts →
    (s.status.busy = false →
      (off = 0x020#32 → step s = .next { s with turns := ts, pc := v }) ∧
      (off = 0x024#32 → step s = .next { s with turns := ts, cfg := v &&& 0xFFFF731F#32 }) ∧
      (off = 0x028#32 → step s = .next { s with turns := ts, cparam0 := v }) ∧
      (off = 0x02C#32 → step s = .next { s with turns := ts, cparam1 := v }) ∧
      (off = 0x030#32 → step s = .next { s with turns := ts, syngain := v }) ∧
      ∀ i : Reg, off.toNat = 0x080 + 4 * i.val → step s = .next { s with turns := ts, regs := s.regs.set i v }) ∧
    (off = 0x004#32 → v.getLsbD 0 = false → v.getLsbD 2 = false → step s = .next { s with turns := ts, irqen := v.getLsbD 1 })

/-- What the host reads (R30 to R45): each mapped register its content, a read changing nothing but the data read. An unmapped offset below
LMEM_HBASE reads 0 and ignores writes; an access of another width or alignment is refused, which is the model's form of R45's refusal
(assumption 15). That the latest read data stand in the state is the model's choice (assumption 19). -/
def Obligations.HostReadsRegisterMap : Prop :=
  ∀ (s : State) (off : Word) (ts : List Turn), off.toNat < 0x01000000 →
    let mapped : List (Nat × Word) :=
      [(0x000, 0x41564201#32), (0x004, if s.irqen then 2 else 0),
        (0x008,
          BitVec.ofNat 32
            (s.status.busy.toNat + 2 * s.status.done.toNat + 4 * s.status.err.toNat + 8 * s.status.cfgok.toNat +
              16 * s.status.nan.toNat + 32 * s.status.sat.toNat + 64 * s.status.wdrop.toNat)),
        (0x00C, BitVec.ofNat 32 (causeCode s.errCause)), (0x010, s.errPc), (0x014, s.errAddr), (0x018, s.errCmdL),
        (0x01C, s.errCmdH), (0x020, s.pc), (0x024, s.cfg), (0x028, s.cparam0), (0x02C, s.cparam1), (0x030, s.syngain),
        (0x034, BitVec.ofNat 32 s.hw.lmemSize), (0x038, s.acfg), (0x03C, s.acparam0), (0x040, s.acparam1),
        (0x080, s.x 0), (0x084, s.x 1), (0x088, s.x 2), (0x08C, s.x 3), (0x090, s.x 4), (0x094, s.x 5), (0x098, s.x 6),
        (0x09C, s.x 7)]
    (∀ v, s.turns = .access (.read off 32) :: ts →
      (off.toNat, v) ∈ mapped ∨ (off.toNat % 4 = 0 ∧ off.toNat ∉ mapped.map Prod.fst ∧ v = 0) →
        step s = .next { s with turns := ts, rdata := v, race := { s.race with lastRead := false } }) ∧
    (∀ v, s.turns = .access (.write off 32 v) :: ts → off.toNat % 4 = 0 → off.toNat ∉ mapped.map Prod.fst →
      step s = .next { s with turns := ts }) ∧
    (∀ width, width ≠ 32 ∨ off.toNat % 4 ≠ 0 →
      (s.turns = .access (.read off width) :: ts → step s = .refused (.hostRegisterAccess off width)) ∧
      ∀ v, s.turns = .access (.write off width v) :: ts → step s = .refused (.hostRegisterAccess off width))

/-- START (R141): with START set and SRST clear, accepted when idle: DONE, ERR and the error registers are cleared and BUSY is set, and
nothing else but IRQEN, bit 1 of the write (R32), changes; while busy WDROP is set instead. -/
def Obligations.StartBeginsRun : Prop :=
  ∀ (s : State) (v : Word) (ts : List Turn), s.turns = .access (.write 0x004 32 v) :: ts → v.getLsbD 0 = true → v.getLsbD 2 = false →
    (s.status.busy = false →
      step s =
        .next
          { s with
            turns := ts
            irqen := v.getLsbD 1
            status := { s.status with done := false, err := false, busy := true }
            errCause := .none
            errPc := 0
            errAddr := 0
            errCmdL := 0
            errCmdH := 0 }) ∧
    (s.status.busy = true →
      step s = .next { s with turns := ts, irqen := v.getLsbD 1, status := { s.status with wdrop := true } })

/-- IRQ (R300): it is IRQEN and (DONE or ERR); HALT and every fault assert it where IRQEN is set; a soft reset, an accepted START, IRQEN = 0
and clearing the source bits deassert it. -/
def Obligations.IrqIsEnabledDoneOrErr : Prop :=
  ∀ s : State,
    (s.irq = true ↔ s.irqen = true ∧ (s.status.done = true ∨ s.status.err = true)) ∧
    (∀ t, exec .halt s = .next t → t.irq = s.irqen) ∧
    (∀ c a w, (s.raise c a w).irq = s.irqen) ∧
    s.softReset.irq = false ∧ s.hardwareReset.irq = false ∧ (s.status.busy = false → s.start.irq = false) ∧
    ∀ v : Word, (s.writeRegister 0x008 v).irq = true →
      (s.status.done = true ∧ v.getLsbD 1 = false) ∨ (s.status.err = true ∧ v.getLsbD 2 = false)

/-- Host accesses to LMEM and above (R83, R84): while idle a write of 1, 2 or 4 bytes stores them little-endian and nothing else, and a read
gives the bytes composed little-endian; past LMEM_SIZE a read gives 0 and a write is ignored; another width or alignment is refused
(assumption 15). That a narrow access uses the low bits of the data, zeros above them, is the model's choice (assumption 28), and so is
that the latest read data stand in the state (assumption 19). -/
def Obligations.HostReadsAndWritesLmem : Prop :=
  ∀ (s : State) (off v : Word) (width : Nat) (ts : List Turn), 0x01000000 ≤ off.toNat →
    let a := off.toNat - 0x01000000
    let legal := (width = 8 ∨ width = 16 ∨ width = 32) ∧ off.toNat % (width / 8) = 0
    (s.turns = .access (.write off width v) :: ts →
      (legal → a < s.hw.lmemSize → s.status.busy = false →
        ∃ t, step s = .next t ∧ t = { s with turns := ts, lmem := t.lmem } ∧ t.memRead a (width / 8) = v.toNat % 2 ^ width ∧
          ∀ b, b < a ∨ a + width / 8 ≤ b → t.byte b = s.byte b) ∧
      (legal → s.hw.lmemSize ≤ a → step s = .next { s with turns := ts }) ∧
      (¬legal → step s = .refused (.hostMemoryAccess off width))) ∧
    (s.turns = .access (.read off width) :: ts →
      (legal → a < s.hw.lmemSize → s.status.busy = false →
        ∃ t, step s = .next t ∧ t.rdata.toNat = s.memRead a (width / 8) ∧
          t = { s with turns := ts, rdata := t.rdata, race := { s.race with lastRead := false } }) ∧
      (legal → s.hw.lmemSize ≤ a → ∃ t, step s = .next t ∧ t.rdata = 0 ∧ ∀ b, t.byte b = s.byte b) ∧
      (¬legal → step s = .refused (.hostMemoryAccess off width)))

/-- Races (R98), as the model takes them (assumptions 9, 10, 19, 28). While BUSY = 1 a host read gives free bytes at first, is put on record
with what its bytes held, and stands as the latest read; a host write makes its bytes free and puts them on record. At the run's end
each read on record gives a free value for every byte that a command of the run wrote, before the read or after it, and for every
other what it held, in the low bytes of a word; and every raced byte becomes a free value that no proof can know, every other staying as
it is. A command puts its output on record as written, and as raced as far as it computes it from raced bytes; all of it once a raced
byte decided what runs (in a word at pc, or through a register that a command uses), or set the gain of an INV. -/
def Obligations.RacedBytesAreFree : Prop :=
  (∀ (s : State) (off : Word) (width : Nat) (ts : List Turn), 0x01000000 ≤ off.toNat → s.status.busy = true →
    width = 8 ∨ width = 16 ∨ width = 32 → off.toNat % (width / 8) = 0 →
    let a := off.toNat - 0x01000000
    a < s.hw.lmemSize →
    (s.turns = .access (.read off width) :: ts →
      ∃ t r, step s = .next t ∧
        t =
          { s with
            turns := ts
            rdata := t.rdata
            draws := s.draws + 1
            race := { s.race with reads := r :: s.race.reads, lastRead := true } } ∧
        r.span = ⟨a, width / 8⟩ ∧ r.seen.toNat = s.memRead a (width / 8) ∧ r.draw = s.draws ∧
        ∀ j < 4, t.rdata.extractLsb' (8 * j) 8 = if j < width / 8 then Config.freeByte s.draws (a + j) else 0) ∧
    ∀ v, s.turns = .access (.write off width v) :: ts →
      ∃ t, step s = .next t ∧
        t =
          { s with
            turns := ts
            lmem := t.lmem
            draws := s.draws + 1
            race := { s.race with raced := ⟨a, width / 8⟩ :: s.race.raced } } ∧
        (∀ j < width / 8, t.byte (a + j) = Config.freeByte s.draws (a + j)) ∧
        ∀ b, b < a ∨ a + width / 8 ≤ b → t.byte b = s.byte b) ∧
  (∀ s : State,
    let t := s.endRun
    (∀ a, s.race.Raced a → t.byte a = Config.freeByte s.draws a) ∧ (∀ a, ¬s.race.Raced a → t.byte a = s.byte a) ∧
    t.raceReads.length = s.race.reads.length + s.raceReads.length ∧
    (∀ k r, s.race.reads[k]? = some r → r.span.len ≤ 4 →
      ∃ v, t.raceReads[k]? = some v ∧ (k = 0 → s.race.lastRead = true → t.rdata = v) ∧
        ∀ j < 4, v.extractLsb' (8 * j) 8 =
          if r.span.len ≤ j then 0
          else if s.race.wrote.any fun p => p.holds (r.span.base + j) then Config.freeByte r.draw (r.span.base + j)
          else r.seen.extractLsb' (8 * j) 8) ∧
    (s.race.lastRead = false → t.rdata = s.rdata)) ∧
  ∀ (i : Instr) (s : State), Config.legalParams s.hw = true → (isDataCommand i = true → s.Ready i) →
    let t := s.raceAfter i
    let out (b : Nat) : Prop := (outputOperand i s).span.holds b = true
    let immediate := ∃ b, s.race.Raced b ∧ Among s.pc 4 4 b
    (∀ b, (t.wrote.any fun p => p.holds b) = true ↔ (s.race.wrote.any fun p => p.holds b) = true ∨ out b) ∧
    t.reads = s.race.reads ∧ t.lastRead = s.race.lastRead ∧
    (s.CleanCommand → RacesOf i s s.race t ∧ t.regs = [] ∧ t.gain = false ∧ t.steered = false) ∧
    (s.race.steered = true ∨ (∃ b, s.race.Raced b ∧ Among s.pc 0 4 b) ∨ (∃ a ∈ s.race.regs, a ∈ decidingRegs i) ∨
        (immediate ∧ ∀ a v, i ≠ .seta a v ∧ i ≠ .adda a v ∧ i ≠ .setg v ∧ (i = .djnz a v → s.x a ≠ 1)) →
      t.steered = true) ∧
    (t.steered = true → ∀ b, t.Raced b ↔ s.race.Raced b ∨ out b) ∧
    (s.race.gain = true → ∀ a b pv nv, i = .inv a b pv nv → ∀ y, t.Raced y ↔ s.race.Raced y ∨ out y) ∧
    (immediate → (∀ a v, i = .seta a v ∨ i = .adda a v → a ∈ t.regs) ∧ ∀ v, i = .setg v → t.gain = true)
end

