-- ==== Sys2Proof/Laws/State.lean ====
section
/-! SUPPORT. One lemma per field and update of the state: what an update changes and what it leaves. -/

namespace Sys2Proof.Machine

@[simp] theorem State.setX_hw (s : State) (i : Reg) (v : Word) : (s.setX i v).hw = s.hw := rfl
@[simp] theorem State.setX_irqen (s : State) (i : Reg) (v : Word) : (s.setX i v).irqen = s.irqen := rfl
@[simp] theorem State.setX_status (s : State) (i : Reg) (v : Word) : (s.setX i v).status = s.status := rfl
@[simp] theorem State.setX_errCause (s : State) (i : Reg) (v : Word) : (s.setX i v).errCause = s.errCause := rfl
@[simp] theorem State.setX_errPc (s : State) (i : Reg) (v : Word) : (s.setX i v).errPc = s.errPc := rfl
@[simp] theorem State.setX_errAddr (s : State) (i : Reg) (v : Word) : (s.setX i v).errAddr = s.errAddr := rfl
@[simp] theorem State.setX_errCmdL (s : State) (i : Reg) (v : Word) : (s.setX i v).errCmdL = s.errCmdL := rfl
@[simp] theorem State.setX_errCmdH (s : State) (i : Reg) (v : Word) : (s.setX i v).errCmdH = s.errCmdH := rfl
@[simp] theorem State.setX_pc (s : State) (i : Reg) (v : Word) : (s.setX i v).pc = s.pc := rfl
@[simp] theorem State.setX_cfg (s : State) (i : Reg) (v : Word) : (s.setX i v).cfg = s.cfg := rfl
@[simp] theorem State.setX_cparam0 (s : State) (i : Reg) (v : Word) : (s.setX i v).cparam0 = s.cparam0 := rfl
@[simp] theorem State.setX_cparam1 (s : State) (i : Reg) (v : Word) : (s.setX i v).cparam1 = s.cparam1 := rfl
@[simp] theorem State.setX_syngain (s : State) (i : Reg) (v : Word) : (s.setX i v).syngain = s.syngain := rfl
@[simp] theorem State.setX_acfg (s : State) (i : Reg) (v : Word) : (s.setX i v).acfg = s.acfg := rfl
@[simp] theorem State.setX_acparam0 (s : State) (i : Reg) (v : Word) : (s.setX i v).acparam0 = s.acparam0 := rfl
@[simp] theorem State.setX_acparam1 (s : State) (i : Reg) (v : Word) : (s.setX i v).acparam1 = s.acparam1 := rfl
@[simp] theorem State.setX_regs (s : State) (i : Reg) (v : Word) : (s.setX i v).regs = s.regs.set i v := rfl
@[simp] theorem State.setX_w (s : State) (i : Reg) (v : Word) : (s.setX i v).w = s.w := rfl
@[simp] theorem State.setX_r (s : State) (i : Reg) (v : Word) : (s.setX i v).r = s.r := rfl
@[simp] theorem State.setX_lut (s : State) (i : Reg) (v : Word) : (s.setX i v).lut = s.lut := rfl
@[simp] theorem State.setX_consts (s : State) (i : Reg) (v : Word) : (s.setX i v).consts = s.consts := rfl
@[simp] theorem State.setX_lmem (s : State) (i : Reg) (v : Word) : (s.setX i v).lmem = s.lmem := rfl
@[simp] theorem State.setX_lmemDraw (s : State) (i : Reg) (v : Word) : (s.setX i v).lmemDraw = s.lmemDraw := rfl
@[simp] theorem State.setX_draws (s : State) (i : Reg) (v : Word) : (s.setX i v).draws = s.draws := rfl
@[simp] theorem State.setX_turns (s : State) (i : Reg) (v : Word) : (s.setX i v).turns = s.turns := rfl
@[simp] theorem State.setX_rdata (s : State) (i : Reg) (v : Word) : (s.setX i v).rdata = s.rdata := rfl
@[simp] theorem State.setX_raceReads (s : State) (i : Reg) (v : Word) : (s.setX i v).raceReads = s.raceReads := rfl
@[simp] theorem State.setX_race (s : State) (i : Reg) (v : Word) : (s.setX i v).race = s.race := rfl

@[simp] theorem State.setPc_hw (s : State) (v : Word) : (s.setPc v).hw = s.hw := rfl
@[simp] theorem State.setPc_irqen (s : State) (v : Word) : (s.setPc v).irqen = s.irqen := rfl
@[simp] theorem State.setPc_status (s : State) (v : Word) : (s.setPc v).status = s.status := rfl
@[simp] theorem State.setPc_errCause (s : State) (v : Word) : (s.setPc v).errCause = s.errCause := rfl
@[simp] theorem State.setPc_errPc (s : State) (v : Word) : (s.setPc v).errPc = s.errPc := rfl
@[simp] theorem State.setPc_errAddr (s : State) (v : Word) : (s.setPc v).errAddr = s.errAddr := rfl
@[simp] theorem State.setPc_errCmdL (s : State) (v : Word) : (s.setPc v).errCmdL = s.errCmdL := rfl
@[simp] theorem State.setPc_errCmdH (s : State) (v : Word) : (s.setPc v).errCmdH = s.errCmdH := rfl
@[simp] theorem State.setPc_pc (s : State) (v : Word) : (s.setPc v).pc = v := rfl
@[simp] theorem State.setPc_cfg (s : State) (v : Word) : (s.setPc v).cfg = s.cfg := rfl
@[simp] theorem State.setPc_cparam0 (s : State) (v : Word) : (s.setPc v).cparam0 = s.cparam0 := rfl
@[simp] theorem State.setPc_cparam1 (s : State) (v : Word) : (s.setPc v).cparam1 = s.cparam1 := rfl
@[simp] theorem State.setPc_syngain (s : State) (v : Word) : (s.setPc v).syngain = s.syngain := rfl
@[simp] theorem State.setPc_acfg (s : State) (v : Word) : (s.setPc v).acfg = s.acfg := rfl
@[simp] theorem State.setPc_acparam0 (s : State) (v : Word) : (s.setPc v).acparam0 = s.acparam0 := rfl
@[simp] theorem State.setPc_acparam1 (s : State) (v : Word) : (s.setPc v).acparam1 = s.acparam1 := rfl
@[simp] theorem State.setPc_regs (s : State) (v : Word) : (s.setPc v).regs = s.regs := rfl
@[simp] theorem State.setPc_w (s : State) (v : Word) : (s.setPc v).w = s.w := rfl
@[simp] theorem State.setPc_r (s : State) (v : Word) : (s.setPc v).r = s.r := rfl
@[simp] theorem State.setPc_lut (s : State) (v : Word) : (s.setPc v).lut = s.lut := rfl
@[simp] theorem State.setPc_consts (s : State) (v : Word) : (s.setPc v).consts = s.consts := rfl
@[simp] theorem State.setPc_lmem (s : State) (v : Word) : (s.setPc v).lmem = s.lmem := rfl
@[simp] theorem State.setPc_lmemDraw (s : State) (v : Word) : (s.setPc v).lmemDraw = s.lmemDraw := rfl
@[simp] theorem State.setPc_draws (s : State) (v : Word) : (s.setPc v).draws = s.draws := rfl
@[simp] theorem State.setPc_turns (s : State) (v : Word) : (s.setPc v).turns = s.turns := rfl
@[simp] theorem State.setPc_rdata (s : State) (v : Word) : (s.setPc v).rdata = s.rdata := rfl
@[simp] theorem State.setPc_raceReads (s : State) (v : Word) : (s.setPc v).raceReads = s.raceReads := rfl
@[simp] theorem State.setPc_race (s : State) (v : Word) : (s.setPc v).race = s.race := rfl

@[simp] theorem State.advance_hw (s : State) : s.advance.hw = s.hw := rfl
@[simp] theorem State.advance_irqen (s : State) : s.advance.irqen = s.irqen := rfl
@[simp] theorem State.advance_status (s : State) : s.advance.status = s.status := rfl
@[simp] theorem State.advance_errCause (s : State) : s.advance.errCause = s.errCause := rfl
@[simp] theorem State.advance_errPc (s : State) : s.advance.errPc = s.errPc := rfl
@[simp] theorem State.advance_errAddr (s : State) : s.advance.errAddr = s.errAddr := rfl
@[simp] theorem State.advance_errCmdL (s : State) : s.advance.errCmdL = s.errCmdL := rfl
@[simp] theorem State.advance_errCmdH (s : State) : s.advance.errCmdH = s.errCmdH := rfl
@[simp] theorem State.advance_pc (s : State) : s.advance.pc = s.pc + 8 := rfl
@[simp] theorem State.advance_cfg (s : State) : s.advance.cfg = s.cfg := rfl
@[simp] theorem State.advance_cparam0 (s : State) : s.advance.cparam0 = s.cparam0 := rfl
@[simp] theorem State.advance_cparam1 (s : State) : s.advance.cparam1 = s.cparam1 := rfl
@[simp] theorem State.advance_syngain (s : State) : s.advance.syngain = s.syngain := rfl
@[simp] theorem State.advance_acfg (s : State) : s.advance.acfg = s.acfg := rfl
@[simp] theorem State.advance_acparam0 (s : State) : s.advance.acparam0 = s.acparam0 := rfl
@[simp] theorem State.advance_acparam1 (s : State) : s.advance.acparam1 = s.acparam1 := rfl
@[simp] theorem State.advance_regs (s : State) : s.advance.regs = s.regs := rfl
@[simp] theorem State.advance_w (s : State) : s.advance.w = s.w := rfl
@[simp] theorem State.advance_r (s : State) : s.advance.r = s.r := rfl
@[simp] theorem State.advance_lut (s : State) : s.advance.lut = s.lut := rfl
@[simp] theorem State.advance_consts (s : State) : s.advance.consts = s.consts := rfl
@[simp] theorem State.advance_lmem (s : State) : s.advance.lmem = s.lmem := rfl
@[simp] theorem State.advance_lmemDraw (s : State) : s.advance.lmemDraw = s.lmemDraw := rfl
@[simp] theorem State.advance_draws (s : State) : s.advance.draws = s.draws := rfl
@[simp] theorem State.advance_turns (s : State) : s.advance.turns = s.turns := rfl
@[simp] theorem State.advance_rdata (s : State) : s.advance.rdata = s.rdata := rfl
@[simp] theorem State.advance_raceReads (s : State) : s.advance.raceReads = s.raceReads := rfl
@[simp] theorem State.advance_race (s : State) : s.advance.race = s.race := rfl

@[simp] theorem State.memWrite_hw (s : State) (a n v : Nat) : (s.memWrite a n v).hw = s.hw := rfl
@[simp] theorem State.memWrite_irqen (s : State) (a n v : Nat) : (s.memWrite a n v).irqen = s.irqen := rfl
@[simp] theorem State.memWrite_status (s : State) (a n v : Nat) : (s.memWrite a n v).status = s.status := rfl
@[simp] theorem State.memWrite_errCause (s : State) (a n v : Nat) : (s.memWrite a n v).errCause = s.errCause := rfl
@[simp] theorem State.memWrite_errPc (s : State) (a n v : Nat) : (s.memWrite a n v).errPc = s.errPc := rfl
@[simp] theorem State.memWrite_errAddr (s : State) (a n v : Nat) : (s.memWrite a n v).errAddr = s.errAddr := rfl
@[simp] theorem State.memWrite_errCmdL (s : State) (a n v : Nat) : (s.memWrite a n v).errCmdL = s.errCmdL := rfl
@[simp] theorem State.memWrite_errCmdH (s : State) (a n v : Nat) : (s.memWrite a n v).errCmdH = s.errCmdH := rfl
@[simp] theorem State.memWrite_pc (s : State) (a n v : Nat) : (s.memWrite a n v).pc = s.pc := rfl
@[simp] theorem State.memWrite_cfg (s : State) (a n v : Nat) : (s.memWrite a n v).cfg = s.cfg := rfl
@[simp] theorem State.memWrite_cparam0 (s : State) (a n v : Nat) : (s.memWrite a n v).cparam0 = s.cparam0 := rfl
@[simp] theorem State.memWrite_cparam1 (s : State) (a n v : Nat) : (s.memWrite a n v).cparam1 = s.cparam1 := rfl
@[simp] theorem State.memWrite_syngain (s : State) (a n v : Nat) : (s.memWrite a n v).syngain = s.syngain := rfl
@[simp] theorem State.memWrite_acfg (s : State) (a n v : Nat) : (s.memWrite a n v).acfg = s.acfg := rfl
@[simp] theorem State.memWrite_acparam0 (s : State) (a n v : Nat) : (s.memWrite a n v).acparam0 = s.acparam0 := rfl
@[simp] theorem State.memWrite_acparam1 (s : State) (a n v : Nat) : (s.memWrite a n v).acparam1 = s.acparam1 := rfl
@[simp] theorem State.memWrite_regs (s : State) (a n v : Nat) : (s.memWrite a n v).regs = s.regs := rfl
@[simp] theorem State.memWrite_w (s : State) (a n v : Nat) : (s.memWrite a n v).w = s.w := rfl
@[simp] theorem State.memWrite_r (s : State) (a n v : Nat) : (s.memWrite a n v).r = s.r := rfl
@[simp] theorem State.memWrite_lut (s : State) (a n v : Nat) : (s.memWrite a n v).lut = s.lut := rfl
@[simp] theorem State.memWrite_consts (s : State) (a n v : Nat) : (s.memWrite a n v).consts = s.consts := rfl
@[simp] theorem State.memWrite_lmem (s : State) (a n v : Nat) : (s.memWrite a n v).lmem = storeBytes s.lmem a (leBytes n v) := rfl
@[simp] theorem State.memWrite_lmemDraw (s : State) (a n v : Nat) : (s.memWrite a n v).lmemDraw = s.lmemDraw := rfl
@[simp] theorem State.memWrite_draws (s : State) (a n v : Nat) : (s.memWrite a n v).draws = s.draws := rfl
@[simp] theorem State.memWrite_turns (s : State) (a n v : Nat) : (s.memWrite a n v).turns = s.turns := rfl
@[simp] theorem State.memWrite_rdata (s : State) (a n v : Nat) : (s.memWrite a n v).rdata = s.rdata := rfl
@[simp] theorem State.memWrite_raceReads (s : State) (a n v : Nat) : (s.memWrite a n v).raceReads = s.raceReads := rfl
@[simp] theorem State.memWrite_race (s : State) (a n v : Nat) : (s.memWrite a n v).race = s.race := rfl

@[simp] theorem State.writeF32_hw (s : State) (a : Word) (v : F32) : (s.writeF32 a v).hw = s.hw := rfl
@[simp] theorem State.writeF32_irqen (s : State) (a : Word) (v : F32) : (s.writeF32 a v).irqen = s.irqen := rfl
@[simp] theorem State.writeF32_status (s : State) (a : Word) (v : F32) : (s.writeF32 a v).status = s.status := rfl
@[simp] theorem State.writeF32_errCause (s : State) (a : Word) (v : F32) : (s.writeF32 a v).errCause = s.errCause := rfl
@[simp] theorem State.writeF32_errPc (s : State) (a : Word) (v : F32) : (s.writeF32 a v).errPc = s.errPc := rfl
@[simp] theorem State.writeF32_errAddr (s : State) (a : Word) (v : F32) : (s.writeF32 a v).errAddr = s.errAddr := rfl
@[simp] theorem State.writeF32_errCmdL (s : State) (a : Word) (v : F32) : (s.writeF32 a v).errCmdL = s.errCmdL := rfl
@[simp] theorem State.writeF32_errCmdH (s : State) (a : Word) (v : F32) : (s.writeF32 a v).errCmdH = s.errCmdH := rfl
@[simp] theorem State.writeF32_pc (s : State) (a : Word) (v : F32) : (s.writeF32 a v).pc = s.pc := rfl
@[simp] theorem State.writeF32_cfg (s : State) (a : Word) (v : F32) : (s.writeF32 a v).cfg = s.cfg := rfl
@[simp] theorem State.writeF32_cparam0 (s : State) (a : Word) (v : F32) : (s.writeF32 a v).cparam0 = s.cparam0 := rfl
@[simp] theorem State.writeF32_cparam1 (s : State) (a : Word) (v : F32) : (s.writeF32 a v).cparam1 = s.cparam1 := rfl
@[simp] theorem State.writeF32_syngain (s : State) (a : Word) (v : F32) : (s.writeF32 a v).syngain = s.syngain := rfl
@[simp] theorem State.writeF32_acfg (s : State) (a : Word) (v : F32) : (s.writeF32 a v).acfg = s.acfg := rfl
@[simp] theorem State.writeF32_acparam0 (s : State) (a : Word) (v : F32) : (s.writeF32 a v).acparam0 = s.acparam0 := rfl
@[simp] theorem State.writeF32_acparam1 (s : State) (a : Word) (v : F32) : (s.writeF32 a v).acparam1 = s.acparam1 := rfl
@[simp] theorem State.writeF32_regs (s : State) (a : Word) (v : F32) : (s.writeF32 a v).regs = s.regs := rfl
@[simp] theorem State.writeF32_w (s : State) (a : Word) (v : F32) : (s.writeF32 a v).w = s.w := rfl
@[simp] theorem State.writeF32_r (s : State) (a : Word) (v : F32) : (s.writeF32 a v).r = s.r := rfl
@[simp] theorem State.writeF32_lut (s : State) (a : Word) (v : F32) : (s.writeF32 a v).lut = s.lut := rfl
@[simp] theorem State.writeF32_consts (s : State) (a : Word) (v : F32) : (s.writeF32 a v).consts = s.consts := rfl
@[simp] theorem State.writeF32_lmem (s : State) (a : Word) (v : F32) : (s.writeF32 a v).lmem = storeBytes s.lmem a.toNat (leBytes 4 (canon v).toNat) := rfl
@[simp] theorem State.writeF32_lmemDraw (s : State) (a : Word) (v : F32) : (s.writeF32 a v).lmemDraw = s.lmemDraw := rfl
@[simp] theorem State.writeF32_draws (s : State) (a : Word) (v : F32) : (s.writeF32 a v).draws = s.draws := rfl
@[simp] theorem State.writeF32_turns (s : State) (a : Word) (v : F32) : (s.writeF32 a v).turns = s.turns := rfl
@[simp] theorem State.writeF32_rdata (s : State) (a : Word) (v : F32) : (s.writeF32 a v).rdata = s.rdata := rfl
@[simp] theorem State.writeF32_raceReads (s : State) (a : Word) (v : F32) : (s.writeF32 a v).raceReads = s.raceReads := rfl
@[simp] theorem State.writeF32_race (s : State) (a : Word) (v : F32) : (s.writeF32 a v).race = s.race := rfl

@[simp] theorem State.writeU16_hw (s : State) (a : Word) (q : Code) : (s.writeU16 a q).hw = s.hw := rfl
@[simp] theorem State.writeU16_irqen (s : State) (a : Word) (q : Code) : (s.writeU16 a q).irqen = s.irqen := rfl
@[simp] theorem State.writeU16_status (s : State) (a : Word) (q : Code) : (s.writeU16 a q).status = s.status := rfl
@[simp] theorem State.writeU16_errCause (s : State) (a : Word) (q : Code) : (s.writeU16 a q).errCause = s.errCause := rfl
@[simp] theorem State.writeU16_errPc (s : State) (a : Word) (q : Code) : (s.writeU16 a q).errPc = s.errPc := rfl
@[simp] theorem State.writeU16_errAddr (s : State) (a : Word) (q : Code) : (s.writeU16 a q).errAddr = s.errAddr := rfl
@[simp] theorem State.writeU16_errCmdL (s : State) (a : Word) (q : Code) : (s.writeU16 a q).errCmdL = s.errCmdL := rfl
@[simp] theorem State.writeU16_errCmdH (s : State) (a : Word) (q : Code) : (s.writeU16 a q).errCmdH = s.errCmdH := rfl
@[simp] theorem State.writeU16_pc (s : State) (a : Word) (q : Code) : (s.writeU16 a q).pc = s.pc := rfl
@[simp] theorem State.writeU16_cfg (s : State) (a : Word) (q : Code) : (s.writeU16 a q).cfg = s.cfg := rfl
@[simp] theorem State.writeU16_cparam0 (s : State) (a : Word) (q : Code) : (s.writeU16 a q).cparam0 = s.cparam0 := rfl
@[simp] theorem State.writeU16_cparam1 (s : State) (a : Word) (q : Code) : (s.writeU16 a q).cparam1 = s.cparam1 := rfl
@[simp] theorem State.writeU16_syngain (s : State) (a : Word) (q : Code) : (s.writeU16 a q).syngain = s.syngain := rfl
@[simp] theorem State.writeU16_acfg (s : State) (a : Word) (q : Code) : (s.writeU16 a q).acfg = s.acfg := rfl
@[simp] theorem State.writeU16_acparam0 (s : State) (a : Word) (q : Code) : (s.writeU16 a q).acparam0 = s.acparam0 := rfl
@[simp] theorem State.writeU16_acparam1 (s : State) (a : Word) (q : Code) : (s.writeU16 a q).acparam1 = s.acparam1 := rfl
@[simp] theorem State.writeU16_regs (s : State) (a : Word) (q : Code) : (s.writeU16 a q).regs = s.regs := rfl
@[simp] theorem State.writeU16_w (s : State) (a : Word) (q : Code) : (s.writeU16 a q).w = s.w := rfl
@[simp] theorem State.writeU16_r (s : State) (a : Word) (q : Code) : (s.writeU16 a q).r = s.r := rfl
@[simp] theorem State.writeU16_lut (s : State) (a : Word) (q : Code) : (s.writeU16 a q).lut = s.lut := rfl
@[simp] theorem State.writeU16_consts (s : State) (a : Word) (q : Code) : (s.writeU16 a q).consts = s.consts := rfl
@[simp] theorem State.writeU16_lmem (s : State) (a : Word) (q : Code) : (s.writeU16 a q).lmem = storeBytes s.lmem a.toNat (leBytes 2 q.toNat) := rfl
@[simp] theorem State.writeU16_lmemDraw (s : State) (a : Word) (q : Code) : (s.writeU16 a q).lmemDraw = s.lmemDraw := rfl
@[simp] theorem State.writeU16_draws (s : State) (a : Word) (q : Code) : (s.writeU16 a q).draws = s.draws := rfl
@[simp] theorem State.writeU16_turns (s : State) (a : Word) (q : Code) : (s.writeU16 a q).turns = s.turns := rfl
@[simp] theorem State.writeU16_rdata (s : State) (a : Word) (q : Code) : (s.writeU16 a q).rdata = s.rdata := rfl
@[simp] theorem State.writeU16_raceReads (s : State) (a : Word) (q : Code) : (s.writeU16 a q).raceReads = s.raceReads := rfl
@[simp] theorem State.writeU16_race (s : State) (a : Word) (q : Code) : (s.writeU16 a q).race = s.race := rfl

@[simp] theorem State.stick_hw (s : State) (q : Quantized) : (s.stick q).hw = s.hw := rfl
@[simp] theorem State.stick_irqen (s : State) (q : Quantized) : (s.stick q).irqen = s.irqen := rfl
@[simp] theorem State.stick_status (s : State) (q : Quantized) : (s.stick q).status = { s.status with nan := s.status.nan || q.nan, sat := s.status.sat || q.sat } := rfl
@[simp] theorem State.stick_errCause (s : State) (q : Quantized) : (s.stick q).errCause = s.errCause := rfl
@[simp] theorem State.stick_errPc (s : State) (q : Quantized) : (s.stick q).errPc = s.errPc := rfl
@[simp] theorem State.stick_errAddr (s : State) (q : Quantized) : (s.stick q).errAddr = s.errAddr := rfl
@[simp] theorem State.stick_errCmdL (s : State) (q : Quantized) : (s.stick q).errCmdL = s.errCmdL := rfl
@[simp] theorem State.stick_errCmdH (s : State) (q : Quantized) : (s.stick q).errCmdH = s.errCmdH := rfl
@[simp] theorem State.stick_pc (s : State) (q : Quantized) : (s.stick q).pc = s.pc := rfl
@[simp] theorem State.stick_cfg (s : State) (q : Quantized) : (s.stick q).cfg = s.cfg := rfl
@[simp] theorem State.stick_cparam0 (s : State) (q : Quantized) : (s.stick q).cparam0 = s.cparam0 := rfl
@[simp] theorem State.stick_cparam1 (s : State) (q : Quantized) : (s.stick q).cparam1 = s.cparam1 := rfl
@[simp] theorem State.stick_syngain (s : State) (q : Quantized) : (s.stick q).syngain = s.syngain := rfl
@[simp] theorem State.stick_acfg (s : State) (q : Quantized) : (s.stick q).acfg = s.acfg := rfl
@[simp] theorem State.stick_acparam0 (s : State) (q : Quantized) : (s.stick q).acparam0 = s.acparam0 := rfl
@[simp] theorem State.stick_acparam1 (s : State) (q : Quantized) : (s.stick q).acparam1 = s.acparam1 := rfl
@[simp] theorem State.stick_regs (s : State) (q : Quantized) : (s.stick q).regs = s.regs := rfl
@[simp] theorem State.stick_w (s : State) (q : Quantized) : (s.stick q).w = s.w := rfl
@[simp] theorem State.stick_r (s : State) (q : Quantized) : (s.stick q).r = s.r := rfl
@[simp] theorem State.stick_lut (s : State) (q : Quantized) : (s.stick q).lut = s.lut := rfl
@[simp] theorem State.stick_consts (s : State) (q : Quantized) : (s.stick q).consts = s.consts := rfl
@[simp] theorem State.stick_lmem (s : State) (q : Quantized) : (s.stick q).lmem = s.lmem := rfl
@[simp] theorem State.stick_lmemDraw (s : State) (q : Quantized) : (s.stick q).lmemDraw = s.lmemDraw := rfl
@[simp] theorem State.stick_draws (s : State) (q : Quantized) : (s.stick q).draws = s.draws := rfl
@[simp] theorem State.stick_turns (s : State) (q : Quantized) : (s.stick q).turns = s.turns := rfl
@[simp] theorem State.stick_rdata (s : State) (q : Quantized) : (s.stick q).rdata = s.rdata := rfl
@[simp] theorem State.stick_raceReads (s : State) (q : Quantized) : (s.stick q).raceReads = s.raceReads := rfl
@[simp] theorem State.stick_race (s : State) (q : Quantized) : (s.stick q).race = s.race := rfl

@[simp] theorem State.endRun_hw (s : State) : s.endRun.hw = s.hw := rfl
@[simp] theorem State.endRun_irqen (s : State) : s.endRun.irqen = s.irqen := rfl
@[simp] theorem State.endRun_status (s : State) : s.endRun.status = s.status := rfl
@[simp] theorem State.endRun_errCause (s : State) : s.endRun.errCause = s.errCause := rfl
@[simp] theorem State.endRun_errPc (s : State) : s.endRun.errPc = s.errPc := rfl
@[simp] theorem State.endRun_errAddr (s : State) : s.endRun.errAddr = s.errAddr := rfl
@[simp] theorem State.endRun_errCmdL (s : State) : s.endRun.errCmdL = s.errCmdL := rfl
@[simp] theorem State.endRun_errCmdH (s : State) : s.endRun.errCmdH = s.errCmdH := rfl
@[simp] theorem State.endRun_pc (s : State) : s.endRun.pc = s.pc := rfl
@[simp] theorem State.endRun_cfg (s : State) : s.endRun.cfg = s.cfg := rfl
@[simp] theorem State.endRun_cparam0 (s : State) : s.endRun.cparam0 = s.cparam0 := rfl
@[simp] theorem State.endRun_cparam1 (s : State) : s.endRun.cparam1 = s.cparam1 := rfl
@[simp] theorem State.endRun_syngain (s : State) : s.endRun.syngain = s.syngain := rfl
@[simp] theorem State.endRun_acfg (s : State) : s.endRun.acfg = s.acfg := rfl
@[simp] theorem State.endRun_acparam0 (s : State) : s.endRun.acparam0 = s.acparam0 := rfl
@[simp] theorem State.endRun_acparam1 (s : State) : s.endRun.acparam1 = s.acparam1 := rfl
@[simp] theorem State.endRun_regs (s : State) : s.endRun.regs = s.regs := rfl
@[simp] theorem State.endRun_w (s : State) : s.endRun.w = s.w := rfl
@[simp] theorem State.endRun_r (s : State) : s.endRun.r = s.r := rfl
@[simp] theorem State.endRun_lut (s : State) : s.endRun.lut = s.lut := rfl
@[simp] theorem State.endRun_consts (s : State) : s.endRun.consts = s.consts := rfl
@[simp] theorem State.endRun_lmem (s : State) : s.endRun.lmem = s.race.raced.foldl (redrawSpan s.draws) s.lmem := rfl
@[simp] theorem State.endRun_lmemDraw (s : State) : s.endRun.lmemDraw = s.lmemDraw := rfl
@[simp] theorem State.endRun_draws (s : State) : s.endRun.draws = if s.race.raced = [] then s.draws else s.draws + 1 := rfl
@[simp] theorem State.endRun_turns (s : State) : s.endRun.turns = s.turns := rfl
@[simp] theorem State.endRun_rdata (s : State) :
    s.endRun.rdata = if s.race.lastRead then (s.race.reads.map (HostRead.settled s.race.wrote)).headD s.rdata else s.rdata := rfl
@[simp] theorem State.endRun_raceReads (s : State) : s.endRun.raceReads = s.race.reads.map (HostRead.settled s.race.wrote) ++ s.raceReads := rfl
@[simp] theorem State.endRun_race (s : State) : s.endRun.race = noRaces := rfl

@[simp] theorem State.follow_hw (s : State) (i : Instr) (t : State) : (s.follow i t).hw = t.hw := by
  unfold State.follow; split <;> rfl
@[simp] theorem State.follow_irqen (s : State) (i : Instr) (t : State) : (s.follow i t).irqen = t.irqen := by
  unfold State.follow; split <;> rfl
@[simp] theorem State.follow_status (s : State) (i : Instr) (t : State) : (s.follow i t).status = t.status := by
  unfold State.follow; split <;> rfl
@[simp] theorem State.follow_errCause (s : State) (i : Instr) (t : State) : (s.follow i t).errCause = t.errCause := by
  unfold State.follow; split <;> rfl
@[simp] theorem State.follow_errPc (s : State) (i : Instr) (t : State) : (s.follow i t).errPc = t.errPc := by
  unfold State.follow; split <;> rfl
@[simp] theorem State.follow_errAddr (s : State) (i : Instr) (t : State) : (s.follow i t).errAddr = t.errAddr := by
  unfold State.follow; split <;> rfl
@[simp] theorem State.follow_errCmdL (s : State) (i : Instr) (t : State) : (s.follow i t).errCmdL = t.errCmdL := by
  unfold State.follow; split <;> rfl
@[simp] theorem State.follow_errCmdH (s : State) (i : Instr) (t : State) : (s.follow i t).errCmdH = t.errCmdH := by
  unfold State.follow; split <;> rfl
@[simp] theorem State.follow_pc (s : State) (i : Instr) (t : State) : (s.follow i t).pc = t.pc := by
  unfold State.follow; split <;> rfl
@[simp] theorem State.follow_cfg (s : State) (i : Instr) (t : State) : (s.follow i t).cfg = t.cfg := by
  unfold State.follow; split <;> rfl
@[simp] theorem State.follow_cparam0 (s : State) (i : Instr) (t : State) : (s.follow i t).cparam0 = t.cparam0 := by
  unfold State.follow; split <;> rfl
@[simp] theorem State.follow_cparam1 (s : State) (i : Instr) (t : State) : (s.follow i t).cparam1 = t.cparam1 := by
  unfold State.follow; split <;> rfl
@[simp] theorem State.follow_syngain (s : State) (i : Instr) (t : State) : (s.follow i t).syngain = t.syngain := by
  unfold State.follow; split <;> rfl
@[simp] theorem State.follow_acfg (s : State) (i : Instr) (t : State) : (s.follow i t).acfg = t.acfg := by
  unfold State.follow; split <;> rfl
@[simp] theorem State.follow_acparam0 (s : State) (i : Instr) (t : State) : (s.follow i t).acparam0 = t.acparam0 := by
  unfold State.follow; split <;> rfl
@[simp] theorem State.follow_acparam1 (s : State) (i : Instr) (t : State) : (s.follow i t).acparam1 = t.acparam1 := by
  unfold State.follow; split <;> rfl
@[simp] theorem State.follow_regs (s : State) (i : Instr) (t : State) : (s.follow i t).regs = t.regs := by
  unfold State.follow; split <;> rfl
@[simp] theorem State.follow_w (s : State) (i : Instr) (t : State) : (s.follow i t).w = t.w := by
  unfold State.follow; split <;> rfl
@[simp] theorem State.follow_r (s : State) (i : Instr) (t : State) : (s.follow i t).r = t.r := by
  unfold State.follow; split <;> rfl
@[simp] theorem State.follow_lut (s : State) (i : Instr) (t : State) : (s.follow i t).lut = t.lut := by
  unfold State.follow; split <;> rfl
@[simp] theorem State.follow_consts (s : State) (i : Instr) (t : State) : (s.follow i t).consts = t.consts := by
  unfold State.follow; split <;> rfl
@[simp] theorem State.follow_lmemDraw (s : State) (i : Instr) (t : State) : (s.follow i t).lmemDraw = t.lmemDraw := by
  unfold State.follow; split <;> rfl
@[simp] theorem State.follow_turns (s : State) (i : Instr) (t : State) : (s.follow i t).turns = t.turns := by
  unfold State.follow; split <;> rfl

@[simp] theorem State.raise_hw (s : State) (c : Cause) (a : Word) (cmd : Command) : (s.raise c a cmd).hw = s.hw := rfl
@[simp] theorem State.raise_irqen (s : State) (c : Cause) (a : Word) (cmd : Command) : (s.raise c a cmd).irqen = s.irqen := rfl
@[simp] theorem State.raise_status (s : State) (c : Cause) (a : Word) (cmd : Command) : (s.raise c a cmd).status = { s.status with busy := false, err := true } := rfl
@[simp] theorem State.raise_errCause (s : State) (c : Cause) (a : Word) (cmd : Command) : (s.raise c a cmd).errCause = c := rfl
@[simp] theorem State.raise_errPc (s : State) (c : Cause) (a : Word) (cmd : Command) : (s.raise c a cmd).errPc = s.pc := rfl
@[simp] theorem State.raise_errAddr (s : State) (c : Cause) (a : Word) (cmd : Command) : (s.raise c a cmd).errAddr = a := rfl
@[simp] theorem State.raise_errCmdL (s : State) (c : Cause) (a : Word) (cmd : Command) : (s.raise c a cmd).errCmdL = cmd.extractLsb' 0 32 := rfl
@[simp] theorem State.raise_errCmdH (s : State) (c : Cause) (a : Word) (cmd : Command) : (s.raise c a cmd).errCmdH = cmd.extractLsb' 32 32 := rfl
@[simp] theorem State.raise_pc (s : State) (c : Cause) (a : Word) (cmd : Command) : (s.raise c a cmd).pc = s.pc := rfl
@[simp] theorem State.raise_cfg (s : State) (c : Cause) (a : Word) (cmd : Command) : (s.raise c a cmd).cfg = s.cfg := rfl
@[simp] theorem State.raise_cparam0 (s : State) (c : Cause) (a : Word) (cmd : Command) : (s.raise c a cmd).cparam0 = s.cparam0 := rfl
@[simp] theorem State.raise_cparam1 (s : State) (c : Cause) (a : Word) (cmd : Command) : (s.raise c a cmd).cparam1 = s.cparam1 := rfl
@[simp] theorem State.raise_syngain (s : State) (c : Cause) (a : Word) (cmd : Command) : (s.raise c a cmd).syngain = s.syngain := rfl
@[simp] theorem State.raise_acfg (s : State) (c : Cause) (a : Word) (cmd : Command) : (s.raise c a cmd).acfg = s.acfg := rfl
@[simp] theorem State.raise_acparam0 (s : State) (c : Cause) (a : Word) (cmd : Command) : (s.raise c a cmd).acparam0 = s.acparam0 := rfl
@[simp] theorem State.raise_acparam1 (s : State) (c : Cause) (a : Word) (cmd : Command) : (s.raise c a cmd).acparam1 = s.acparam1 := rfl
@[simp] theorem State.raise_regs (s : State) (c : Cause) (a : Word) (cmd : Command) : (s.raise c a cmd).regs = s.regs := rfl
@[simp] theorem State.raise_w (s : State) (c : Cause) (a : Word) (cmd : Command) : (s.raise c a cmd).w = s.w := rfl
@[simp] theorem State.raise_r (s : State) (c : Cause) (a : Word) (cmd : Command) : (s.raise c a cmd).r = s.r := rfl
@[simp] theorem State.raise_lut (s : State) (c : Cause) (a : Word) (cmd : Command) : (s.raise c a cmd).lut = s.lut := rfl
@[simp] theorem State.raise_consts (s : State) (c : Cause) (a : Word) (cmd : Command) : (s.raise c a cmd).consts = s.consts := rfl
@[simp] theorem State.raise_lmem (s : State) (c : Cause) (a : Word) (cmd : Command) : (s.raise c a cmd).lmem = s.lmem := rfl
@[simp] theorem State.raise_lmemDraw (s : State) (c : Cause) (a : Word) (cmd : Command) : (s.raise c a cmd).lmemDraw = s.lmemDraw := rfl
@[simp] theorem State.raise_draws (s : State) (c : Cause) (a : Word) (cmd : Command) : (s.raise c a cmd).draws = s.draws := rfl
@[simp] theorem State.raise_turns (s : State) (c : Cause) (a : Word) (cmd : Command) : (s.raise c a cmd).turns = s.turns := rfl
@[simp] theorem State.raise_rdata (s : State) (c : Cause) (a : Word) (cmd : Command) : (s.raise c a cmd).rdata = s.rdata := rfl
@[simp] theorem State.raise_raceReads (s : State) (c : Cause) (a : Word) (cmd : Command) : (s.raise c a cmd).raceReads = s.raceReads := rfl
@[simp] theorem State.raise_race (s : State) (c : Cause) (a : Word) (cmd : Command) : (s.raise c a cmd).race = s.race := rfl

@[simp] theorem State.configure_hw (s : State) (m : Method) (win : Window) (k : CurveConsts) : (s.configure m win k).hw = s.hw := rfl
@[simp] theorem State.configure_irqen (s : State) (m : Method) (win : Window) (k : CurveConsts) : (s.configure m win k).irqen = s.irqen := rfl
@[simp] theorem State.configure_status (s : State) (m : Method) (win : Window) (k : CurveConsts) : (s.configure m win k).status = { s.status with cfgok := true } := rfl
@[simp] theorem State.configure_errCause (s : State) (m : Method) (win : Window) (k : CurveConsts) : (s.configure m win k).errCause = s.errCause := rfl
@[simp] theorem State.configure_errPc (s : State) (m : Method) (win : Window) (k : CurveConsts) : (s.configure m win k).errPc = s.errPc := rfl
@[simp] theorem State.configure_errAddr (s : State) (m : Method) (win : Window) (k : CurveConsts) : (s.configure m win k).errAddr = s.errAddr := rfl
@[simp] theorem State.configure_errCmdL (s : State) (m : Method) (win : Window) (k : CurveConsts) : (s.configure m win k).errCmdL = s.errCmdL := rfl
@[simp] theorem State.configure_errCmdH (s : State) (m : Method) (win : Window) (k : CurveConsts) : (s.configure m win k).errCmdH = s.errCmdH := rfl
@[simp] theorem State.configure_pc (s : State) (m : Method) (win : Window) (k : CurveConsts) : (s.configure m win k).pc = s.pc := rfl
@[simp] theorem State.configure_cfg (s : State) (m : Method) (win : Window) (k : CurveConsts) : (s.configure m win k).cfg = s.cfg := rfl
@[simp] theorem State.configure_cparam0 (s : State) (m : Method) (win : Window) (k : CurveConsts) : (s.configure m win k).cparam0 = s.cparam0 := rfl
@[simp] theorem State.configure_cparam1 (s : State) (m : Method) (win : Window) (k : CurveConsts) : (s.configure m win k).cparam1 = s.cparam1 := rfl
@[simp] theorem State.configure_syngain (s : State) (m : Method) (win : Window) (k : CurveConsts) : (s.configure m win k).syngain = u2f (8 * ((2 ^ blkLog2 s.cfg : Nat) : Int)) := rfl
@[simp] theorem State.configure_acfg (s : State) (m : Method) (win : Window) (k : CurveConsts) : (s.configure m win k).acfg = s.cfg := rfl
@[simp] theorem State.configure_acparam0 (s : State) (m : Method) (win : Window) (k : CurveConsts) : (s.configure m win k).acparam0 = s.cparam0 := rfl
@[simp] theorem State.configure_acparam1 (s : State) (m : Method) (win : Window) (k : CurveConsts) : (s.configure m win k).acparam1 = s.cparam1 := rfl
@[simp] theorem State.configure_regs (s : State) (m : Method) (win : Window) (k : CurveConsts) : (s.configure m win k).regs = s.regs := rfl
@[simp] theorem State.configure_w (s : State) (m : Method) (win : Window) (k : CurveConsts) : (s.configure m win k).w = windowTable s.hw.num win (2 ^ blkLog2 s.cfg) := rfl
@[simp] theorem State.configure_r (s : State) (m : Method) (win : Window) (k : CurveConsts) : (s.configure m win k).r = normTable (windowTable s.hw.num win (2 ^ blkLog2 s.cfg)) (2 ^ blkLog2 s.cfg) := rfl
@[simp] theorem State.configure_lut (s : State) (m : Method) (win : Window) (k : CurveConsts) : (s.configure m win k).lut = buildLut m k s.cparam0 s.lut := rfl
@[simp] theorem State.configure_consts (s : State) (m : Method) (win : Window) (k : CurveConsts) : (s.configure m win k).consts = k := rfl
@[simp] theorem State.configure_lmem (s : State) (m : Method) (win : Window) (k : CurveConsts) : (s.configure m win k).lmem = s.lmem := rfl
@[simp] theorem State.configure_lmemDraw (s : State) (m : Method) (win : Window) (k : CurveConsts) : (s.configure m win k).lmemDraw = s.lmemDraw := rfl
@[simp] theorem State.configure_draws (s : State) (m : Method) (win : Window) (k : CurveConsts) : (s.configure m win k).draws = s.draws := rfl
@[simp] theorem State.configure_turns (s : State) (m : Method) (win : Window) (k : CurveConsts) : (s.configure m win k).turns = s.turns := rfl
@[simp] theorem State.configure_rdata (s : State) (m : Method) (win : Window) (k : CurveConsts) : (s.configure m win k).rdata = s.rdata := rfl
@[simp] theorem State.configure_raceReads (s : State) (m : Method) (win : Window) (k : CurveConsts) : (s.configure m win k).raceReads = s.raceReads := rfl
@[simp] theorem State.configure_race (s : State) (m : Method) (win : Window) (k : CurveConsts) : (s.configure m win k).race = s.race := rfl

@[simp] theorem State.writeSamples_hw (s : State) (a : Word) (l : List F32) : (s.writeSamples a l).hw = s.hw := by
  induction l generalizing s a with
  | nil => rfl
  | cons v l ih => exact ih _ _
@[simp] theorem State.writeSamples_irqen (s : State) (a : Word) (l : List F32) : (s.writeSamples a l).irqen = s.irqen := by
  induction l generalizing s a with
  | nil => rfl
  | cons v l ih => exact ih _ _
@[simp] theorem State.writeSamples_status (s : State) (a : Word) (l : List F32) : (s.writeSamples a l).status = s.status := by
  induction l generalizing s a with
  | nil => rfl
  | cons v l ih => exact ih _ _
@[simp] theorem State.writeSamples_errCause (s : State) (a : Word) (l : List F32) : (s.writeSamples a l).errCause = s.errCause := by
  induction l generalizing s a with
  | nil => rfl
  | cons v l ih => exact ih _ _
@[simp] theorem State.writeSamples_errPc (s : State) (a : Word) (l : List F32) : (s.writeSamples a l).errPc = s.errPc := by
  induction l generalizing s a with
  | nil => rfl
  | cons v l ih => exact ih _ _
@[simp] theorem State.writeSamples_errAddr (s : State) (a : Word) (l : List F32) : (s.writeSamples a l).errAddr = s.errAddr := by
  induction l generalizing s a with
  | nil => rfl
  | cons v l ih => exact ih _ _
@[simp] theorem State.writeSamples_errCmdL (s : State) (a : Word) (l : List F32) : (s.writeSamples a l).errCmdL = s.errCmdL := by
  induction l generalizing s a with
  | nil => rfl
  | cons v l ih => exact ih _ _
@[simp] theorem State.writeSamples_errCmdH (s : State) (a : Word) (l : List F32) : (s.writeSamples a l).errCmdH = s.errCmdH := by
  induction l generalizing s a with
  | nil => rfl
  | cons v l ih => exact ih _ _
@[simp] theorem State.writeSamples_pc (s : State) (a : Word) (l : List F32) : (s.writeSamples a l).pc = s.pc := by
  induction l generalizing s a with
  | nil => rfl
  | cons v l ih => exact ih _ _
@[simp] theorem State.writeSamples_cfg (s : State) (a : Word) (l : List F32) : (s.writeSamples a l).cfg = s.cfg := by
  induction l generalizing s a with
  | nil => rfl
  | cons v l ih => exact ih _ _
@[simp] theorem State.writeSamples_cparam0 (s : State) (a : Word) (l : List F32) : (s.writeSamples a l).cparam0 = s.cparam0 := by
  induction l generalizing s a with
  | nil => rfl
  | cons v l ih => exact ih _ _
@[simp] theorem State.writeSamples_cparam1 (s : State) (a : Word) (l : List F32) : (s.writeSamples a l).cparam1 = s.cparam1 := by
  induction l generalizing s a with
  | nil => rfl
  | cons v l ih => exact ih _ _
@[simp] theorem State.writeSamples_syngain (s : State) (a : Word) (l : List F32) : (s.writeSamples a l).syngain = s.syngain := by
  induction l generalizing s a with
  | nil => rfl
  | cons v l ih => exact ih _ _
@[simp] theorem State.writeSamples_acfg (s : State) (a : Word) (l : List F32) : (s.writeSamples a l).acfg = s.acfg := by
  induction l generalizing s a with
  | nil => rfl
  | cons v l ih => exact ih _ _
@[simp] theorem State.writeSamples_acparam0 (s : State) (a : Word) (l : List F32) : (s.writeSamples a l).acparam0 = s.acparam0 := by
  induction l generalizing s a with
  | nil => rfl
  | cons v l ih => exact ih _ _
@[simp] theorem State.writeSamples_acparam1 (s : State) (a : Word) (l : List F32) : (s.writeSamples a l).acparam1 = s.acparam1 := by
  induction l generalizing s a with
  | nil => rfl
  | cons v l ih => exact ih _ _
@[simp] theorem State.writeSamples_regs (s : State) (a : Word) (l : List F32) : (s.writeSamples a l).regs = s.regs := by
  induction l generalizing s a with
  | nil => rfl
  | cons v l ih => exact ih _ _
@[simp] theorem State.writeSamples_w (s : State) (a : Word) (l : List F32) : (s.writeSamples a l).w = s.w := by
  induction l generalizing s a with
  | nil => rfl
  | cons v l ih => exact ih _ _
@[simp] theorem State.writeSamples_r (s : State) (a : Word) (l : List F32) : (s.writeSamples a l).r = s.r := by
  induction l generalizing s a with
  | nil => rfl
  | cons v l ih => exact ih _ _
@[simp] theorem State.writeSamples_lut (s : State) (a : Word) (l : List F32) : (s.writeSamples a l).lut = s.lut := by
  induction l generalizing s a with
  | nil => rfl
  | cons v l ih => exact ih _ _
@[simp] theorem State.writeSamples_consts (s : State) (a : Word) (l : List F32) : (s.writeSamples a l).consts = s.consts := by
  induction l generalizing s a with
  | nil => rfl
  | cons v l ih => exact ih _ _
@[simp] theorem State.writeSamples_lmemDraw (s : State) (a : Word) (l : List F32) : (s.writeSamples a l).lmemDraw = s.lmemDraw := by
  induction l generalizing s a with
  | nil => rfl
  | cons v l ih => exact ih _ _
@[simp] theorem State.writeSamples_draws (s : State) (a : Word) (l : List F32) : (s.writeSamples a l).draws = s.draws := by
  induction l generalizing s a with
  | nil => rfl
  | cons v l ih => exact ih _ _
@[simp] theorem State.writeSamples_turns (s : State) (a : Word) (l : List F32) : (s.writeSamples a l).turns = s.turns := by
  induction l generalizing s a with
  | nil => rfl
  | cons v l ih => exact ih _ _
@[simp] theorem State.writeSamples_rdata (s : State) (a : Word) (l : List F32) : (s.writeSamples a l).rdata = s.rdata := by
  induction l generalizing s a with
  | nil => rfl
  | cons v l ih => exact ih _ _
@[simp] theorem State.writeSamples_raceReads (s : State) (a : Word) (l : List F32) : (s.writeSamples a l).raceReads = s.raceReads := by
  induction l generalizing s a with
  | nil => rfl
  | cons v l ih => exact ih _ _
@[simp] theorem State.writeSamples_race (s : State) (a : Word) (l : List F32) : (s.writeSamples a l).race = s.race := by
  induction l generalizing s a with
  | nil => rfl
  | cons v l ih => exact ih _ _

@[simp] theorem State.writeCodes_hw (s : State) (a : Word) (l : List Code) : (s.writeCodes a l).hw = s.hw := by
  induction l generalizing s a with
  | nil => rfl
  | cons v l ih => exact ih _ _
@[simp] theorem State.writeCodes_irqen (s : State) (a : Word) (l : List Code) : (s.writeCodes a l).irqen = s.irqen := by
  induction l generalizing s a with
  | nil => rfl
  | cons v l ih => exact ih _ _
@[simp] theorem State.writeCodes_status (s : State) (a : Word) (l : List Code) : (s.writeCodes a l).status = s.status := by
  induction l generalizing s a with
  | nil => rfl
  | cons v l ih => exact ih _ _
@[simp] theorem State.writeCodes_errCause (s : State) (a : Word) (l : List Code) : (s.writeCodes a l).errCause = s.errCause := by
  induction l generalizing s a with
  | nil => rfl
  | cons v l ih => exact ih _ _
@[simp] theorem State.writeCodes_errPc (s : State) (a : Word) (l : List Code) : (s.writeCodes a l).errPc = s.errPc := by
  induction l generalizing s a with
  | nil => rfl
  | cons v l ih => exact ih _ _
@[simp] theorem State.writeCodes_errAddr (s : State) (a : Word) (l : List Code) : (s.writeCodes a l).errAddr = s.errAddr := by
  induction l generalizing s a with
  | nil => rfl
  | cons v l ih => exact ih _ _
@[simp] theorem State.writeCodes_errCmdL (s : State) (a : Word) (l : List Code) : (s.writeCodes a l).errCmdL = s.errCmdL := by
  induction l generalizing s a with
  | nil => rfl
  | cons v l ih => exact ih _ _
@[simp] theorem State.writeCodes_errCmdH (s : State) (a : Word) (l : List Code) : (s.writeCodes a l).errCmdH = s.errCmdH := by
  induction l generalizing s a with
  | nil => rfl
  | cons v l ih => exact ih _ _
@[simp] theorem State.writeCodes_pc (s : State) (a : Word) (l : List Code) : (s.writeCodes a l).pc = s.pc := by
  induction l generalizing s a with
  | nil => rfl
  | cons v l ih => exact ih _ _
@[simp] theorem State.writeCodes_cfg (s : State) (a : Word) (l : List Code) : (s.writeCodes a l).cfg = s.cfg := by
  induction l generalizing s a with
  | nil => rfl
  | cons v l ih => exact ih _ _
@[simp] theorem State.writeCodes_cparam0 (s : State) (a : Word) (l : List Code) : (s.writeCodes a l).cparam0 = s.cparam0 := by
  induction l generalizing s a with
  | nil => rfl
  | cons v l ih => exact ih _ _
@[simp] theorem State.writeCodes_cparam1 (s : State) (a : Word) (l : List Code) : (s.writeCodes a l).cparam1 = s.cparam1 := by
  induction l generalizing s a with
  | nil => rfl
  | cons v l ih => exact ih _ _
@[simp] theorem State.writeCodes_syngain (s : State) (a : Word) (l : List Code) : (s.writeCodes a l).syngain = s.syngain := by
  induction l generalizing s a with
  | nil => rfl
  | cons v l ih => exact ih _ _
@[simp] theorem State.writeCodes_acfg (s : State) (a : Word) (l : List Code) : (s.writeCodes a l).acfg = s.acfg := by
  induction l generalizing s a with
  | nil => rfl
  | cons v l ih => exact ih _ _
@[simp] theorem State.writeCodes_acparam0 (s : State) (a : Word) (l : List Code) : (s.writeCodes a l).acparam0 = s.acparam0 := by
  induction l generalizing s a with
  | nil => rfl
  | cons v l ih => exact ih _ _
@[simp] theorem State.writeCodes_acparam1 (s : State) (a : Word) (l : List Code) : (s.writeCodes a l).acparam1 = s.acparam1 := by
  induction l generalizing s a with
  | nil => rfl
  | cons v l ih => exact ih _ _
@[simp] theorem State.writeCodes_regs (s : State) (a : Word) (l : List Code) : (s.writeCodes a l).regs = s.regs := by
  induction l generalizing s a with
  | nil => rfl
  | cons v l ih => exact ih _ _
@[simp] theorem State.writeCodes_w (s : State) (a : Word) (l : List Code) : (s.writeCodes a l).w = s.w := by
  induction l generalizing s a with
  | nil => rfl
  | cons v l ih => exact ih _ _
@[simp] theorem State.writeCodes_r (s : State) (a : Word) (l : List Code) : (s.writeCodes a l).r = s.r := by
  induction l generalizing s a with
  | nil => rfl
  | cons v l ih => exact ih _ _
@[simp] theorem State.writeCodes_lut (s : State) (a : Word) (l : List Code) : (s.writeCodes a l).lut = s.lut := by
  induction l generalizing s a with
  | nil => rfl
  | cons v l ih => exact ih _ _
@[simp] theorem State.writeCodes_consts (s : State) (a : Word) (l : List Code) : (s.writeCodes a l).consts = s.consts := by
  induction l generalizing s a with
  | nil => rfl
  | cons v l ih => exact ih _ _
@[simp] theorem State.writeCodes_lmemDraw (s : State) (a : Word) (l : List Code) : (s.writeCodes a l).lmemDraw = s.lmemDraw := by
  induction l generalizing s a with
  | nil => rfl
  | cons v l ih => exact ih _ _
@[simp] theorem State.writeCodes_draws (s : State) (a : Word) (l : List Code) : (s.writeCodes a l).draws = s.draws := by
  induction l generalizing s a with
  | nil => rfl
  | cons v l ih => exact ih _ _
@[simp] theorem State.writeCodes_turns (s : State) (a : Word) (l : List Code) : (s.writeCodes a l).turns = s.turns := by
  induction l generalizing s a with
  | nil => rfl
  | cons v l ih => exact ih _ _
@[simp] theorem State.writeCodes_rdata (s : State) (a : Word) (l : List Code) : (s.writeCodes a l).rdata = s.rdata := by
  induction l generalizing s a with
  | nil => rfl
  | cons v l ih => exact ih _ _
@[simp] theorem State.writeCodes_raceReads (s : State) (a : Word) (l : List Code) : (s.writeCodes a l).raceReads = s.raceReads := by
  induction l generalizing s a with
  | nil => rfl
  | cons v l ih => exact ih _ _
@[simp] theorem State.writeCodes_race (s : State) (a : Word) (l : List Code) : (s.writeCodes a l).race = s.race := by
  induction l generalizing s a with
  | nil => rfl
  | cons v l ih => exact ih _ _

end Sys2Proof.Machine
end

