-- ==== Sys2Proof/Laws/Memory.lean ====
section
/-! SUPPORT. LMEM: every write keeps the canonical form, a read after a write gives what was written, and a write leaves every other
byte alone (spec/20_memory.md R82, R83). -/

namespace Sys2Proof.Machine

/-! ### The list of written bytes -/

@[simp] theorem Memory.get?_set_same (m : Memory) (a : Nat) (v : Byte) : Memory.get? (Memory.set m a v) a = some v := by
  induction m with
  | nil => simp [Memory.set, Memory.get?]
  | cons c m ih =>
    obtain ⟨b, w⟩ := c
    unfold Memory.set
    split
    · simp [Memory.get?]
    · split
      · simp [Memory.get?]
      · simp [Memory.get?, *]

theorem Memory.get?_set_other (m : Memory) {a c : Nat} (v : Byte) (h : c ≠ a) :
    Memory.get? (Memory.set m a v) c = Memory.get? m c := by
  induction m with
  | nil => simp [Memory.set, Memory.get?, h]
  | cons p m ih =>
    obtain ⟨b, w⟩ := p
    unfold Memory.set
    split
    · subst_vars; simp [Memory.get?, h]
    · split
      · simp only [Memory.get?, h, if_false]
        split
        · have hb : c ≠ b := by omega
          have hc : c < b := by omega
          simp [hb, hc]
        · rfl
      · simp only [Memory.get?, ih]

theorem Memory.wfFrom_set {m : Memory} {l a : Nat} {v : Byte} (hl : l < a) (h : Memory.wfFrom l m = true) :
    Memory.wfFrom l (Memory.set m a v) = true := by
  induction m generalizing l with
  | nil => simp [Memory.set, Memory.wfFrom, hl]
  | cons p m ih =>
    obtain ⟨b, w⟩ := p
    simp only [Memory.wfFrom, Bool.and_eq_true, decide_eq_true_eq] at h
    unfold Memory.set
    split
    · subst_vars; simp [Memory.wfFrom, h]
    · split
      · simp [Memory.wfFrom, *]
      · have hb : b < a := by omega
        simp [Memory.wfFrom, h, ih hb h.2]

/-- A write keeps the canonical form. -/
theorem Memory.wf_set {m : Memory} (a : Nat) (v : Byte) (h : Memory.wf m = true) : Memory.wf (Memory.set m a v) = true := by
  cases m with
  | nil => rfl
  | cons p m =>
    obtain ⟨b, w⟩ := p
    simp only [Memory.wf] at h
    unfold Memory.set
    split
    · subst_vars; simpa [Memory.wf] using h
    · split
      · simp [Memory.wf, Memory.wfFrom, *]
      · simp only [Memory.wf]
        exact Memory.wfFrom_set (by omega) h

/-- A write below n keeps every listed address below n. -/
theorem Memory.below_set {m : Memory} {n a : Nat} (v : Byte) (ha : a < n) (h : Memory.below n m = true) :
    Memory.below n (Memory.set m a v) = true := by
  induction m with
  | nil => simp [Memory.set, Memory.below, ha]
  | cons p m ih =>
    obtain ⟨b, w⟩ := p
    simp only [Memory.below, List.all_cons, Bool.and_eq_true, decide_eq_true_eq] at h
    unfold Memory.set
    split
    · simp [Memory.below, ha, h.2]
    · split
      · simp [Memory.below, ha, h.1, h.2]
      · have := ih h.2
        simp only [Memory.below] at this
        simp [Memory.below, h.1, this]

/-! ### Runs of bytes -/

theorem get?_storeBytes_outside (m : Memory) (bs : List Byte) {a c : Nat} (h : c < a ∨ a + bs.length ≤ c) :
    Memory.get? (storeBytes m a bs) c = Memory.get? m c := by
  induction bs generalizing m a with
  | nil => rfl
  | cons b bs ih =>
    simp only [List.length_cons] at h
    rw [storeBytes, ih _ (by omega), Memory.get?_set_other _ _ (by omega)]

theorem get?_storeBytes_inside (m : Memory) (bs : List Byte) (a i : Nat) (h : i < bs.length) :
    Memory.get? (storeBytes m a bs) (a + i) = some bs[i] := by
  induction bs generalizing m a i with
  | nil => simp at h
  | cons b bs ih =>
    cases i with
    | zero => rw [storeBytes, get?_storeBytes_outside _ _ (by omega)]; simp
    | succ i =>
      have := ih (Memory.set m a b) (a + 1) i (by simpa using h)
      rw [storeBytes, show a + (i + 1) = a + 1 + i by omega, this]; simp

theorem wf_storeBytes {m : Memory} (a : Nat) (bs : List Byte) (h : Memory.wf m = true) :
    Memory.wf (storeBytes m a bs) = true := by
  induction bs generalizing m a with
  | nil => exact h
  | cons b bs ih => exact ih _ (Memory.wf_set a b h)

theorem below_storeBytes {m : Memory} {n a : Nat} (bs : List Byte) (ha : a + bs.length ≤ n) (h : Memory.below n m = true) :
    Memory.below n (storeBytes m a bs) = true := by
  induction bs generalizing m a with
  | nil => exact h
  | cons b bs ih =>
    simp only [List.length_cons] at ha
    exact ih (by omega) (Memory.below_set b (by omega) h)

@[simp] theorem length_leBytes (n v : Nat) : (leBytes n v).length = n := by
  induction n generalizing v with
  | zero => rfl
  | succ n ih => simp [leBytes, ih]

/-- The number of the little-endian bytes of v is v, as far as they hold it. -/
theorem leNat_leBytes (n v : Nat) : leNat (leBytes n v) = v % 256 ^ n := by
  induction n generalizing v with
  | zero => simp [leBytes, leNat, Nat.mod_one]
  | succ n ih =>
    have h := Nat.mod_mul (a := 256) (b := 256 ^ n) (x := v)
    rw [Nat.pow_succ, Nat.mul_comm (256 ^ n) 256, h]
    simp [leBytes, leNat, ih]

/-! ### Reads of the state after a write -/

theorem State.byte_congr {s t : State} {a : Nat} (h : Memory.get? t.lmem a = Memory.get? s.lmem a) (hd : t.lmemDraw = s.lmemDraw) :
    t.byte a = s.byte a := by
  simp [State.byte, h, hd]

theorem State.byte_memWrite_outside (s : State) {a n v c : Nat} (h : c < a ∨ a + n ≤ c) : (s.memWrite a n v).byte c = s.byte c :=
  State.byte_congr (get?_storeBytes_outside _ _ (by simpa using h)) rfl

theorem State.byte_memWrite_inside (s : State) {a n v i : Nat} (h : i < n) :
    (s.memWrite a n v).byte (a + i) = (leBytes n v)[i]'(by simpa using h) := by
  simp [State.byte, State.memWrite, get?_storeBytes_inside _ _ _ _ (by simpa using h : i < (leBytes n v).length)]

theorem State.length_bytesAt (s : State) (a n : Nat) : (s.bytesAt a n).length = n := by
  induction n generalizing a with
  | zero => rfl
  | succ n ih => simp [State.bytesAt, ih]

theorem State.getElem_bytesAt (s : State) (a n i : Nat) (h : i < (s.bytesAt a n).length) : (s.bytesAt a n)[i] = s.byte (a + i) := by
  induction n generalizing a i with
  | zero => simp [State.bytesAt] at h
  | succ n ih =>
    cases i with
    | zero => rfl
    | succ i =>
      simp only [State.bytesAt, List.getElem_cons_succ]
      rw [ih, show a + 1 + i = a + (i + 1) by omega]

/-- Reads agree where the bytes do. -/
theorem State.bytesAt_congr {s t : State} {a n : Nat} (h : ∀ i < n, t.byte (a + i) = s.byte (a + i)) :
    t.bytesAt a n = s.bytesAt a n := by
  induction n generalizing a with
  | zero => rfl
  | succ n ih =>
    have h0 := h 0 (by omega)
    simp only [Nat.add_zero] at h0
    simp only [State.bytesAt, h0, List.cons.injEq, true_and]
    exact ih fun i hi => by simpa [Nat.add_assoc, Nat.add_comm 1] using h (i + 1) (by omega)

theorem State.bytesAt_memWrite_same (s : State) (a n v : Nat) : (s.memWrite a n v).bytesAt a n = leBytes n v := by
  apply List.ext_getElem
  · simp [State.length_bytesAt]
  · intro i h1 h2
    rw [State.getElem_bytesAt, State.byte_memWrite_inside]
    simpa using h2

/-- Reading back what was just written (R83). -/
@[simp] theorem State.memRead_memWrite_same (s : State) (a n v : Nat) : (s.memWrite a n v).memRead a n = v % 256 ^ n := by
  rw [State.memRead, State.bytesAt_memWrite_same, leNat_leBytes]

/-- A write leaves a read of other bytes alone. -/
theorem State.memRead_memWrite_disjoint (s : State) {a n v b k : Nat} (h : b + k ≤ a ∨ a + n ≤ b) :
    (s.memWrite a n v).memRead b k = s.memRead b k := by
  rw [State.memRead, State.memRead, State.bytesAt_congr]
  intro i hi
  exact State.byte_memWrite_outside _ (by omega)

@[simp] theorem State.readF32_writeF32_same (s : State) (a : Word) (v : F32) : (s.writeF32 a v).readF32 a = canon v := by
  apply BitVec.eq_of_toNat_eq
  have := (canon v).isLt
  simp only [State.readF32, State.writeF32, State.memRead_memWrite_same, BitVec.toNat_ofNat]
  omega

@[simp] theorem State.readU16_writeU16_same (s : State) (a : Word) (q : Code) : (s.writeU16 a q).readU16 a = q := by
  apply BitVec.eq_of_toNat_eq
  have := q.isLt
  simp only [State.readU16, State.writeU16, State.memRead_memWrite_same, BitVec.toNat_ofNat]
  omega

/-! ### The canonical form of the state's memory -/

theorem wf_redrawSpan {m : Memory} (d : Nat) (p : Span) (h : Memory.wf m = true) : Memory.wf (redrawSpan d m p) = true :=
  wf_storeBytes _ _ h

theorem below_redrawSpan {m : Memory} {n : Nat} (d : Nat) (p : Span) (hp : p.base + p.len ≤ n) (h : Memory.below n m = true) :
    Memory.below n (redrawSpan d m p) = true :=
  below_storeBytes _ (by simpa using hp) h

/-- The end of a run keeps the canonical form. -/
theorem State.wf_endRun {s : State} (h : Memory.wf s.lmem = true) : Memory.wf s.endRun.lmem = true := by
  simp only [State.endRun_lmem]
  generalize s.race.raced = l
  generalize s.lmem = m at h
  induction l generalizing m with
  | nil => exact h
  | cons p l ih => exact ih _ (wf_redrawSpan _ p h)

theorem State.below_endRun {s : State} {n : Nat} (hr : ∀ p ∈ s.race.raced, p.base + p.len ≤ n)
    (h : Memory.below n s.lmem = true) : Memory.below n s.endRun.lmem = true := by
  simp only [State.endRun_lmem]
  revert hr
  generalize s.race.raced = l
  generalize s.lmem = m at h
  intro hr
  induction l generalizing m with
  | nil => exact h
  | cons p l ih =>
    exact ih _ (below_redrawSpan _ p (hr p (by simp)) h) fun q hq => hr q (by simp [hq])

theorem State.wf_memWrite {s : State} (a n v : Nat) (h : Memory.wf s.lmem = true) : Memory.wf (s.memWrite a n v).lmem = true :=
  wf_storeBytes _ _ h

theorem State.wf_raise {s : State} (c : Cause) (a : Word) (cmd : Command) (h : Memory.wf s.lmem = true) :
    Memory.wf (s.raise c a cmd).lmem = true :=
  h

theorem State.wf_hostWriteMemory {s : State} (a n : Nat) (v : Word) (h : Memory.wf s.lmem = true) :
    Memory.wf (s.hostWriteMemory a n v).lmem = true := by
  unfold State.hostWriteMemory
  split
  · split
    · exact wf_redrawSpan _ _ h
    · exact State.wf_memWrite _ _ _ h
  · exact h

theorem State.wf_writeSamples {s : State} (a : Word) (l : List F32) (h : Memory.wf s.lmem = true) :
    Memory.wf (s.writeSamples a l).lmem = true := by
  induction l generalizing s a with
  | nil => exact h
  | cons v l ih => exact ih _ (State.wf_memWrite _ _ _ h)

theorem State.wf_writeCodes {s : State} (a : Word) (l : List Code) (h : Memory.wf s.lmem = true) :
    Memory.wf (s.writeCodes a l).lmem = true := by
  induction l generalizing s a with
  | nil => exact h
  | cons v l ih => exact ih _ (State.wf_memWrite _ _ _ h)

/-- Reset lists no byte, which is the canonical form. -/
theorem reset_wf : Memory.wf State.reset.lmem = true := rfl

end Sys2Proof.Machine
end

