-- ==== Sys2Proof/Laws/Ops.lean ====
section
/-! SUPPORT. What each shared operation can do, said once. -/

namespace Sys2Proof.Machine

/-! ### Iteration -/

/-- A property that every pass keeps holds after all of them. -/
theorem iter_induction {α : Type} (f : Nat → α → α) (p : α → Prop) {n : Nat} {a : α} (h0 : p a)
    (hs : ∀ i b, i < n → p b → p (f i b)) : p (iter f n a) := by
  induction n with
  | zero => exact h0
  | succ n ih => exact hs n _ (by omega) (ih fun i b hi => hs i b (by omega))

/-- `iter` is a left fold over 0 .. n-1. -/
theorem iter_eq_foldl {α : Type} (f : Nat → α → α) (n : Nat) (a : α) :
    iter f n a = (List.range n).foldl (fun b i => f i b) a := by
  induction n with
  | zero => rfl
  | succ n ih => simp [iter, ih, List.range_succ]

/-! ### Bytes and spans -/

theorem State.byte_advance (s : State) (a : Nat) : s.advance.byte a = s.byte a := rfl

/-- An address outside a span is below or past it. -/
theorem Span.holds_eq_false_iff (p : Span) (a : Nat) : p.holds a = false ↔ a < p.base ∨ p.base + p.len ≤ a := by
  simp only [Span.holds, Bool.and_eq_false_iff, decide_eq_false_iff_not]
  omega

/-- Spans that do not meet share no address. -/
theorem Span.meets_eq_false {p q : Span} (h : p.meets q = false) {a : Nat} (ha : q.base ≤ a) (ha' : a < q.base + q.len) :
    a < p.base ∨ p.base + p.len ≤ a := by
  simp only [Span.meets, Bool.and_eq_false_iff, decide_eq_false_iff_not] at h
  omega

/-! ### The operand check -/

/-- The check passes exactly for an empty operand or an aligned one inside LMEM (R93). -/
theorem checkOperand_eq_none_iff (n : Nat) (o : Operand) :
    checkOperand n o = none ↔ o.len = 0 ∨ (o.base.toNat % o.align = 0 ∧ o.base.toNat + o.len ≤ n) := by
  unfold checkOperand
  split
  · simp [*]
  · split
    · simp_all
    · split <;> simp_all

theorem firstFault_eq_none_iff (n : Nat) (l : List Operand) :
    firstFault n l = none ↔ ∀ o ∈ l, checkOperand n o = none := by
  induction l with
  | nil => simp [firstFault]
  | cons o l ih =>
    unfold firstFault
    split <;> simp_all

/-- The cause an operand check finds is MEM_ALIGN or MEM_RANGE, with the base of one of the operands. -/
theorem firstFault_eq_some {n : Nat} {l : List Operand} {c : Cause} {a : Word} (h : firstFault n l = some (c, a)) :
    (c = .memAlign ∨ c = .memRange) ∧ ∃ o ∈ l, a = o.base ∧ checkOperand n o = some c := by
  induction l with
  | nil => simp [firstFault] at h
  | cons o l ih =>
    unfold firstFault at h
    split at h
    · rename_i c' hc
      simp only [Option.some.injEq, Prod.mk.injEq] at h
      obtain ⟨rfl, rfl⟩ := h
      refine ⟨?_, o, by simp, rfl, hc⟩
      unfold checkOperand at hc
      split at hc
      · simp at hc
      · split at hc
        · left; simpa using hc.symm
        · split at hc
          · right; simpa using hc.symm
          · simp at hc
    · obtain ⟨h1, o', ho', h2⟩ := ih h
      exact ⟨h1, o', by simp [ho'], h2⟩

/-! ### Data commands -/

/-- The state a data command leaves when all its checks pass. -/
abbrev dataDone (effect : State → State) (s : State) : State := (effect s).advance

/-- A data command that answers t: not configured, an operand fault, or its effect. -/
theorem dataCommand_cases {i : Instr} {ins : List Operand} {out : Operand} {effect : State → State} {s t : State}
    (h : dataCommand i ins out effect s = .next t) :
    (s.status.cfgok = false ∧ t = s.raise .notConfigured 0 (encodeWord i)) ∨
    (s.status.cfgok = true ∧ ∃ c a, firstFault s.hw.lmemSize (ins ++ [out]) = some (c, a) ∧ t = s.raise c a (encodeWord i)) ∨
    (s.status.cfgok = true ∧ firstFault s.hw.lmemSize (ins ++ [out]) = none ∧ t = dataDone effect s) := by
  unfold dataCommand at h
  split at h
  · split at h
    · right; left
      injection h with h
      exact ⟨‹_›, _, _, ‹_›, h.symm⟩
    · right; right
      injection h with h
      exact ⟨‹_›, ‹_›, h.symm⟩
  · left
    injection h with h
    exact ⟨Bool.eq_false_of_not_eq_true ‹_›, h.symm⟩

/-- A data command with CFGOK set and every check passed does its effect. -/
theorem dataCommand_done {i : Instr} {ins : List Operand} {out : Operand} {effect : State → State} {s : State}
    (hc : s.status.cfgok = true) (hf : firstFault s.hw.lmemSize (ins ++ [out]) = none) :
    dataCommand i ins out effect s = .next (dataDone effect s) := by
  simp [dataCommand, hc, hf]

theorem dataCommand_notConfigured {i : Instr} {ins : List Operand} {out : Operand} {effect : State → State} {s : State}
    (hc : s.status.cfgok = false) :
    dataCommand i ins out effect s = .next (s.raise .notConfigured 0 (encodeWord i)) := by
  simp [dataCommand, hc]

theorem dataCommand_fault {i : Instr} {ins : List Operand} {out : Operand} {effect : State → State} {s : State} {c : Cause} {a : Word}
    (hc : s.status.cfgok = true) (hf : firstFault s.hw.lmemSize (ins ++ [out]) = some (c, a)) :
    dataCommand i ins out effect s = .next (s.raise c a (encodeWord i)) := by
  simp [dataCommand, hc, hf]

theorem dataCommand_next (i : Instr) (ins : List Operand) (out : Operand) (effect : State → State) (s : State) :
    ∃ t, dataCommand i ins out effect s = .next t := by
  unfold dataCommand
  split
  · split <;> exact ⟨_, rfl⟩
  · exact ⟨_, rfl⟩

/-! ### INIT -/

/-- INIT fails with one of the four CFG causes, or configures (R200, R201). -/
theorem execInit_cases {s t : State} (h : execInit s = .next t) :
    (∃ c, (c = .cfgBlocksize ∨ c = .cfgMethod ∨ c = .cfgWindow ∨ c = .cfgParam) ∧ t = s.initFail c) ∨
    (∃ m win k, Config.minLog2N ≤ blkLog2 s.cfg ∧ blkLog2 s.cfg ≤ s.hw.maxLog2N ∧ methodOf s.cfg = some m ∧
      windowOf s.cfg = some win ∧ curveConsts s.hw.num m s.cparam0 s.cparam1 s.consts = some k ∧
      t = (s.configure m win k).advance) := by
  unfold execInit at h
  split at h
  · injection h with h; exact .inl ⟨_, .inl rfl, h.symm⟩
  · rename_i hL
    simp only [not_or, Nat.not_lt] at hL
    split at h
    · injection h with h; exact .inl ⟨_, .inr (.inl rfl), h.symm⟩
    · split at h
      · injection h with h; exact .inl ⟨_, .inr (.inr (.inl rfl)), h.symm⟩
      · split at h
        · injection h with h; exact .inl ⟨_, .inr (.inr (.inr rfl)), h.symm⟩
        · injection h with h; exact .inr ⟨_, _, _, hL.1, hL.2, ‹_›, ‹_›, ‹_›, h.symm⟩

/-! ### Fetch and step -/

/-- Fetch and decode give the command decoded from the 8 bytes at pc, or the state after a fault entry. -/
theorem fetchDecode_cases (s : State) :
    (∃ i rest, fetchDecode s = .ok i ∧ s.pc.toNat % 8 = 0 ∧ s.pc.toNat + 8 ≤ s.hw.lmemSize ∧
      decode (s.bytesAt s.pc.toNat 8) = .ok (i, rest)) ∨
    (∃ c a w, fetchDecode s = .error (s.raise c a w)) := by
  unfold fetchDecode
  split
  · exact .inr ⟨_, _, _, rfl⟩
  · split
    · exact .inr ⟨_, _, _, rfl⟩
    · split
      · exact .inl ⟨_, _, rfl, by omega, by omega, ‹_›⟩
      · exact .inr ⟨_, _, _, rfl⟩
      · exact .inr ⟨_, _, _, rfl⟩
      · exact .inr ⟨_, _, _, rfl⟩

/-- With pc aligned and inside LMEM, the command that the 8 bytes at pc decode to is fetched. -/
theorem fetchDecode_ok {s : State} {i : Instr} {rest : List Byte} (h1 : s.pc.toNat % 8 = 0) (h2 : s.pc.toNat + 8 ≤ s.hw.lmemSize)
    (h : decode (s.bytesAt s.pc.toNat 8) = .ok (i, rest)) : fetchDecode s = .ok i := by
  unfold fetchDecode
  rw [if_neg (by simpa using h1), if_neg (by omega), h]

/-- What one step that answers t is, by whose turn it is. -/
theorem step_cases {s t : State} (h : step s = .next t) :
    ∃ ts, (s.turns = [] ∧ ts = [] ∨ ∃ e, s.turns = e :: ts) ∧
      ((s.status.busy = true ∧ engineStep { s with turns := ts } = .next t) ∨
       (s.status.busy = false ∧ t = { s with turns := ts }) ∨
       (∃ a, hostAccess a { s with turns := ts } = .next t) ∨
       t = State.hardwareReset { s with turns := ts }) := by
  unfold step at h
  split at h
  · rename_i hs
    have e : { s with turns := [] } = s := by cases s; subst hs; rfl
    refine ⟨[], .inl ⟨hs, rfl⟩, ?_⟩
    unfold engineTurn at h
    split at h
    · exact .inl ⟨‹_›, by rw [e]; exact h⟩
    · injection h with h; exact .inr (.inl ⟨Bool.eq_false_of_not_eq_true ‹_›, by rw [e]; exact h.symm⟩)
  · rename_i ts hs
    refine ⟨ts, .inr ⟨_, hs⟩, ?_⟩
    unfold engineTurn at h
    split at h
    · exact .inl ⟨‹_›, h⟩
    · injection h with h; exact .inr (.inl ⟨Bool.eq_false_of_not_eq_true ‹_›, h.symm⟩)
  · rename_i a ts hs
    exact ⟨ts, .inr ⟨_, hs⟩, .inr (.inr (.inl ⟨a, h⟩))⟩
  · rename_i ts hs
    injection h with h
    exact ⟨ts, .inr ⟨_, hs⟩, .inr (.inr (.inr h.symm))⟩

/-- What a host access that answers t is: a register read, a register write, an LMEM read or an LMEM write. -/
theorem hostAccess_cases {a : HostAccess} {s t : State} (h : hostAccess a s = .next t) :
    (∃ off, t = { s with rdata := s.readRegister off, race := { s.race with lastRead := false } }) ∨
    (∃ off v, a = .write off 32 v ∧ t = s.writeRegister off.toNat v) ∨
    (∃ off width, memoryAccessOk off width = true ∧ Config.lmemHBase ≤ off ∧
      t = s.hostReadMemory (off - Config.lmemHBase) (width / 8)) ∨
    (∃ off width v, memoryAccessOk off width = true ∧ Config.lmemHBase ≤ off ∧
      t = s.hostWriteMemory (off - Config.lmemHBase) (width / 8) v) := by
  cases a with
  | read off width =>
    unfold hostAccess at h
    dsimp only at h
    split at h
    · split at h
      · injection h with h; exact .inl ⟨_, h.symm⟩
      · cases h
    · split at h
      · injection h with h; exact .inr (.inr (.inl ⟨_, _, ‹_›, by omega, h.symm⟩))
      · cases h
  | write off width data =>
    unfold hostAccess at h
    dsimp only at h
    split at h
    · split at h
      · rename_i hk
        simp only [registerAccessOk, Bool.and_eq_true, decide_eq_true_eq] at hk
        injection h with h
        exact .inr (.inl ⟨off, data, by rw [hk.1], h.symm⟩)
      · cases h
    · split at h
      · injection h with h; exact .inr (.inr (.inr ⟨_, _, _, ‹_›, by omega, h.symm⟩))
      · cases h

/-- What a register write does: a soft reset, a START, IRQEN, W1C of STATUS, a dropped write while busy, a write of the registers that
are RW while idle, or nothing. -/
theorem State.writeRegister_cases (s : State) (off : Nat) (v : Word) :
    (off = 0x004 ∧ v.getLsbD 2 = true ∧ s.writeRegister off v = s.softReset) ∨
    (s.writeRegister off v = State.start { s with irqen := v.getLsbD 1 }) ∨
    (s.writeRegister off v = { s with irqen := v.getLsbD 1 }) ∨
    (s.writeRegister off v = { s with status := clearWritten s.status v }) ∨
    (s.status.busy = true ∧ s.writeRegister off v = { s with status := { s.status with wdrop := true } }) ∨
    (s.status.busy = false ∧ ∃ p c c0 c1 g r, (c = s.cfg ∨ c = v &&& cfgMask) ∧
      s.writeRegister off v = { s with pc := p, cfg := c, cparam0 := c0, cparam1 := c1, syngain := g, regs := r }) ∨
    s.writeRegister off v = s := by
  have idle : ∀ (f : State → State) p c c0 c1 g r, (c = s.cfg ∨ c = v &&& cfgMask) →
      f s = { s with pc := p, cfg := c, cparam0 := c0, cparam1 := c1, syngain := g, regs := r } →
      (s.status.busy = true ∧ s.whileIdle f = { s with status := { s.status with wdrop := true } }) ∨
      (s.status.busy = false ∧ ∃ p c c0 c1 g r, (c = s.cfg ∨ c = v &&& cfgMask) ∧
        s.whileIdle f = { s with pc := p, cfg := c, cparam0 := c0, cparam1 := c1, syngain := g, regs := r }) := by
    intro f p c c0 c1 g r hc hf
    unfold State.whileIdle
    split
    · exact .inl ⟨‹_›, rfl⟩
    · exact .inr ⟨Bool.eq_false_of_not_eq_true ‹_›, p, c, c0, c1, g, r, hc, hf⟩
  unfold State.writeRegister
  split
  · unfold State.writeCtrl
    split
    · exact .inl ⟨rfl, ‹_›, rfl⟩
    · split
      · exact .inr (.inl rfl)
      · exact .inr (.inr (.inl rfl))
  · exact .inr (.inr (.inr (.inl rfl)))
  · rcases idle (fun t => t.setPc v) v s.cfg s.cparam0 s.cparam1 s.syngain s.regs (.inl rfl) rfl with h | h
    · exact .inr (.inr (.inr (.inr (.inl h))))
    · exact .inr (.inr (.inr (.inr (.inr (.inl h)))))
  · rcases idle (fun t => { t with cfg := v &&& cfgMask }) s.pc (v &&& cfgMask) s.cparam0 s.cparam1 s.syngain s.regs (.inr rfl) rfl with h | h
    · exact .inr (.inr (.inr (.inr (.inl h))))
    · exact .inr (.inr (.inr (.inr (.inr (.inl h)))))
  · rcases idle (fun t => { t with cparam0 := v }) s.pc s.cfg v s.cparam1 s.syngain s.regs (.inl rfl) rfl with h | h
    · exact .inr (.inr (.inr (.inr (.inl h))))
    · exact .inr (.inr (.inr (.inr (.inr (.inl h)))))
  · rcases idle (fun t => { t with cparam1 := v }) s.pc s.cfg s.cparam0 v s.syngain s.regs (.inl rfl) rfl with h | h
    · exact .inr (.inr (.inr (.inr (.inl h))))
    · exact .inr (.inr (.inr (.inr (.inr (.inl h)))))
  · rcases idle (fun t => { t with syngain := v }) s.pc s.cfg s.cparam0 s.cparam1 v s.regs (.inl rfl) rfl with h | h
    · exact .inr (.inr (.inr (.inr (.inl h))))
    · exact .inr (.inr (.inr (.inr (.inr (.inl h)))))
  · split
    · rename_i i hi
      rcases idle (fun t => t.setX i v) s.pc s.cfg s.cparam0 s.cparam1 s.syngain (s.regs.set i v) (.inl rfl) rfl with h | h
      · exact .inr (.inr (.inr (.inr (.inl h))))
      · exact .inr (.inr (.inr (.inr (.inr (.inl h)))))
    · exact .inr (.inr (.inr (.inr (.inr (.inr rfl)))))

/-! ### The host port -/

theorem step_of_access {s : State} {a : HostAccess} {ts : List Turn} (h : s.turns = .access a :: ts) :
    step s = hostAccess a { s with turns := ts } := by
  unfold step
  rw [h]

/-- A host write at LMEM_HBASE or above. -/
theorem hostAccess_write_memory {s : State} {off v : Word} {width : Nat} (h : Config.lmemHBase ≤ off.toNat) :
    hostAccess (.write off width v) s =
      if memoryAccessOk off.toNat width then .next (s.hostWriteMemory (off.toNat - Config.lmemHBase) (width / 8) v)
      else .refused (.hostMemoryAccess off width) := by
  show (if off.toNat < Config.lmemHBase then _ else _) = _
  rw [if_neg (by omega)]

/-- A host read at LMEM_HBASE or above. -/
theorem hostAccess_read_memory {s : State} {off : Word} {width : Nat} (h : Config.lmemHBase ≤ off.toNat) :
    hostAccess (.read off width) s =
      if memoryAccessOk off.toNat width then .next (s.hostReadMemory (off.toNat - Config.lmemHBase) (width / 8))
      else .refused (.hostMemoryAccess off width) := by
  show (if off.toNat < Config.lmemHBase then _ else _) = _
  rw [if_neg (by omega)]

/-- A host write below LMEM_HBASE. -/
theorem hostAccess_write_register {s : State} {off v : Word} {width : Nat} (h : off.toNat < Config.lmemHBase) :
    hostAccess (.write off width v) s =
      if registerAccessOk off.toNat width then .next (s.writeRegister off.toNat v) else .refused (.hostRegisterAccess off width) := by
  show (if off.toNat < Config.lmemHBase then _ else _) = _
  rw [if_pos h]

/-- A host read below LMEM_HBASE. -/
theorem hostAccess_read_register {s : State} {off : Word} {width : Nat} (h : off.toNat < Config.lmemHBase) :
    hostAccess (.read off width) s =
      if registerAccessOk off.toNat width then
        .next { s with rdata := s.readRegister off.toNat, race := { s.race with lastRead := false } }
      else .refused (.hostRegisterAccess off width) := by
  show (if off.toNat < Config.lmemHBase then _ else _) = _
  rw [if_pos h]

theorem memoryAccessOk_iff (off width : Nat) :
    memoryAccessOk off width = true ↔ (width = 8 ∨ width = 16 ∨ width = 32) ∧ off % (width / 8) = 0 := by
  simp [memoryAccessOk, or_assoc]

theorem leNat_lt (l : List Byte) : leNat l < 256 ^ l.length := by
  induction l with
  | nil => simp [leNat]
  | cons b l ih =>
    simp only [leNat, List.length_cons, pow_succ]
    have := b.isLt
    omega

/-- A read of at most 4 bytes fits a word. -/
theorem State.toNat_memRead (s : State) {a n : Nat} (hn : n ≤ 4) : (BitVec.ofNat 32 (s.memRead a n)).toNat = s.memRead a n := by
  have hl : leNat (s.bytesAt a n) < 256 ^ n := by simpa [State.length_bytesAt] using leNat_lt (s.bytesAt a n)
  have h4 : 256 ^ n ≤ 2 ^ 32 := by
    calc 256 ^ n ≤ 256 ^ 4 := Nat.pow_le_pow_right (by norm_num) hn
      _ = 2 ^ 32 := by norm_num
  rw [BitVec.toNat_ofNat, Nat.mod_eq_of_lt]
  exact lt_of_lt_of_le hl h4

end Sys2Proof.Machine
end

