-- ==== Sys2Proof/Laws/Elements.lean ====
section
/-! SUPPORT. Runs of samples, codes, bins and pixels: what a write leaves alone, and what is read back after it (spec/20_memory.md R83,
R85, R86, R91). -/

namespace Sys2Proof.Machine

/-! ### Addresses -/

/-- Inside the 32-bit address space the address of element i does not wrap. -/
theorem toNat_element {base : Word} {size i : Nat} (h : base.toNat + size * i < 2 ^ 32) :
    (element base size i).toNat = base.toNat + size * i := by
  simp only [element, BitVec.toNat_add, BitVec.toNat_ofNat]
  omega

/-- A sum with a small number inside the 32-bit address space does not wrap. -/
theorem toNat_add_small {a : Word} (k : Nat) (h : a.toNat + k < 2 ^ 32) : (a + BitVec.ofNat 32 k).toNat = a.toNat + k := by
  simp only [BitVec.toNat_add, BitVec.toNat_ofNat]
  omega

@[simp] theorem element_zero (base : Word) (size : Nat) : element base size 0 = base := by
  simp [element]

theorem element_succ (base : Word) (size i : Nat) : element base size (i + 1) = element (base + BitVec.ofNat 32 size) size i := by
  simp only [element, Nat.mul_add, Nat.mul_one, BitVec.add_assoc, ← BitVec.ofNat_add]
  congr 2
  omega

/-! ### One element -/

theorem State.byte_writeF32_outside (s : State) {a : Word} (v : F32) {c : Nat} (h : c < a.toNat ∨ a.toNat + 4 ≤ c) :
    (s.writeF32 a v).byte c = s.byte c :=
  State.byte_memWrite_outside s h

theorem State.byte_writeU16_outside (s : State) {a : Word} (q : Code) {c : Nat} (h : c < a.toNat ∨ a.toNat + 2 ≤ c) :
    (s.writeU16 a q).byte c = s.byte c :=
  State.byte_memWrite_outside s h

/-- A read of a sample agrees where its bytes do. -/
theorem State.readF32_congr {s t : State} {a : Word} (h : ∀ c, a.toNat ≤ c → c < a.toNat + 4 → t.byte c = s.byte c) :
    t.readF32 a = s.readF32 a := by
  simp only [State.readF32, State.memRead]
  rw [State.bytesAt_congr fun i hi => h _ (by omega) (by omega)]

/-- A read of a code agrees where its bytes do. -/
theorem State.readU16_congr {s t : State} {a : Word} (h : ∀ c, a.toNat ≤ c → c < a.toNat + 2 → t.byte c = s.byte c) :
    t.readU16 a = s.readU16 a := by
  simp only [State.readU16, State.memRead]
  rw [State.bytesAt_congr fun i hi => h _ (by omega) (by omega)]

/-! ### Runs of samples -/

/-- A run of samples changes LMEM alone. -/
theorem State.writeSamples_eq (s : State) (a : Word) (l : List F32) : s.writeSamples a l = { s with lmem := (s.writeSamples a l).lmem } := by
  induction l generalizing s a with
  | nil => rfl
  | cons v l ih => exact ih (s.writeF32 a v) (a + 4)

theorem State.byte_writeSamples_outside (s : State) {a : Word} {l : List F32} {c : Nat} (hw : a.toNat + 4 * l.length < 2 ^ 32)
    (h : c < a.toNat ∨ a.toNat + 4 * l.length ≤ c) : (s.writeSamples a l).byte c = s.byte c := by
  induction l generalizing s a with
  | nil => rfl
  | cons v l ih =>
    simp only [List.length_cons] at hw h
    have ha : (a + 4).toNat = a.toNat + 4 := toNat_add_small 4 (by omega)
    rw [State.writeSamples, ih _ (by omega) (by omega), State.byte_writeF32_outside _ _ (by omega)]

/-- Element i of a run of samples, read back: NaNs canonical (R13). -/
theorem State.readF32_writeSamples (s : State) {a : Word} {l : List F32} (hw : a.toNat + 4 * l.length < 2 ^ 32) {i : Nat}
    (hi : i < l.length) : (s.writeSamples a l).readF32 (element a 4 i) = canon l[i] := by
  induction l generalizing s a i with
  | nil => simp at hi
  | cons v l ih =>
    simp only [List.length_cons] at hw hi
    have ha : (a + 4).toNat = a.toNat + 4 := toNat_add_small 4 (by omega)
    cases i with
    | zero =>
      rw [element_zero, State.writeSamples]
      have e : ((s.writeF32 a v).writeSamples (a + 4) l).readF32 a = (s.writeF32 a v).readF32 a :=
        State.readF32_congr fun c h1 h2 => State.byte_writeSamples_outside _ (by omega) (by omega)
      rw [e]
      simp
    | succ i =>
      rw [element_succ, State.writeSamples]
      exact ih _ (a := a + 4) (by omega) (by omega)

/-- A run of samples, read back. -/
theorem State.readSamples_writeSamples (s : State) {a : Word} {l : List F32} (hw : a.toNat + 4 * l.length < 2 ^ 32) :
    (s.writeSamples a l).readSamples a l.length = l.map canon := by
  apply List.ext_getElem
  · simp [State.readSamples]
  · intro i h1 h2
    simp only [List.length_map] at h2
    simp [State.readSamples, State.readF32_writeSamples s hw h2]

/-! ### Runs of codes -/

/-- A run of codes changes LMEM alone. -/
theorem State.writeCodes_eq (s : State) (a : Word) (l : List Code) : s.writeCodes a l = { s with lmem := (s.writeCodes a l).lmem } := by
  induction l generalizing s a with
  | nil => rfl
  | cons v l ih => exact ih (s.writeU16 a v) (a + 2)

theorem State.byte_writeCodes_outside (s : State) {a : Word} {l : List Code} {c : Nat} (hw : a.toNat + 2 * l.length < 2 ^ 32)
    (h : c < a.toNat ∨ a.toNat + 2 * l.length ≤ c) : (s.writeCodes a l).byte c = s.byte c := by
  induction l generalizing s a with
  | nil => rfl
  | cons v l ih =>
    simp only [List.length_cons] at hw h
    have ha : (a + 2).toNat = a.toNat + 2 := toNat_add_small 2 (by omega)
    rw [State.writeCodes, ih _ (by omega) (by omega), State.byte_writeU16_outside _ _ (by omega)]

/-- Element i of a run of codes, read back. -/
theorem State.readU16_writeCodes (s : State) {a : Word} {l : List Code} (hw : a.toNat + 2 * l.length < 2 ^ 32) {i : Nat}
    (hi : i < l.length) : (s.writeCodes a l).readU16 (element a 2 i) = l[i] := by
  induction l generalizing s a i with
  | nil => simp at hi
  | cons v l ih =>
    simp only [List.length_cons] at hw hi
    have ha : (a + 2).toNat = a.toNat + 2 := toNat_add_small 2 (by omega)
    cases i with
    | zero =>
      rw [element_zero, State.writeCodes]
      have e : ((s.writeU16 a v).writeCodes (a + 2) l).readU16 a = (s.writeU16 a v).readU16 a :=
        State.readU16_congr fun c h1 h2 => State.byte_writeCodes_outside _ (by omega) (by omega)
      rw [e]
      simp
    | succ i =>
      rw [element_succ, State.writeCodes]
      exact ih _ (a := a + 2) (by omega) (by omega)

/-! ### Bins and pixels -/

theorem length_flatMap_const {α β : Type} (l : List α) (f : α → List β) (k : Nat) (h : ∀ a ∈ l, (f a).length = k) :
    (l.flatMap f).length = k * l.length := by
  induction l with
  | nil => simp
  | cons a l ih =>
    simp only [List.flatMap_cons, List.length_append, List.length_cons, h a (by simp), ih fun b hb => h b (by simp [hb])]
    rw [Nat.mul_add]; omega

/-- Part j of element i of a list whose elements were each laid out as k parts. -/
theorem getElem?_flatMap_const {α β : Type} (l : List α) (f : α → List β) (k : Nat) (h : ∀ a ∈ l, (f a).length = k) {i j : Nat}
    (hi : i < l.length) (hj : j < k) : (l.flatMap f)[k * i + j]? = (f l[i])[j]? := by
  induction l generalizing i with
  | nil => simp at hi
  | cons a l ih =>
    have ha := h a (by simp)
    cases i with
    | zero => simp [List.flatMap_cons, List.getElem?_append, ha, hj]
    | succ i =>
      have hge : ¬ k * (i + 1) + j < k := by rw [Nat.mul_add]; omega
      rw [List.flatMap_cons, List.getElem?_append, ha, if_neg hge]
      rw [show k * (i + 1) + j - k = k * i + j by rw [Nat.mul_add]; omega]
      exact ih (fun b hb => h b (by simp [hb])) (by simpa using hi)

theorem element_eight (a : Word) (i : Nat) : element a 8 i = element a 4 (2 * i) := by
  simp [element, ← Nat.mul_assoc]

theorem element_six (a : Word) (i : Nat) : element a 6 i = element a 2 (3 * i) := by
  simp [element, ← Nat.mul_assoc]

/-- The next element is one size further. -/
theorem element_add_four (a : Word) (i : Nat) : element a 4 i + 4 = element a 4 (i + 1) := by
  rw [element, element, BitVec.add_assoc, show (4 : Word) = BitVec.ofNat 32 4 from rfl, ← BitVec.ofNat_add]; rfl

theorem element_add_two (a : Word) (i : Nat) : element a 2 i + 2 = element a 2 (i + 1) := by
  rw [element, element, BitVec.add_assoc, show (2 : Word) = BitVec.ofNat 32 2 from rfl, ← BitVec.ofNat_add]; rfl

theorem element_two_add_four (a : Word) (i : Nat) : element a 2 i + 4 = element a 2 (i + 2) := by
  rw [element, element, BitVec.add_assoc, show (4 : Word) = BitVec.ofNat 32 4 from rfl, ← BitVec.ofNat_add]; rfl

/-- A run of bins changes LMEM alone. -/
theorem State.writeBins_eq (s : State) (a : Word) (l : List Bin) : s.writeBins a l = { s with lmem := (s.writeBins a l).lmem } :=
  State.writeSamples_eq s a _

theorem State.byte_writeBins_outside (s : State) {a : Word} {l : List Bin} {c : Nat} (hw : a.toNat + 8 * l.length < 2 ^ 32)
    (h : c < a.toNat ∨ a.toNat + 8 * l.length ≤ c) : (s.writeBins a l).byte c = s.byte c := by
  have hl := length_flatMap_const l (fun z => [z.1, z.2]) 2 fun _ _ => rfl
  exact State.byte_writeSamples_outside s (by rw [hl]; omega) (by rw [hl]; omega)

/-- A run of bins, read back. -/
theorem State.readBins_writeBins (s : State) {a : Word} {l : List Bin} (hw : a.toNat + 8 * l.length < 2 ^ 32) :
    (s.writeBins a l).readBins a l.length = l.map fun z => (canon z.1, canon z.2) := by
  have hl := length_flatMap_const l (fun z => [z.1, z.2]) 2 fun _ _ => rfl
  apply List.ext_getElem
  · simp [State.readBins]
  · intro i h1 h2
    simp only [List.length_map] at h2
    have g0 := getElem?_flatMap_const l (fun z => [z.1, z.2]) 2 (fun _ _ => rfl) h2 (j := 0) (by omega)
    have g1 := getElem?_flatMap_const l (fun z => [z.1, z.2]) 2 (fun _ _ => rfl) h2 (j := 1) (by omega)
    have k0 : 2 * i < (l.flatMap fun z => [z.1, z.2]).length := by rw [hl]; omega
    have k1 : 2 * i + 1 < (l.flatMap fun z => [z.1, z.2]).length := by rw [hl]; omega
    simp only [Nat.add_zero, List.getElem?_eq_getElem k0, List.getElem?_eq_getElem k1, List.getElem?_cons_zero,
      List.getElem?_cons_succ, Option.some.injEq] at g0 g1
    simp only [State.readBins, List.getElem_map, List.getElem_range, element_eight, element_add_four, State.writeBins]
    rw [State.readF32_writeSamples s (by rw [hl]; omega) k0, State.readF32_writeSamples s (by rw [hl]; omega) k1, g0, g1]

/-- A run of pixels changes LMEM alone. -/
theorem State.writePixels_eq (s : State) (a : Word) (l : List Pixel) : s.writePixels a l = { s with lmem := (s.writePixels a l).lmem } :=
  State.writeCodes_eq s a _

theorem State.byte_writePixels_outside (s : State) {a : Word} {l : List Pixel} {c : Nat} (hw : a.toNat + 6 * l.length < 2 ^ 32)
    (h : c < a.toNat ∨ a.toNat + 6 * l.length ≤ c) : (s.writePixels a l).byte c = s.byte c := by
  have hl := length_flatMap_const l (fun q : Pixel => [q.1, q.2.1, q.2.2]) 3 fun _ _ => rfl
  exact State.byte_writeCodes_outside s (by rw [hl]; omega) (by rw [hl]; omega)

/-- A run of pixels, read back. -/
theorem State.readPixels_writePixels (s : State) {a : Word} {l : List Pixel} (hw : a.toNat + 6 * l.length < 2 ^ 32) :
    (s.writePixels a l).readPixels a l.length = l := by
  have hl := length_flatMap_const l (fun q : Pixel => [q.1, q.2.1, q.2.2]) 3 fun _ _ => rfl
  apply List.ext_getElem
  · simp [State.readPixels]
  · intro i h1 h2
    have g := fun j (hj : j < 3) => getElem?_flatMap_const l (fun q : Pixel => [q.1, q.2.1, q.2.2]) 3 (fun _ _ => rfl) h2 hj
    have g0 := g 0 (by omega)
    have g1 := g 1 (by omega)
    have g2 := g 2 (by omega)
    have k0 : 3 * i < (l.flatMap fun q : Pixel => [q.1, q.2.1, q.2.2]).length := by rw [hl]; omega
    have k1 : 3 * i + 1 < (l.flatMap fun q : Pixel => [q.1, q.2.1, q.2.2]).length := by rw [hl]; omega
    have k2 : 3 * i + 2 < (l.flatMap fun q : Pixel => [q.1, q.2.1, q.2.2]).length := by rw [hl]; omega
    simp only [Nat.add_zero, List.getElem?_eq_getElem k0, List.getElem?_eq_getElem k1, List.getElem?_eq_getElem k2,
      List.getElem?_cons_zero, List.getElem?_cons_succ, Option.some.injEq] at g0 g1 g2
    simp only [State.readPixels, List.getElem_map, List.getElem_range, element_six, element_add_two,
      element_two_add_four, State.writePixels]
    rw [State.readU16_writeCodes s (by rw [hl]; omega) k0, State.readU16_writeCodes s (by rw [hl]; omega) k1,
      State.readU16_writeCodes s (by rw [hl]; omega) k2, g0, g1, g2]

end Sys2Proof.Machine
end

