-- ==== Sys2Proof/Laws/Commands.lean ====
section
/-! SUPPORT. Commands and steps as the statements speak of them: the engine's turn, the operand table, the frame of a data command, and
one element of a vector command. -/

namespace Sys2Proof.Machine

/-- On the engine's turn a step is the engine's. -/
theorem step_of_engineTurn {s : State} {ts : List Turn} (h : s.EngineTurn ts) : step s = engineTurn { s with turns := ts } := by
  unfold step
  rcases h with ⟨h, rfl⟩ | h
  · rw [h]
    simp only
    congr 1
    cases s
    simp_all
  · rw [h]

/-- A command with OP from 0x10 up is a data command over the operands of the table of R280, the last of them its output. -/
theorem exec_eq_dataCommand (i : Instr) (s : State) (h : isDataCommand i = true) :
    ∃ ins out effect, exec i s = dataCommand i ins out effect s ∧ ins ++ [out] = operandTable i s ∧ out = outputOperand i s ∧
      ins = (operandTable i s).dropLast := by
  cases i
  case nop | halt | init | seta | adda | jmp | djnz | setg => simp [isDataCommand, opcodeOf] at h
  case inv a b pv nv =>
    simp only [exec, execInv]
    refine ⟨_, _, _, rfl, ?_, ?_, ?_⟩
    · simp only [invRows, operandTable, rowBytes, binCount, rowBefore, rowAfter]
      cases pv <;> cases nv <;> rfl
    · cases pv <;> cases nv <;> rfl
    · cases pv <;> cases nv <;> rfl
  all_goals
    simp only [exec, execWindump, execRfft, execIrfft, execFwd, execComp, execExpd, execPqnt, execPdeq]
    exact ⟨_, _, _, rfl, rfl, rfl, rfl⟩

/-- The check of one operand, as the statements say it. -/
theorem Operand.ok_iff (n : Nat) (o : Operand) : o.Ok n ↔ checkOperand n o = none := (checkOperand_eq_none_iff n o).symm

/-- Operands that pass their checks do not hide a later fault. -/
theorem firstFault_append_of_ok {n : Nat} {l l' : List Operand} (h : ∀ p ∈ l, p.Ok n) : firstFault n (l ++ l') = firstFault n l' := by
  induction l with
  | nil => rfl
  | cons o l ih =>
    have := (Operand.ok_iff n o).1 (h o (by simp))
    simp only [List.cons_append, firstFault, this]
    exact ih fun p hp => h p (by simp [hp])

theorem firstFault_eq_none_of_ok {n : Nat} {l : List Operand} (h : ∀ p ∈ l, p.Ok n) : firstFault n l = none :=
  (firstFault_eq_none_iff n l).2 fun o ho => (Operand.ok_iff n o).1 (h o ho)

/-! ### The frame -/

/-- An effect on LMEM, NAN and SAT alone, inside the output operand. -/
structure EffectFrame (out : Operand) (s t : State) : Prop where
  rest : t = { s with lmem := t.lmem, status := { s.status with nan := t.status.nan, sat := t.status.sat } }
  bytes : ∀ a, out.span.holds a = false → t.byte a = s.byte a

theorem EffectFrame.refl (out : Operand) (s : State) : EffectFrame out s s := ⟨rfl, fun _ _ => rfl⟩

theorem EffectFrame.trans {out : Operand} {s t u : State} (h : EffectFrame out s t) (k : EffectFrame out t u) : EffectFrame out s u := by
  refine ⟨?_, fun a ha => (k.bytes a ha).trans (h.bytes a ha)⟩
  rw [k.rest, h.rest]

/-- A data command whose effect keeps the frame keeps it. -/
theorem dataDone_frame {out : Operand} {effect : State → State} {s : State} (h : EffectFrame out s (effect s)) :
    DataFrame out s (dataDone effect s) := by
  obtain ⟨m, n, k, e⟩ : ∃ m n k, effect s = { s with lmem := m, status := { s.status with nan := n, sat := k } } :=
    ⟨_, _, _, h.rest⟩
  refine ⟨by rw [dataDone, e]; rfl, fun a ha => ?_⟩
  rw [dataDone, State.byte_advance]
  exact h.bytes a ha

/-! ### Elements of the vector commands -/

/-- What quantizing one element does: its code is at the destination, its flags are set, and no other byte changes. -/
theorem quantizeElement_spec (curve : F32 → F32) (src dst : Word) (i : Nat) (s : State) :
    let q := quantize (curve (s.readF32 (element src 4 i)))
    let t := quantizeElement curve src dst i s
    t.readU16 (element dst 2 i) = q.code ∧ t.status = { s.status with nan := s.status.nan || q.nan, sat := s.status.sat || q.sat } ∧
      (∀ c, c < (element dst 2 i).toNat ∨ (element dst 2 i).toNat + 2 ≤ c → t.byte c = s.byte c) ∧
      t = { s with lmem := t.lmem, status := t.status } :=
  ⟨State.readU16_writeU16_same s _ _, rfl, fun _ hc => State.byte_writeU16_outside s _ hc, rfl⟩

/-- What expanding one element does: its value, a NaN canonical, is at the destination, and nothing else changes. -/
theorem expandElement_spec (curve : Code → F32) (src dst : Word) (i : Nat) (s : State) :
    let t := expandElement curve src dst i s
    t.readF32 (element dst 4 i) = canon (curve (s.readU16 (element src 2 i))) ∧
      (∀ c, c < (element dst 4 i).toNat ∨ (element dst 4 i).toNat + 4 ≤ c → t.byte c = s.byte c) ∧ t = { s with lmem := t.lmem } :=
  ⟨State.readF32_writeF32_same s _ _, fun _ hc => State.byte_writeF32_outside s _ hc, rfl⟩

/-- A vector of quantizations changes LMEM, NAN and SAT alone, and clears neither flag. -/
theorem iter_quantizeElement_rest (curve : F32 → F32) (src dst : Word) (n : Nat) (s : State) :
    ∃ m a b, iter (quantizeElement curve src dst) n s = { s with lmem := m, status := { s.status with nan := a, sat := b } } ∧
      (s.status.nan = true → a = true) ∧ (s.status.sat = true → b = true) := by
  induction n with
  | zero => exact ⟨_, _, _, rfl, id, id⟩
  | succ n ih =>
    obtain ⟨m, a, b, e, h1, h2⟩ := ih
    obtain ⟨-, g2, -, g4⟩ := quantizeElement_spec curve src dst n (iter (quantizeElement curve src dst) n s)
    rw [iter]
    exact ⟨_, _, _, by rw [g4, g2, e], fun h => by simp [h1 h], fun h => by simp [h2 h]⟩

/-- A vector of expansions changes LMEM alone. -/
theorem iter_expandElement_rest (curve : Code → F32) (src dst : Word) (n : Nat) (s : State) :
    ∃ m, iter (expandElement curve src dst) n s = { s with lmem := m } := by
  induction n with
  | zero => exact ⟨_, rfl⟩
  | succ n ih =>
    obtain ⟨m, e⟩ := ih
    obtain ⟨-, -, g4⟩ := expandElement_spec curve src dst n (iter (expandElement curve src dst) n s)
    rw [iter]
    exact ⟨_, by rw [g4, e]⟩

/-- The flags of a row of pixels. -/
theorem State.stickRow_eq (s : State) (row : List (Quantized × Quantized × Quantized)) :
    s.stickRow row =
      { s with
        status :=
          { s.status with
            nan := s.status.nan || row.any fun p => p.1.nan || p.2.1.nan || p.2.2.nan
            sat := s.status.sat || row.any fun p => p.1.sat || p.2.1.sat || p.2.2.sat } } := by
  unfold State.stickRow
  induction row generalizing s with
  | nil => simp
  | cons p row ih => rw [List.foldl_cons, ih]; simp [State.stick, Bool.or_assoc]

/-! ### Whatever a command does -/

/-- The commands that quantize (R34). -/
def quantizes : Instr → Bool
  | .comp _ _ _ | .pqnt _ _ _ | .fwd _ _ _ => true
  | _ => false

/-- t is s but for pc, LMEM, NAN and SAT; NAN and SAT are not cleared, and not set by a command that does not quantize. -/
def DataRest (i : Instr) (s t : State) : Prop :=
  ∃ m a b,
    t = { s with pc := s.pc + 8, lmem := m, status := { s.status with nan := a, sat := b } } ∧
    (s.status.nan = true → a = true) ∧ (s.status.sat = true → b = true) ∧
    (quantizes i = false → a = s.status.nan ∧ b = s.status.sat)

theorem dataRest_of_effect {i : Instr} {effect : State → State} {s : State} {m : Memory} {a b : Bool}
    (e : effect s = { s with lmem := m, status := { s.status with nan := a, sat := b } }) (ha : s.status.nan = true → a = true)
    (hb : s.status.sat = true → b = true) (hq : quantizes i = false → a = s.status.nan ∧ b = s.status.sat) :
    DataRest i s (dataDone effect s) :=
  ⟨m, a, b, by rw [dataDone, e]; rfl, ha, hb, hq⟩

/-- An effect on LMEM alone. -/
theorem dataRest_of_memory {i : Instr} {effect : State → State} {s : State} (e : effect s = { s with lmem := (effect s).lmem }) :
    DataRest i s (dataDone effect s) :=
  dataRest_of_effect (m := (effect s).lmem) e id id fun _ => ⟨rfl, rfl⟩

/-- What a data command that answers t is: NOT_CONFIGURED, the first operand fault, or its effect, which changes nothing but pc, LMEM,
NAN and SAT. -/
theorem exec_data_cases {i : Instr} {s t : State} (hd : isDataCommand i = true) (h : exec i s = .next t) :
    (s.status.cfgok = false ∧ t = s.raise .notConfigured 0 (encodeWord i)) ∨
    (s.status.cfgok = true ∧ ∃ c a, firstFault s.hw.lmemSize (operandTable i s) = some (c, a) ∧ t = s.raise c a (encodeWord i)) ∨
    (s.Ready i ∧ DataRest i s t) := by
  obtain ⟨ins, out, effect, he, htab, -⟩ := exec_eq_dataCommand i s hd
  have h' := h
  rw [he] at h'
  rcases dataCommand_cases h' with ⟨h1, h2⟩ | ⟨h1, c, a, h2, h3⟩ | ⟨h1, h2, -⟩
  · exact .inl ⟨h1, h2⟩
  · exact .inr (.inl ⟨h1, c, a, htab ▸ h2, h3⟩)
  · have hok := (firstFault_eq_none_iff _ _).1 h2
    rw [htab] at hok
    have hr : s.Ready i := ⟨h1, fun o ho => (Operand.ok_iff _ _).2 (hok o ho)⟩
    refine .inr (.inr ⟨hr, ?_⟩)
    have run : ∀ {ins : List Operand} {out : Operand} {effect : State → State},
        exec i s = dataCommand i ins out effect s → ins ++ [out] = operandTable i s → t = dataDone effect s := by
      intro ins out effect he ht
      rw [he, dataCommand_done h1 (firstFault_eq_none_of_ok (by rw [ht]; exact hr.2))] at h
      injection h with h
      exact h.symm
    cases i
    case nop | halt | init | seta | adda | jmp | djnz | setg => simp [isDataCommand, opcodeOf] at hd
    case windump ra =>
      simp only [exec, execWindump] at run
      rw [run rfl rfl]
      exact dataRest_of_memory (State.writeSamples_eq s _ _)
    case comp ra rb rc =>
      rw [run rfl rfl]
      obtain ⟨m, a, b, e, h1, h2⟩ := iter_quantizeElement_rest s.compress (s.x ra) (s.x rb) (s.x rc).toNat s
      exact dataRest_of_effect e h1 h2 fun h => by simp [quantizes] at h
    case expd ra rb rc =>
      rw [run rfl rfl]
      obtain ⟨m, e⟩ := iter_expandElement_rest s.expand (s.x ra) (s.x rb) (s.x rc).toNat s
      exact dataRest_of_memory (by rw [e])
    case rfft ra rb =>
      simp only [exec, execRfft] at run
      rw [run rfl rfl]
      exact dataRest_of_memory (State.writeBins_eq s _ _)
    case irfft ra rb =>
      simp only [exec, execIrfft] at run
      rw [run rfl rfl]
      exact dataRest_of_memory (State.writeSamples_eq s _ _)
    case pqnt ra rb rc =>
      rw [run rfl rfl]
      obtain ⟨m, a, b, e, h1, h2⟩ := iter_quantizeElement_rest phaseMap (s.x ra) (s.x rb) (s.x rc).toNat s
      exact dataRest_of_effect e h1 h2 fun h => by simp [quantizes] at h
    case fwd ra rb rc =>
      simp only [exec, execFwd] at run
      rw [run rfl rfl]
      have e : ∀ row, (s.writePixels (s.x rc) (pixelsOf row)).stickRow row =
          { s with
            lmem := (s.writePixels (s.x rc) (pixelsOf row)).lmem
            status :=
              { s.status with
                nan := s.status.nan || row.any fun p => p.1.nan || p.2.1.nan || p.2.2.nan
                sat := s.status.sat || row.any fun p => p.1.sat || p.2.1.sat || p.2.2.sat } } := by
        intro row
        rw [State.stickRow_eq, State.writePixels_eq]
      refine dataRest_of_effect (e _) ?_ ?_ fun h => ?_
      · intro h
        rw [h]
        rfl
      · intro h
        rw [h]
        rfl
      · simp [quantizes] at h
    case pdeq ra rb rc =>
      rw [run rfl rfl]
      obtain ⟨m, e⟩ := iter_expandElement_rest deq (s.x ra) (s.x rb) (s.x rc).toNat s
      exact dataRest_of_memory (by rw [e])
    case inv ra rb pv nv =>
      simp only [exec, execInv] at run
      have ht : invRows (s.x ra) s.aN pv nv ++ [⟨s.x rb, 4 * s.aN, 4⟩] = operandTable (.inv ra rb pv nv) s := by
        simp only [invRows, operandTable, rowBytes, binCount, rowBefore, rowAfter]
        cases pv <;> cases nv <;> rfl
      rw [run rfl ht]
      exact dataRest_of_memory (State.writeSamples_eq s _ _)

/-- No command touches the record of races, what the host read or the draws: what a command means for them, the step does. -/
theorem exec_keeps_races {i : Instr} {s t : State} (h : exec i s = .next t) :
    t.race = s.race ∧ t.rdata = s.rdata ∧ t.raceReads = s.raceReads ∧ t.draws = s.draws ∧ t.lmemDraw = s.lmemDraw := by
  by_cases hd : isDataCommand i = true
  · rcases exec_data_cases hd h with ⟨_, rfl⟩ | ⟨_, _, _, _, rfl⟩ | ⟨_, m, a, b, rfl, _⟩ <;> exact ⟨rfl, rfl, rfl, rfl, rfl⟩
  · cases i <;> simp only [isDataCommand, opcodeOf, Bool.not_eq_true] at hd
    case init =>
      rcases execInit_cases (by simpa only [exec] using h) with ⟨c, _, rfl⟩ | ⟨m, w, k, _, _, _, _, _, rfl⟩
      · simp [State.initFail]
      · simp
    case djnz =>
      simp only [exec, execDjnz] at h
      split at h <;> (injection h with h; subst h; exact ⟨rfl, rfl, rfl, rfl, rfl⟩)
    case nop | halt | seta | adda | jmp | setg => injection h with h; subst h; exact ⟨rfl, rfl, rfl, rfl, rfl⟩
    all_goals simp at hd

end Sys2Proof.Machine
end

