-- ==== Sys2Proof/Laws/Encoding.lean ====
section
/-! SUPPORT. The bits of an encoded command, field by field (spec/30_encoding.md R110). -/

namespace Sys2Proof

theorem getLsbD_packFields (op : Byte) (f : Fields) (i : Nat) :
    (packFields op f).getLsbD i =
      if i < 8 then op.getLsbD i
      else if i < 11 then (regBits f.ra).getLsbD (i - 8)
      else if i < 14 then (regBits f.rb).getLsbD (i - 11)
      else if i < 17 then (regBits f.rc).getLsbD (i - 14)
      else if i = 17 then f.pv
      else if i = 18 then f.nv
      else if i < 32 then false
      else f.imm.getLsbD (i - 32) := by
  unfold packFields
  simp only [BitVec.getLsbD_append]
  grind [BitVec.getLsbD_ofBool]

/-- A field that stands at bit lo of a word. -/
theorem extractLsb'_eq_of_getLsbD {w : Command} {lo n : Nat} {v : BitVec n} (h : ∀ i < n, w.getLsbD (lo + i) = v.getLsbD i) :
    w.extractLsb' lo n = v := by
  apply BitVec.eq_of_getLsbD_eq
  intro i hi
  simp [hi, h i hi]

theorem opField_packFields (op : Byte) (f : Fields) : opField (packFields op f) = op :=
  extractLsb'_eq_of_getLsbD fun i hi => by simp [getLsbD_packFields, hi]

theorem regBits_toFin (r : Reg) : ((regBits r).toFin : Fin 8) = r := by
  revert r; decide

end Sys2Proof
end

