-- ==== Sys2Proof/Machine/Accuracy.lean ====
section
/-! DEFINITION. The accuracy properties a proof may assume of NUM (spec/00_scope.md R16), named and parametric in EPS_TR and EPS_FFT.
Nothing in the machine reads them (assumption 23). -/

namespace Sys2Proof.Machine

open Config (NumChoice)

/-- The value of a finite binary32 number. -/
def valueOf (x : F32) : ℚ := (units x : ℚ) / 2 ^ 149

/-- The unit in the last place of a finite binary32 number. -/
def ulpOf (x : F32) : ℚ := 2 ^ (max (magBits x / 2 ^ 23) 1 - 1) / 2 ^ 149

/-- The least real that RNE takes to +inf (R12). -/
def overflowAt : ℝ := (2 ^ 25 - 1) * 2 ^ 103

/-- y is within `bound` of the exact result. A finite y is compared as a number; what the bound means for an infinity or a NaN the spec
leaves open, and it is the model's choice (assumption 23) that an infinity is near where a real within the bound of the exact result rounds
to it, and that a NaN is never near. -/
def Near (y : F32) (exact bound : ℝ) : Prop :=
  isNaN y = false ∧
    if isFinite y then |(valueOf y : ℝ) - exact| ≤ bound
    else if signBit y then exact - bound ≤ -overflowAt
    else overflowAt ≤ exact + bound

/-- b^y is a real number: a positive base, a zero base with a positive exponent, or a negative base with an integer exponent. On these
`Real.rpow` is that number. -/
def HasRealPower (b y : F32) : Prop :=
  flt zero32 b = true ∨ (isZero b = true ∧ flt zero32 y = true) ∨ (flt b zero32 = true ∧ isIntegral y = true)

/-- R16 (a): ln, pow and cos2pi within EPS_TR ulps on the finite arguments that have a real result. -/
structure AccurateTr (num : NumChoice) : Prop where
  ln : ∀ x, isFinite x = true → flt zero32 x = true →
    Near (numLn num x) (Real.log (valueOf x)) (Config.epsTr * ulpOf (numLn num x))
  pow : ∀ b y, isFinite b = true → isFinite y = true → HasRealPower b y →
    Near (numPow num b y) ((valueOf b : ℝ) ^ (valueOf y : ℝ)) (Config.epsTr * ulpOf (numPow num b y))
  cos2pi : ∀ m x, 1 ≤ m → m ≤ 3 → isFinite x = true →
    Near (numCos2pi num m x) (Real.cos (2 * Real.pi * m * valueOf x)) (Config.epsTr * ulpOf (numCos2pi num m x))

/-- Re X[k] of R221, exactly. -/
def ExactRe (n : Nat) (t : List F32) (k : Nat) (v : ℝ) : Prop :=
  v = ∑ i ∈ Finset.range n, (valueOf (t.getD i zero32) : ℝ) * Real.cos (2 * Real.pi * k * i / n)

/-- Im X[k] of R221, exactly. -/
def ExactIm (n : Nat) (t : List F32) (k : Nat) (v : ℝ) : Prop :=
  v = -∑ i ∈ Finset.range n, (valueOf (t.getD i zero32) : ℝ) * Real.sin (2 * Real.pi * k * i / n)

/-- y[i] of R222, exactly. -/
def ExactInverse (n : Nat) (y : List Bin) (i : Nat) (v : ℝ) : Prop :=
  v = (valueOf (y.getD 0 (zero32, zero32)).1 : ℝ) + (-1) ^ i * (valueOf (y.getD (n / 2) (zero32, zero32)).1 : ℝ) +
    2 * ∑ k ∈ Finset.Ico 1 (n / 2),
      ((valueOf (y.getD k (zero32, zero32)).1 : ℝ) * Real.cos (2 * Real.pi * k * i / n) -
        (valueOf (y.getD k (zero32, zero32)).2 : ℝ) * Real.sin (2 * Real.pi * k * i / n))

/-- The complex modulus of a bin. -/
def Modulus (b : Bin) (v : ℝ) : Prop := v = Real.sqrt ((valueOf b.1 : ℝ) ^ 2 + (valueOf b.2 : ℝ) ^ 2)

/-- R16 (b) and (c), for finite inputs of N = 2^l samples and N/2 + 1 bins. -/
structure AccurateFft (num : NumChoice) : Prop where
  rfft : ∀ (l : Nat) (t : List F32) (k : Nat) (re im : ℝ), 2 ≤ l → t.length = 2 ^ l → (∀ v ∈ t, isFinite v = true) → k ≤ 2 ^ l / 2 →
    ExactRe (2 ^ l) t k re → ExactIm (2 ^ l) t k im →
    Near ((numRfft num (2 ^ l) t).getD k (zero32, zero32)).1 re
        (Config.epsFft * l * ∑ i ∈ Finset.range (2 ^ l), |(valueOf (t.getD i zero32) : ℝ)|) ∧
      Near ((numRfft num (2 ^ l) t).getD k (zero32, zero32)).2 im
        (Config.epsFft * l * ∑ i ∈ Finset.range (2 ^ l), |(valueOf (t.getD i zero32) : ℝ)|)
  irfft : ∀ (l : Nat) (y : List Bin) (i : Nat) (v : ℝ) (a : Nat → ℝ), 2 ≤ l → y.length = 2 ^ l / 2 + 1 →
    (∀ b ∈ y, isFinite b.1 = true ∧ isFinite b.2 = true) → i < 2 ^ l → ExactInverse (2 ^ l) y i v →
    (∀ k, Modulus (y.getD k (zero32, zero32)) (a k)) →
    Near ((numIrfft num (2 ^ l) y).getD i zero32) v
      (Config.epsFft * l * (a 0 + a (2 ^ l / 2) + 2 * ∑ k ∈ Finset.Ico 1 (2 ^ l / 2), a k))

end Sys2Proof.Machine
end

