-- ==== Sys2Proof/Laws/NumRef.lean ====
section
/-! SUPPORT. The exact comparisons of NUM_ref (spec/00_scope.md R15, assumption 6): what stands behind a rounding that no enclosure
settles is the sign of a real sum of cosines, and the size of a real power. -/

namespace Sys2Proof.Machine

/-! ### Sums of cosines -/

/-- Σ c_i·f(k + i). -/
noncomputable def weightedSum (f : Nat → ℝ) : Nat → List Int → ℝ
  | _, [] => 0
  | k, x :: l => x * f k + weightedSum f (k + 1) l

/-- The sum of cosines that a list of coefficients stands for. -/
noncomputable def cosSum (θ : ℝ) (c : List Int) : ℝ := weightedSum (fun q => Real.cos (q * θ)) 0 c

/-- Places shifted by one. -/
theorem weightedSum_shift (f : Nat → ℝ) (l : List Int) (k : Nat) :
    weightedSum f (k + 1) l = weightedSum (fun q => f (q + 1)) k l := by
  induction l generalizing k with
  | nil => rfl
  | cons x l ih => simp only [weightedSum, ih]

theorem splitPlaces_length (c : List Int) :
    (splitPlaces c).1.length = (c.length + 1) / 2 ∧ (splitPlaces c).2.length = c.length / 2 := by
  induction c with
  | nil => simp [splitPlaces]
  | cons x l ih => simp only [splitPlaces, List.length_cons]; omega

/-- A sum is its even places and its odd places. -/
theorem weightedSum_splitPlaces (f : Nat → ℝ) (c : List Int) :
    weightedSum f 0 c = weightedSum (fun q => f (2 * q)) 0 (splitPlaces c).1 +
      weightedSum (fun q => f (2 * q + 1)) 0 (splitPlaces c).2 := by
  induction c generalizing f with
  | nil => simp [splitPlaces, weightedSum]
  | cons x l ih =>
    simp only [splitPlaces, weightedSum, Nat.mul_zero, weightedSum_shift]
    rw [ih fun q => f (q + 1)]
    simp only [Nat.mul_add]
    ring

theorem alternatingTails_length (o : List Int) : (alternatingTails o).length = o.length := by
  induction o with
  | nil => rfl
  | cons x l ih => simpa [alternatingTails] using ih

theorem oddQuotient_length (o : List Int) : (oddQuotient o).length = o.length := by
  have h := alternatingTails_length o
  unfold oddQuotient
  split
  · rename_i e; rw [e] at h; simpa using h
  · rename_i e; rw [e] at h; simpa using h

theorem weightedSum_scale (f : Nat → ℝ) (a : ℤ) (l : List Int) (k : Nat) :
    weightedSum f k (l.map (a * ·)) = a * weightedSum f k l := by
  induction l generalizing k with
  | nil => simp [weightedSum]
  | cons x l ih => simp only [List.map_cons, weightedSum, ih]; push_cast; ring

/-- Two neighbouring odd multiples of an angle. -/
theorem cos_odd_split (θ : ℝ) (k : Nat) :
    Real.cos θ * (2 * Real.cos ((k + 1 : ℕ) * (2 * θ))) =
      Real.cos ((2 * (k + 1) + 1 : ℕ) * θ) + Real.cos ((2 * k + 1 : ℕ) * θ) := by
  rw [Real.cos_add_cos]; push_cast; ring_nf

/-- The tails of an odd sum: with x_i the alternating tails, 2cos θ·Σ x_i·cos(2iθ) from i = k + 1 on is the odd sum, and x_{k+1} at its
lower end. -/
theorem alternatingTails_sum (θ : ℝ) (o : List Int) (k : Nat) :
    weightedSum (fun q => Real.cos ((2 * q + 1 : ℕ) * θ)) (k + 1) o =
      Real.cos θ * (2 * weightedSum (fun q => Real.cos (q * (2 * θ))) (k + 1) (alternatingTails o)) -
        ((alternatingTails o).headD 0 : ℤ) * Real.cos ((2 * k + 1 : ℕ) * θ) := by
  induction o generalizing k with
  | nil => simp [alternatingTails, weightedSum]
  | cons x l ih =>
    have e : alternatingTails (x :: l) = (x - (alternatingTails l).headD 0) :: alternatingTails l := rfl
    have h := cos_odd_split θ k
    simp only [e, weightedSum, ih, List.headD_cons]
    push_cast at h ⊢
    linear_combination (-((x : ℝ) - ((alternatingTails l).headD 0 : ℤ))) * h

/-- A sum over odd multiples of θ is cos θ times a sum over multiples of 2θ. -/
theorem oddQuotient_sum (θ : ℝ) (o : List Int) :
    weightedSum (fun q => Real.cos ((2 * q + 1 : ℕ) * θ)) 0 o = Real.cos θ * cosSum (2 * θ) (oddQuotient o) := by
  cases o with
  | nil => simp [oddQuotient, alternatingTails, cosSum, weightedSum]
  | cons x l =>
    have e : oddQuotient (x :: l) = (x - (alternatingTails l).headD 0) :: (alternatingTails l).map (2 * ·) := rfl
    have h := alternatingTails_sum θ l 0
    simp only [cosSum, e, weightedSum, weightedSum_scale, h]
    push_cast
    simp only [zero_mul, Real.cos_zero, one_mul]
    ring

/-- A sum of cosines in terms of sums over the doubled angle. -/
theorem cosSum_split (θ : ℝ) (c : List Int) :
    cosSum θ c = cosSum (2 * θ) (splitPlaces c).1 + Real.cos θ * cosSum (2 * θ) (oddQuotient (splitPlaces c).2) := by
  rw [← oddQuotient_sum, cosSum, weightedSum_splitPlaces, cosSum]
  congr 2
  funext q; push_cast; ring_nf

/-- A place overwritten. -/
theorem weightedSum_set (f : Nat → ℝ) (l : List Int) (v : Int) (q k : Nat) (h : q < l.length) :
    weightedSum f k (l.set q v) = weightedSum f k l + (v - (l.getD q 0 : ℤ)) * f (k + q) := by
  induction l generalizing q k with
  | nil => simp at h
  | cons x l ih =>
    cases q with
    | zero => simp [weightedSum]; ring
    | succ q =>
      simp only [List.set_cons_succ, weightedSum, List.getD_cons_succ, ih q (k + 1) (by simpa using h)]
      rw [Nat.add_right_comm k 1 q, Nat.add_assoc]; ring

theorem weightedSum_zeros (f : Nat → ℝ) (m k : Nat) : weightedSum f k (List.replicate m 0) = 0 := by
  induction m generalizing k with
  | zero => rfl
  | succ m ih => simp [List.replicate_succ, weightedSum, ih]

/-- The angle 2π/n. -/
noncomputable def turnPart (n : Nat) : ℝ := 2 * Real.pi / n

theorem cos_mod (n j : Nat) (h : 0 < n) : Real.cos ((j % n : ℕ) * turnPart n) = Real.cos (j * turnPart n) := by
  have hn : (n : ℝ) ≠ 0 := by exact_mod_cast h.ne'
  conv_rhs => rw [← Nat.div_add_mod j n]
  have e : ((n * (j / n) + j % n : ℕ) : ℝ) * turnPart n = (j % n : ℕ) * turnPart n + (j / n : ℕ) * (2 * Real.pi) := by
    unfold turnPart; push_cast; field_simp; ring
  rw [e, Real.cos_add_nat_mul_two_pi]

theorem cos_rest (n a : Nat) (h : 0 < n) (ha : a ≤ n) : Real.cos ((n - a : ℕ) * turnPart n) = Real.cos (a * turnPart n) := by
  have hn : (n : ℝ) ≠ 0 := by exact_mod_cast h.ne'
  have e : ((n - a : ℕ) : ℝ) * turnPart n = 2 * Real.pi - a * turnPart n := by
    rw [Nat.cast_sub ha]; unfold turnPart; field_simp
  rw [e, Real.cos_two_pi_sub]

theorem cos_half (m a : Nat) (h : 0 < m) (ha : a ≤ 2 * m) :
    Real.cos ((2 * m - a : ℕ) * turnPart (4 * m)) = -Real.cos (a * turnPart (4 * m)) := by
  have hn : (m : ℝ) ≠ 0 := by exact_mod_cast h.ne'
  have e : ((2 * m - a : ℕ) : ℝ) * turnPart (4 * m) = Real.pi - a * turnPart (4 * m) := by
    rw [Nat.cast_sub ha]; unfold turnPart; push_cast; field_simp; ring
  rw [e, Real.cos_pi_sub]

/-- cos(2π·j/n) by the entry of the table that `foldIndex` names. -/
theorem cos_foldIndex (m j : Nat) (h : 0 < m) :
    match foldIndex (4 * m) j with
    | none => Real.cos (j * turnPart (4 * m)) = 0
    | some (neg, q) => q < m ∧ Real.cos (j * turnPart (4 * m)) = if neg then -Real.cos (q * turnPart (4 * m))
      else Real.cos (q * turnPart (4 * m)) := by
  have h4 : 0 < 4 * m := by omega
  have hlt := Nat.mod_lt j h4
  obtain ⟨a, ha, hcos, hfold⟩ : ∃ a, 2 * a ≤ 4 * m ∧ Real.cos (j * turnPart (4 * m)) = Real.cos (a * turnPart (4 * m)) ∧
      foldIndex (4 * m) j = if 4 * a = 4 * m then none else if 4 * m < 4 * a then some (true, 4 * m / 2 - a) else some (false, a) := by
    by_cases hc : 4 * m < 2 * (j % (4 * m))
    · exact ⟨4 * m - j % (4 * m), by omega, by rw [cos_rest _ _ h4 hlt.le, cos_mod _ _ h4], by simp only [foldIndex, if_pos hc]⟩
    · exact ⟨j % (4 * m), by omega, by rw [cos_mod _ _ h4], by simp only [foldIndex, if_neg hc]⟩
  rw [hfold]
  by_cases h1 : 4 * a = 4 * m
  · obtain rfl : a = m := by omega
    have hn : (a : ℝ) ≠ 0 := by exact_mod_cast h.ne'
    simp only [if_true, hcos]
    have e : (a : ℝ) * turnPart (4 * a) = Real.pi / 2 := by unfold turnPart; push_cast; field_simp; ring
    rw [e, Real.cos_pi_div_two]
  · by_cases h2 : 4 * m < 4 * a
    · simp only [if_neg h1, if_pos h2, if_true]
      have e : 4 * m / 2 = 2 * m := by omega
      rw [e, cos_half m a h (by omega), neg_neg]
      exact ⟨by omega, hcos⟩
    · simp only [if_neg h1, if_neg h2]
      exact ⟨by omega, by simpa using hcos⟩

/-- Σ t·cos(2π·j/n) over the terms (t, j). -/
noncomputable def termSum (n : Nat) : List (Int × Nat) → ℝ
  | [] => 0
  | t :: l => t.1 * Real.cos (t.2 * turnPart n) + termSum n l

theorem termSum_append (n : Nat) (a b : List (Int × Nat)) : termSum n (a ++ b) = termSum n a + termSum n b := by
  induction a with
  | nil => simp [termSum]
  | cons t a ih => simp only [List.cons_append, termSum, ih]; ring

/-- One term more. -/
theorem addCosTerm_sum (m : Nat) (acc : Array Int) (t : Int × Nat) (h : 0 < m) (ha : acc.size = m) :
    (addCosTerm (4 * m) acc t).size = m ∧
    cosSum (turnPart (4 * m)) (addCosTerm (4 * m) acc t).toList =
      cosSum (turnPart (4 * m)) acc.toList + t.1 * Real.cos (t.2 * turnPart (4 * m)) := by
  have hc := cos_foldIndex m t.2 h
  unfold addCosTerm
  rcases e : foldIndex (4 * m) t.2 with _ | ⟨neg, q⟩ <;> simp only [e] at hc ⊢
  · exact ⟨ha, by rw [hc, mul_zero, add_zero]⟩
  · have hq : q < acc.toList.length := by simpa [ha] using hc.1
    refine ⟨by simp [ha], ?_⟩
    rw [Array.toList_setIfInBounds, cosSum, cosSum, weightedSum_set _ _ _ _ _ hq, hc.2]
    have eg : acc.getD q 0 = acc.toList.getD q 0 := by simp [List.getD_eq_getElem?_getD]
    rw [eg]
    cases neg <;> simp

/-- The coefficients stand for the same sum as the terms. -/
theorem cosCoefficients_sum (m : Nat) (terms : List (Int × Nat)) (h : 0 < m) :
    (cosCoefficients (4 * m) terms).length = m ∧
    cosSum (turnPart (4 * m)) (cosCoefficients (4 * m) terms) = termSum (4 * m) terms := by
  have key : ∀ (terms : List (Int × Nat)) (acc : Array Int), acc.size = m →
      (terms.foldl (addCosTerm (4 * m)) acc).size = m ∧
      cosSum (turnPart (4 * m)) (terms.foldl (addCosTerm (4 * m)) acc).toList =
        cosSum (turnPart (4 * m)) acc.toList + termSum (4 * m) terms := by
    intro terms
    induction terms with
    | nil => intro acc ha; simp [termSum, ha]
    | cons t l ih =>
      intro acc ha
      obtain ⟨h1, h2⟩ := addCosTerm_sum m acc t h ha
      obtain ⟨h3, h4⟩ := ih _ h1
      exact ⟨h3, by rw [List.foldl_cons, h4, h2, termSum]; ring⟩
  have hk := key terms (Array.replicate m 0) (by simp)
  have e : 4 * m / 4 = m := by omega
  unfold cosCoefficients
  rw [e]
  exact ⟨by simpa using hk.1, by rw [hk.2]; simp [cosSum, weightedSum_zeros]⟩

/-- The two cosines of a product. -/
theorem cos_twice (n i j : Nat) (h : 0 < n) (hj : j ≤ n) :
    Real.cos ((i + j : ℕ) * turnPart n) + Real.cos ((i + n - j : ℕ) * turnPart n) =
      2 * Real.cos (i * turnPart n) * Real.cos (j * turnPart n) := by
  have hn : (n : ℝ) ≠ 0 := by exact_mod_cast h.ne'
  have e : ((i + n - j : ℕ) : ℝ) * turnPart n = (i * turnPart n - j * turnPart n) + 2 * Real.pi := by
    rw [Nat.cast_sub (by omega)]; unfold turnPart; push_cast; field_simp; ring
  rw [e, Real.cos_add_two_pi]
  push_cast
  rw [add_mul, Real.cos_add, Real.cos_sub]; ring

/-- One coefficient times a sum, doubled. -/
theorem twiceProduct_row (n : Nat) (x : Int) (i : Nat) (b : List Int) (k : Nat) (h : 0 < n) (hb : k + b.length ≤ n) :
    termSum n ((b.zipIdx k).flatMap fun q => [(x * q.1, i + q.2), (x * q.1, i + n - q.2)]) =
      2 * (x * Real.cos (i * turnPart n)) * weightedSum (fun q => Real.cos (q * turnPart n)) k b := by
  induction b generalizing k with
  | nil => simp [termSum, weightedSum]
  | cons y b ih =>
    simp only [List.length_cons] at hb
    have hc := cos_twice n i k h (by omega)
    simp only [List.zipIdx_cons, List.flatMap_cons, List.cons_append, List.nil_append, termSum, weightedSum, ih (k + 1) (by omega)]
    push_cast at hc ⊢
    linear_combination ((x : ℝ) * y) * hc

/-- `twiceProduct` stands for twice the product. -/
theorem twiceProduct_sum (m : Nat) (a b : List Int) (h : 0 < m) (hb : b.length ≤ 4 * m) :
    (twiceProduct (4 * m) a b).length = m ∧
    cosSum (turnPart (4 * m)) (twiceProduct (4 * m) a b) =
      2 * cosSum (turnPart (4 * m)) a * cosSum (turnPart (4 * m)) b := by
  refine ⟨(cosCoefficients_sum m _ h).1, ?_⟩
  rw [twiceProduct, (cosCoefficients_sum m _ h).2]
  have key : ∀ (a : List Int) (k : Nat),
      termSum (4 * m) ((a.zipIdx k).flatMap fun p => b.zipIdx.flatMap fun q => [(p.1 * q.1, p.2 + q.2), (p.1 * q.1, p.2 + 4 * m - q.2)]) =
        2 * weightedSum (fun q => Real.cos (q * turnPart (4 * m))) k a * cosSum (turnPart (4 * m)) b := by
    intro a
    induction a with
    | nil => intro k; simp [termSum, weightedSum]
    | cons x a ih =>
      intro k
      simp only [List.zipIdx_cons, List.flatMap_cons, termSum_append, weightedSum, ih (k + 1),
        twiceProduct_row (4 * m) x k b 0 (by omega) (by omega)]
      unfold cosSum; ring
  exact key a 0

theorem weightedSum_zipWith (f : Nat → ℝ) (a b : List Int) (k : Nat) (h : a.length = b.length) :
    weightedSum f k (List.zipWith (fun x y => 4 * x - y) a b) = 4 * weightedSum f k a - weightedSum f k b := by
  induction a generalizing b k with
  | nil => cases b <;> simp_all [weightedSum]
  | cons x a ih =>
    cases b with
    | nil => simp at h
    | cons y b =>
      simp only [List.zipWith_cons_cons, weightedSum, ih b (k + 1) (by simpa using h)]
      push_cast; ring

theorem cosSum_one_one (n : Nat) : cosSum (turnPart n) [1, 1] = 1 + Real.cos (turnPart n) := by
  simp [cosSum, weightedSum]

/-! ### The sign of a sum -/

/-- s is the sign of v. -/
def SignIs (s : Int) (v : ℝ) : Prop := (s = 1 ∧ 0 < v) ∨ (s = 0 ∧ v = 0) ∨ (s = -1 ∧ v < 0)

theorem SignIs.mul {s t : Int} {v w : ℝ} (hs : SignIs s v) (ht : SignIs t w) : SignIs (s * t) (v * w) := by
  rcases hs with ⟨rfl, h⟩ | ⟨rfl, h⟩ | ⟨rfl, h⟩ <;> rcases ht with ⟨rfl, k⟩ | ⟨rfl, k⟩ | ⟨rfl, k⟩
  · exact .inl ⟨rfl, mul_pos h k⟩
  · exact .inr (.inl ⟨rfl, by rw [k, mul_zero]⟩)
  · exact .inr (.inr ⟨rfl, mul_neg_of_pos_of_neg h k⟩)
  · exact .inr (.inl ⟨rfl, by rw [h, zero_mul]⟩)
  · exact .inr (.inl ⟨rfl, by rw [h, zero_mul]⟩)
  · exact .inr (.inl ⟨rfl, by rw [h, zero_mul]⟩)
  · exact .inr (.inr ⟨rfl, mul_neg_of_neg_of_pos h k⟩)
  · exact .inr (.inl ⟨rfl, by rw [k, mul_zero]⟩)
  · exact .inl ⟨rfl, mul_pos_of_neg_of_neg h k⟩

theorem SignIs.of_mul_pos {s : Int} {v w : ℝ} (hw : 0 < w) (h : SignIs s (w * v)) : SignIs s v := by
  rcases h with ⟨rfl, h⟩ | ⟨rfl, h⟩ | ⟨rfl, h⟩
  · exact .inl ⟨rfl, (mul_pos_iff_of_pos_left hw).1 h⟩
  · exact .inr (.inl ⟨rfl, (mul_eq_zero.1 h).resolve_left hw.ne'⟩)
  · exact .inr (.inr ⟨rfl, (pos_iff_neg_of_mul_neg h).1 hw⟩)

/-- The sign of v + w from the signs of v, w and v² - w². -/
theorem signIs_add {s t d : Int} {v w : ℝ} (hs : SignIs s v) (ht : SignIs t w) (hd : SignIs d ((v - w) * (v + w))) :
    SignIs (if s = 0 then t else if t = 0 ∨ s = t then s else s * d) (v + w) := by
  rcases hs with ⟨rfl, h⟩ | ⟨rfl, h⟩ | ⟨rfl, h⟩ <;> rcases ht with ⟨rfl, k⟩ | ⟨rfl, k⟩ | ⟨rfl, k⟩
  · exact .inl ⟨rfl, by linarith⟩
  · exact .inl ⟨rfl, by linarith⟩
  · exact SignIs.of_mul_pos (w := v - w) (by linarith) (by simpa using hd)
  · exact .inl ⟨rfl, by linarith⟩
  · exact .inr (.inl ⟨rfl, by linarith⟩)
  · exact .inr (.inr ⟨rfl, by linarith⟩)
  · have h1 : SignIs (-1) (-1 : ℝ) := .inr (.inr ⟨rfl, by norm_num⟩)
    have h2 := h1.mul hd
    exact SignIs.of_mul_pos (w := w - v) (by linarith) (by simpa [show (w - v) * (v + w) = -1 * ((v - w) * (v + w)) by ring] using h2)
  · exact .inr (.inr ⟨rfl, by linarith⟩)
  · exact .inr (.inr ⟨rfl, by linarith⟩)

/-- `cosSumSign` is the sign of the sum it is given. -/
theorem cosSumSign_spec (j : Nat) (c : List Int) (h : c.length = 2 ^ j) :
    SignIs (cosSumSign j c) (cosSum (turnPart (4 * 2 ^ j)) c) := by
  induction j generalizing c with
  | zero =>
    obtain ⟨x, rfl⟩ : ∃ x, c = [x] := List.length_eq_one_iff.1 (by simpa using h)
    simp only [cosSumSign, List.headD_cons, cosSum, weightedSum, SignIs]
    rcases lt_trichotomy x 0 with hx | hx | hx
    · right; right; simpa [Int.sign_eq_neg_one_of_neg hx] using hx
    · right; left; simp [hx]
    · left; simpa [Int.sign_eq_one_of_pos hx] using hx
  | succ j ih =>
    have hm : 0 < 2 ^ j := by positivity
    set n := 4 * 2 ^ j with hn
    have hθ : 2 * turnPart (4 * 2 ^ (j + 1)) = turnPart n := by
      rw [hn]; unfold turnPart; push_cast; field_simp; ring
    obtain ⟨l1, l2⟩ := splitPlaces_length c
    have la : (splitPlaces c).1.length = 2 ^ j := by rw [l1, h, pow_succ]; omega
    have lb : (oddQuotient (splitPlaces c).2).length = 2 ^ j := by rw [oddQuotient_length, l2, h, pow_succ]; omega
    rw [cosSum_split, hθ]
    simp only [cosSumSign]
    rw [← hn]
    set a := (splitPlaces c).1
    set b := oddQuotient (splitPlaces c).2
    set θ := turnPart (4 * 2 ^ (j + 1)) with hθd
    have hcos : 0 < Real.cos θ := by
      apply Real.cos_pos_of_mem_Ioo
      have hp := Real.pi_pos
      have h8 : (8 : ℝ) ≤ 4 * 2 ^ (j + 1) := by
        have : (1 : ℝ) ≤ 2 ^ j := one_le_pow₀ (by norm_num)
        rw [pow_succ]; linarith
      have h1 : 0 < θ := by rw [hθd]; unfold turnPart; push_cast; positivity
      have h2 : θ ≤ 2 * Real.pi / 8 := by
        rw [hθd]; unfold turnPart; push_cast
        exact div_le_div_of_nonneg_left (by positivity) (by norm_num) h8
      constructor <;> linarith
    have ha := ih a la
    have hb := ih b lb
    obtain ⟨lB, eB⟩ := twiceProduct_sum (2 ^ j) b b hm (by omega)
    obtain ⟨lC, eC⟩ := twiceProduct_sum (2 ^ j) [1, 1] (twiceProduct n b b) hm (by rw [← hn] at lB; omega)
    obtain ⟨lA, eA⟩ := twiceProduct_sum (2 ^ j) a a hm (by omega)
    rw [← hn] at lA lB lC eA eB eC
    have hd := ih (List.zipWith (fun x y => 4 * x - y) (twiceProduct n a a) (twiceProduct n [1, 1] (twiceProduct n b b)))
      (by rw [List.length_zipWith, lA, lC, min_self])
    have eD : cosSum (turnPart n) (List.zipWith (fun x y => 4 * x - y) (twiceProduct n a a) (twiceProduct n [1, 1] (twiceProduct n b b))) =
        8 * ((cosSum (turnPart n) a) ^ 2 - (Real.cos θ * cosSum (turnPart n) b) ^ 2) := by
      have e2 : Real.cos (turnPart n) = 2 * Real.cos θ ^ 2 - 1 := by rw [← hθ, Real.cos_two_mul]
      rw [cosSum, weightedSum_zipWith _ _ _ _ (by rw [lA, lC]), ← cosSum, ← cosSum, eA, eC, eB, cosSum_one_one, e2]; ring
    rw [eD] at hd
    generalize cosSumSign j (List.zipWith (fun x y => 4 * x - y) (twiceProduct n a a)
      (twiceProduct n [1, 1] (twiceProduct n b b))) = sd at hd ⊢
    generalize cosSumSign j a = sa at ha ⊢
    generalize cosSumSign j b = sb at hb ⊢
    generalize cosSum (turnPart n) a = A at ha hd ⊢
    generalize cosSum (turnPart n) b = B at hb hd ⊢
    generalize Real.cos θ = w at hcos hd ⊢
    have hb' : SignIs sb (w * B) := by
      rcases hb with ⟨rfl, h⟩ | ⟨rfl, h⟩ | ⟨rfl, h⟩
      · exact .inl ⟨rfl, mul_pos hcos h⟩
      · exact .inr (.inl ⟨rfl, by rw [h, mul_zero]⟩)
      · exact .inr (.inr ⟨rfl, mul_neg_of_pos_of_neg hcos h⟩)
    generalize w * B = C at hb' hd ⊢
    have hd' : SignIs sd ((A - C) * (A + C)) := by
      rcases hd with ⟨e, h⟩ | ⟨e, h⟩ | ⟨e, h⟩
      · exact .inl ⟨e, by linarith⟩
      · exact .inr (.inl ⟨e, by linarith⟩)
      · exact .inr (.inr ⟨e, by linarith⟩)
    exact signIs_add ha hb' hd'
/-! ### Rounding by comparison -/

/-- `midpointSearch` finds the magnitude between two neighbouring midpoints: all below it are exceeded, the one above it is not. -/
theorem midpointSearch_spec (above : Nat → Bool)
    (hmono : ∀ i k, i ≤ k → k < infBits → above k = true → above i = true) (k r : Nat)
    (hlow : ∀ i, i < r → above i = true) (hr : r ≤ infBits) (hhigh : ∀ i, r + 2 ^ k ≤ i + 1 → i < infBits → above i = false) :
    let v := midpointSearch above k r
    (∀ i, i < v → above i = true) ∧ v ≤ infBits ∧ ∀ i, v ≤ i → i < infBits → above i = false := by
  induction k generalizing r with
  | zero => exact ⟨hlow, hr, fun i h1 h2 => hhigh i (Nat.succ_le_succ h1) h2⟩
  | succ k ih =>
    have hp : 0 < 2 ^ k := by positivity
    simp only [midpointSearch]
    by_cases hc : (r + 2 ^ k ≤ infBits && above (r + 2 ^ k - 1)) = true
    · simp only [hc, if_true]
      simp only [Bool.and_eq_true, decide_eq_true_eq] at hc
      exact ih _ (fun i hi => hmono i _ (by omega) (by omega) hc.2) hc.1 fun i h1 h2 => hhigh i (by rw [pow_succ]; omega) h2
    · simp only [if_neg hc]
      refine ih r hlow hr fun i h1 h2 => ?_
      by_contra hne
      apply hc
      simp only [Bool.and_eq_true, decide_eq_true_eq]
      exact ⟨by omega, hmono _ i (by omega) h2 (by simpa using hne)⟩

/-- Started over all magnitudes, the search gives the number of midpoints of finite magnitudes that are exceeded. -/
theorem roundByMidpoints_spec (neg : Bool) (above : Nat → Bool)
    (hmono : ∀ i k, i ≤ k → k < infBits → above k = true → above i = true) :
    ∃ v, v ≤ infBits ∧ roundByMidpoints neg above = withSign neg v ∧ (∀ i, i < v → above i = true) ∧
      ∀ i, v ≤ i → i < infBits → above i = false := by
  obtain ⟨h1, h2, h3⟩ := midpointSearch_spec above hmono 31 0 (by omega) (by decide) (by
    intro i h1 h2; unfold infBits at h2; omega)
  exact ⟨_, h2, rfl, h1, h3⟩

/-- `sumAbove` compares the size of a sum with a midpoint, both in units of 2^-150. -/
theorem sumAbove_iff (j : Nat) (c : List Int) (sg : Int) (r : Nat) (h : c.length = 2 ^ j) :
    sumAbove (4 * 2 ^ j) c sg r = true ↔ (midpoint r : ℝ) < 2 * (sg * cosSum (turnPart (4 * 2 ^ j)) c) := by
  have hj : Nat.log2 (4 * 2 ^ j) - 2 = j := by
    rw [show 4 * 2 ^ j = 2 ^ (j + 2) by rw [pow_add]; ring, Nat.log2_two_pow]; omega
  cases c with
  | nil => simp at h; exact absurd h (by positivity)
  | cons x l =>
    have hs := cosSumSign_spec j ((2 * sg * x - midpoint r) :: l.map (2 * sg * ·)) (by simpa using h)
    have e : cosSum (turnPart (4 * 2 ^ j)) ((2 * sg * x - midpoint r) :: l.map (2 * sg * ·)) =
        2 * (sg * cosSum (turnPart (4 * 2 ^ j)) (x :: l)) - midpoint r := by
      simp only [cosSum, weightedSum, weightedSum_scale, Nat.cast_zero, zero_mul, Real.cos_zero]
      push_cast; ring
    rw [e] at hs
    simp only [sumAbove, List.map_cons, hj, decide_eq_true_eq]
    rcases hs with ⟨h1, h2⟩ | ⟨h1, h2⟩ | ⟨h1, h2⟩ <;> rw [h1]
    · exact ⟨fun _ => by linarith, fun _ => rfl⟩
    · exact ⟨fun h => absurd h (by decide), fun h => absurd h2 (by linarith)⟩
    · exact ⟨fun h => absurd h (by decide), fun h => absurd h2 (by linarith)⟩

/-- Magnitude bits order the magnitudes. -/
theorem magUnits_mono {r r' : Nat} (h : r ≤ r') (h' : r' < 2 ^ 31) : magUnits (BitVec.ofNat 32 r) ≤ magUnits (BitVec.ofNat 32 r') := by
  have bits : ∀ x, x < 2 ^ 31 → magBits (BitVec.ofNat 32 x) = x := fun x hx => by
    simp only [magBits, BitVec.toNat_ofNat]; omega
  simp only [magUnits, bits r (by omega), bits r' h']
  have hlt := Nat.mod_lt r (show 0 < 2 ^ 23 by decide)
  have hd := Nat.div_add_mod r (2 ^ 23)
  have hd' := Nat.div_add_mod r' (2 ^ 23)
  rcases (Nat.div_le_div_right h : r / 2 ^ 23 ≤ r' / 2 ^ 23).eq_or_lt with he | he
  · rw [← he] at hd' ⊢
    have hf : r % 2 ^ 23 ≤ r' % 2 ^ 23 := by omega
    split
    · exact hf
    · exact Nat.mul_le_mul_right _ (by omega)
  · rw [if_neg (show r' / 2 ^ 23 ≠ 0 by omega)]
    have hp : 0 < 2 ^ (r' / 2 ^ 23 - 1) := by positivity
    have hle : 2 ^ 23 ≤ (2 ^ 23 + r' % 2 ^ 23) * 2 ^ (r' / 2 ^ 23 - 1) :=
      Nat.le_trans (Nat.le_add_right _ _) (Nat.le_mul_of_pos_right _ hp)
    split
    · omega
    · have h1 : (2 ^ 23 + r % 2 ^ 23) * 2 ^ (r / 2 ^ 23 - 1) ≤ 2 ^ 24 * 2 ^ (r / 2 ^ 23 - 1) := Nat.mul_le_mul_right _ (by omega)
      have h2 : 2 ^ 24 * 2 ^ (r / 2 ^ 23 - 1) = 2 ^ 23 * 2 ^ (r / 2 ^ 23 - 1 + 1) := by rw [pow_succ]; ring
      have h3 : 2 ^ (r / 2 ^ 23 - 1 + 1) ≤ 2 ^ (r' / 2 ^ 23 - 1) := Nat.pow_le_pow_right (by decide) (by omega)
      have h4 : 2 ^ 23 * 2 ^ (r' / 2 ^ 23 - 1) ≤ (2 ^ 23 + r' % 2 ^ 23) * 2 ^ (r' / 2 ^ 23 - 1) :=
        Nat.mul_le_mul_right _ (by omega)
      have h5 := Nat.mul_le_mul_left (2 ^ 23) h3
      omega

theorem midpoint_mono {i k : Nat} (h : i ≤ k) (hk : k < infBits) : midpoint i ≤ midpoint k := by
  have hk' : k + 1 < 2 ^ 31 := by unfold infBits at hk; omega
  exact Nat.add_le_add (magUnits_mono h (by omega)) (magUnits_mono (by omega) hk')

/-- The sum's rounding by comparison: sign and magnitude, the magnitude being the number of midpoints that the sum's size exceeds. -/
theorem roundSumExactly_spec (j : Nat) (c : List Int) (h : c.length = 2 ^ j) :
    ∃ v, v ≤ infBits ∧ roundSumExactly (4 * 2 ^ j) c = withSign (decide (cosSum (turnPart (4 * 2 ^ j)) c < 0)) v ∧
      (∀ i, i < v → (midpoint i : ℝ) < 2 * |cosSum (turnPart (4 * 2 ^ j)) c|) ∧
      ∀ i, v ≤ i → i < infBits → 2 * |cosSum (turnPart (4 * 2 ^ j)) c| ≤ midpoint i := by
  have hj : Nat.log2 (4 * 2 ^ j) - 2 = j := by
    rw [show 4 * 2 ^ j = 2 ^ (j + 2) by rw [pow_add]; ring, Nat.log2_two_pow]; omega
  have hs := cosSumSign_spec j c h
  have hab := fun r => sumAbove_iff j c (cosSumSign j c) r h
  simp only [roundSumExactly, hj]
  generalize cosSumSign j c = sg at hs hab ⊢
  generalize cosSum (turnPart (4 * 2 ^ j)) c = v at hs hab ⊢
  have habs : (sg : ℝ) * v = |v| := by
    rcases hs with ⟨rfl, h⟩ | ⟨rfl, h⟩ | ⟨rfl, h⟩
    · simp [abs_of_pos h]
    · simp [h]
    · simp [abs_of_neg h]
  have hneg : decide (sg < 0) = decide (v < 0) := by
    rcases hs with ⟨rfl, h⟩ | ⟨rfl, h⟩ | ⟨rfl, h⟩
    · simp [h.le]
    · simp [h]
    · simp [h]
  rw [habs] at hab
  rw [hneg]
  obtain ⟨b, h1, h2, h3, h4⟩ := roundByMidpoints_spec (decide (v < 0)) (sumAbove (4 * 2 ^ j) c sg) fun i k hik hk hab' =>
    (hab i).2 (lt_of_le_of_lt (by exact_mod_cast midpoint_mono hik hk) ((hab k).1 hab'))
  exact ⟨b, h1, h2, fun i hi => (hab i).1 (h3 i hi), fun i h5 h6 => not_lt.1 fun h7 => by
    simpa [(hab i).2 h7] using h4 i h5 h6⟩

/-! ### Powers -/

/-- `oddPart` splits off powers of two. -/
theorem oddPart_spec (fuel v t : Nat) : (oddPart fuel v t).1 * 2 ^ (oddPart fuel v t).2 = v * 2 ^ t := by
  induction fuel generalizing v t with
  | zero => rfl
  | succ k ih =>
    simp only [oddPart]
    split
    · rw [ih, pow_succ]
      have hv : v = v / 2 * 2 := by omega
      conv_rhs => rw [hv]
      ring
    · rfl

/-- An integer power of two as a quotient of natural ones. -/
theorem two_zpow (x : Int) : (2 : ℝ) ^ x * 2 ^ (-x).toNat = 2 ^ x.toNat := by
  rw [← zpow_natCast, ← zpow_natCast, ← zpow_add₀ (by norm_num)]
  congr 1; omega

/-- A positive finite number as `oddPart` splits it. -/
theorem magUnits_oddPart (x : F32) :
    (magUnits x : ℝ) / 2 ^ 149 = (oddPart 300 (magUnits x) 0).1 * 2 ^ (((oddPart 300 (magUnits x) 0).2 : ℤ) - 149) := by
  have h : ((oddPart 300 (magUnits x) 0).1 : ℝ) * 2 ^ (oddPart 300 (magUnits x) 0).2 = magUnits x := by
    exact_mod_cast (by simpa using oddPart_spec 300 (magUnits x) 0)
  rw [← h, zpow_sub₀ (by norm_num), zpow_natCast]
  norm_num; ring

/-- Every midpoint of finite magnitudes is positive. -/
theorem midpoint_pos {r : Nat} (h : r < infBits) : 0 < midpoint r :=
  Nat.lt_of_lt_of_le (show 0 < midpoint 0 by decide) (midpoint_mono (Nat.zero_le r) h)

/-- `powAbove` compares a power with a midpoint. -/
theorem powAbove_iff (b y : F32) (r : Nat) (hb : signBit b = false) (hb0 : 0 < magUnits b) (hr : 0 < midpoint r) :
    powAbove b y r = true ↔ (midpoint r : ℝ) / 2 ^ 150 < (valueOf b : ℝ) ^ (valueOf y : ℝ) := by
  have vb : (valueOf b : ℝ) = (magUnits b : ℝ) / 2 ^ 149 := by simp [valueOf, units, hb]
  have vy : (valueOf y : ℝ) = (if signBit y then -1 else 1) * ((magUnits y : ℝ) / 2 ^ 149) := by
    unfold valueOf units; split <;> push_cast <;> ring
  have hbp : (0 : ℝ) < (magUnits b : ℝ) / 2 ^ 149 := by positivity
  rw [vb, vy]
  have eb := magUnits_oddPart b
  have ey := magUnits_oddPart y
  rw [eb] at hbp ⊢
  rw [ey]
  simp only [powAbove]
  generalize (oddPart 300 (magUnits b) 0).1 = m at *
  generalize ((oddPart 300 (magUnits b) 0).2 : ℤ) - 149 = e at *
  generalize (oddPart 300 (magUnits y) 0).1 = s at *
  generalize ((oddPart 300 (magUnits y) 0).2 : ℤ) - 149 = t at *
  generalize midpoint r = d at *
  have hm : (0 : ℝ) < m := by
    have h2 : (0 : ℝ) < 2 ^ e := by positivity
    exact (pos_iff_pos_of_mul_pos hbp).2 h2
  have hd : (0 : ℝ) < d := by exact_mod_cast hr
  have hk : 2 ^ (-t).toNat ≠ 0 := by positivity
  have hkt : (s : ℝ) * 2 ^ t * ((2 ^ (-t).toNat : ℕ) : ℝ) = ((s * 2 ^ t.toNat : ℕ) : ℝ) := by
    push_cast; rw [mul_assoc, two_zpow]
  generalize 2 ^ (-t).toNat = k at *
  generalize s * 2 ^ t.toNat = n at *
  have hpow : (((m : ℝ) * 2 ^ e) ^ ((if signBit y then -1 else 1) * ((s : ℝ) * 2 ^ t))) ^ k =
      ((m : ℝ) * 2 ^ e) ^ ((if signBit y then -1 else 1 : ℤ) * (n : ℤ)) := by
    generalize (m : ℝ) * 2 ^ e = B at hbp
    rw [← Real.rpow_natCast, ← Real.rpow_mul hbp.le, mul_assoc, hkt, ← Real.rpow_intCast]
    congr 1; push_cast; split <;> simp
  rw [← pow_lt_pow_iff_left₀ (by positivity) (Real.rpow_nonneg hbp.le _) hk, hpow]
  have hsplit : ∀ z : ℤ, (d / 2 ^ 150 : ℝ) ^ k < ((m : ℝ) * 2 ^ e) ^ z ↔
      (d : ℝ) ^ k * 2 ^ (-(e * z + 150 * k)).toNat < (m : ℝ) ^ z * 2 ^ (e * z + 150 * k).toNat := by
    intro z
    have h2 : (0 : ℝ) < 2 ^ (-(e * z + 150 * k)).toNat := by positivity
    have h150 : (2 : ℝ) ^ (e * z + 150 * (k : ℤ)) = 2 ^ (e * z) * (2 ^ 150) ^ k := by
      rw [zpow_add₀ (by norm_num)]; congr 1; rw [← pow_mul, ← zpow_natCast]; push_cast; rfl
    rw [← two_zpow (e * z + 150 * k), h150, div_pow, div_lt_iff₀ (by positivity), mul_zpow, ← zpow_mul, ← mul_lt_mul_iff_left₀ h2]
    ring_nf
  rw [hsplit]
  cases signBit y
  · have ex : e * (n : ℤ) * 1 + 150 * k = e * (1 * n) + 150 * k := by ring
    simp only [Bool.false_eq_true, if_false, ex, decide_eq_true_eq, one_mul, zpow_natCast]
    norm_cast
  · have ex : e * (n : ℤ) * -1 + 150 * k = e * (-1 * n) + 150 * k := by ring
    simp only [if_true, ex, decide_eq_true_eq]
    have hmn : (0 : ℝ) < (m : ℝ) ^ n := by positivity
    rw [neg_one_mul, zpow_neg, zpow_natCast, ← mul_lt_mul_iff_right₀ hmn, ← mul_assoc, ← mul_assoc ((m : ℝ) ^ n) (_)⁻¹,
      mul_inv_cancel₀ hmn.ne', one_mul, mul_comm ((m : ℝ) ^ n)]
    norm_cast

end Sys2Proof.Machine
end

