-- ==== Sys2Proof/Laws/PerInstr.lean ====
section
/-! SUPPORT. Per-instruction families: one lemma per constructor of `Instr`. -/

namespace Sys2Proof.Laws

/-- A command passes every operand check, and its line assembles to it (spec/30_encoding.md R118). -/
def AssemblesBack.Statement (i : Instr) : Prop := i.wellFormed = true ∧ i.source.assemble 0 = some i

theorem regOk_val (r : Reg) : regOk r.val = true := by
  simp [regOk, r.isLt]

theorem wordOk_toNat (v : Word) : wordOk (v.toNat : Int) = true := by
  have := v.isLt
  simp only [wordOk, Bool.and_eq_true, decide_eq_true_eq]
  omega

theorem simmOk_toNat (v : Word) : simmOk (v.toNat : Int) = true := by
  have := v.isLt
  simp only [simmOk, Bool.and_eq_true, decide_eq_true_eq]
  omega

theorem flagOk_toNat (b : Bool) : flagOk b.toNat = true := by cases b <;> rfl

theorem AssemblesBack.nop : Statement .nop := ⟨rfl, rfl⟩

theorem AssemblesBack.halt : Statement .halt := ⟨rfl, rfl⟩

theorem AssemblesBack.init : Statement .init := ⟨rfl, rfl⟩

theorem AssemblesBack.seta (ra : Reg) (imm : Word) : Statement (.seta ra imm) := by
  simp [Statement, Instr.wellFormed, Source.assemble, Instr.source, Source.wellFormed, Source.command, regOk_val]

theorem AssemblesBack.adda (ra : Reg) (imm : Word) : Statement (.adda ra imm) := by
  simp [Statement, Instr.wellFormed, Source.assemble, Instr.source, Source.wellFormed, Source.command, regOk_val, simmOk_toNat]

theorem AssemblesBack.jmp (imm : Word) : Statement (.jmp imm) := by
  simp [Statement, Instr.wellFormed, Source.assemble, Instr.source, Source.wellFormed, Source.command, wordOk_toNat]

theorem AssemblesBack.djnz (ra : Reg) (imm : Word) : Statement (.djnz ra imm) := by
  simp [Statement, Instr.wellFormed, Source.assemble, Instr.source, Source.wellFormed, Source.command, regOk_val, wordOk_toNat]

theorem AssemblesBack.setg (imm : Word) : Statement (.setg imm) := by
  simp [Statement, Instr.wellFormed, Source.assemble, Instr.source, Source.wellFormed, Source.command, wordOk_toNat]

theorem AssemblesBack.windump (ra : Reg) : Statement (.windump ra) := by
  simp [Statement, Instr.wellFormed, Source.assemble, Instr.source, Source.wellFormed, Source.command, regOk_val]

theorem AssemblesBack.comp (ra rb rc : Reg) : Statement (.comp ra rb rc) := by
  simp [Statement, Instr.wellFormed, Source.assemble, Instr.source, Source.wellFormed, Source.command, regOk_val]

theorem AssemblesBack.expd (ra rb rc : Reg) : Statement (.expd ra rb rc) := by
  simp [Statement, Instr.wellFormed, Source.assemble, Instr.source, Source.wellFormed, Source.command, regOk_val]

theorem AssemblesBack.rfft (ra rb : Reg) : Statement (.rfft ra rb) := by
  simp [Statement, Instr.wellFormed, Source.assemble, Instr.source, Source.wellFormed, Source.command, regOk_val]

theorem AssemblesBack.irfft (ra rb : Reg) : Statement (.irfft ra rb) := by
  simp [Statement, Instr.wellFormed, Source.assemble, Instr.source, Source.wellFormed, Source.command, regOk_val]

theorem AssemblesBack.pqnt (ra rb rc : Reg) : Statement (.pqnt ra rb rc) := by
  simp [Statement, Instr.wellFormed, Source.assemble, Instr.source, Source.wellFormed, Source.command, regOk_val]

theorem AssemblesBack.fwd (ra rb rc : Reg) : Statement (.fwd ra rb rc) := by
  simp [Statement, Instr.wellFormed, Source.assemble, Instr.source, Source.wellFormed, Source.command, regOk_val]

theorem AssemblesBack.pdeq (ra rb rc : Reg) : Statement (.pdeq ra rb rc) := by
  simp [Statement, Instr.wellFormed, Source.assemble, Instr.source, Source.wellFormed, Source.command, regOk_val]

theorem AssemblesBack.inv (ra rb : Reg) (pv nv : Bool) : Statement (.inv ra rb pv nv) := by
  cases pv <;> cases nv <;>
    simp [Statement, Instr.wellFormed, Source.assemble, Instr.source, Source.wellFormed, Source.command, regOk_val, flagOk]

end Sys2Proof.Laws
end

