-- ==== Sys2Proof/Laws/Races.lean ====
section
/-! SUPPORT. The record of races (spec/20_memory.md R98): which bytes are raced after a command, what a host read gives once it is
settled, and what the end of a run does. -/

namespace Sys2Proof.Machine

/-! ### Spans -/

/-- Two spans meet exactly where they share an address. -/
theorem Span.meets_iff (p q : Span) : p.meets q = true ↔ ∃ a, p.holds a = true ∧ q.holds a = true := by
  simp only [Span.meets, Span.holds, Bool.and_eq_true, decide_eq_true_eq]
  constructor
  · rintro ⟨⟨⟨h1, h2⟩, h3⟩, h4⟩
    exact ⟨max p.base q.base, by omega, by omega⟩
  · rintro ⟨a, h1, h2⟩
    omega

/-- A span meets a list exactly where it shares an address with one of it. -/
theorem Span.meetsAny_iff (p : Span) (l : List Span) :
    p.meetsAny l = true ↔ ∃ a, p.holds a = true ∧ (l.any fun q => q.holds a) = true := by
  simp only [Span.meetsAny, List.any_eq_true, Span.meets_iff]
  constructor
  · rintro ⟨q, hq, a, h1, h2⟩
    exact ⟨a, h1, q, hq, h2⟩
  · rintro ⟨a, h1, q, hq, h2⟩
    exact ⟨q, hq, a, h1, h2⟩

@[simp] theorem Span.meetsAny_nil (p : Span) : p.meetsAny [] = false := rfl

/-- An empty span holds no address, so leaving it out of a list changes nothing. -/
@[simp] theorem any_addSpan_holds (p : Span) (l : List Span) (a : Nat) :
    ((addSpan p l).any fun q => q.holds a) = (p.holds a || l.any fun q => q.holds a) := by
  unfold addSpan
  split
  · rename_i h
    have : p.holds a = false := (Span.holds_eq_false_iff p a).2 (by omega)
    simp [this]
  · rfl

theorem mem_addSpan {p q : Span} {l : List Span} (h : q ∈ addSpan p l) : q ∈ l ∨ (q = p ∧ p.len ≠ 0) := by
  unfold addSpan at h
  split at h
  · exact .inl h
  · rcases List.mem_cons.1 h with h | h
    · exact .inr ⟨h, ‹_›⟩
    · exact .inl h

/-! ### The raced bytes after a command -/

theorem Flow.tainted_iff (f : Flow) (raced : List Span) :
    f.tainted raced = true ↔ ∃ p ∈ f.ins, ∃ b, p.holds b = true ∧ (raced.any fun q => q.holds b) = true := by
  simp only [Flow.tainted, List.any_eq_true (l := f.ins), Span.meetsAny_iff]

/-- One flow more: its output is raced where one of its inputs is, judged by the bytes raced at first or, in a vector command, by then. -/
theorem racedBy_append (vector : Bool) (fs : List Flow) (f : Flow) (raced : List Span) :
    racedBy vector (fs ++ [f]) raced =
      if f.tainted (bif vector then racedBy vector fs raced else raced) then addSpan f.out (racedBy vector fs raced)
      else racedBy vector fs raced := by
  unfold racedBy
  rw [List.foldl_append]
  rfl

/-- Every raced span is an old one or the output of a flow. -/
theorem mem_racedBy {vector : Bool} {fs : List Flow} {raced : List Span} {q : Span} (h : q ∈ racedBy vector fs raced) :
    q ∈ raced ∨ ∃ f ∈ fs, q = f.out ∧ f.out.len ≠ 0 := by
  induction fs using List.reverseRecOn with
  | nil => exact .inl h
  | append_singleton fs f ih =>
    rw [racedBy_append] at h
    have old : q ∈ racedBy vector fs raced → q ∈ raced ∨ ∃ g ∈ fs ++ [f], q = g.out ∧ g.out.len ≠ 0 := fun h => by
      rcases ih h with h | ⟨g, hg, hq⟩
      · exact .inl h
      · exact .inr ⟨g, by simp [hg], hq⟩
    split at h
    · rcases mem_addSpan h with h | ⟨rfl, hl⟩
      · exact old h
      · exact .inr ⟨f, by simp, rfl, hl⟩
    · exact old h

/-- In a command that reads all its input first, a byte is raced afterwards exactly if it was, or a flow with a raced input writes it. -/
theorem holds_racedBy_frame (fs : List Flow) (raced : List Span) (a : Nat) :
    ((racedBy false fs raced).any fun q => q.holds a) = true ↔
      (raced.any fun q => q.holds a) = true ∨
        ∃ f ∈ fs, f.out.holds a = true ∧ ∃ p ∈ f.ins, ∃ b, p.holds b = true ∧ (raced.any fun q => q.holds b) = true := by
  induction fs using List.reverseRecOn with
  | nil => simp [racedBy]
  | append_singleton fs f ih =>
    rw [racedBy_append]
    split
    · rename_i hf
      replace hf := (Flow.tainted_iff _ _).1 hf
      rw [any_addSpan_holds, Bool.or_eq_true, ih]
      constructor
      · rintro (h | h | ⟨g, hg, h⟩)
        · exact .inr ⟨f, by simp, h, hf⟩
        · exact .inl h
        · exact .inr ⟨g, by simp [hg], h⟩
      · rintro (h | ⟨g, hg, h, hx⟩)
        · exact .inr (.inl h)
        · rcases List.mem_append.1 hg with hg | hg
          · exact .inr (.inr ⟨g, hg, h, hx⟩)
          · rw [List.mem_singleton] at hg; subst hg; exact .inl h
    · rename_i hf
      replace hf : ¬_ := fun h => hf ((Flow.tainted_iff f raced).2 h)
      rw [ih]
      constructor
      · rintro (h | ⟨g, hg, h⟩)
        · exact .inl h
        · exact .inr ⟨g, by simp [hg], h⟩
      · rintro (h | ⟨g, hg, h, hx⟩)
        · exact .inl h
        · rcases List.mem_append.1 hg with hg | hg
          · exact .inr ⟨g, hg, h, hx⟩
          · rw [List.mem_singleton] at hg; subst hg; exact absurd hx hf

/-- In a vector command one element more makes its output raced exactly if its input was by then. -/
theorem holds_racedBy_element (src dst : Word) (inSize outSize n : Nat) (raced : List Span) (a : Nat) :
    ((racedBy true (elementFlows src dst inSize outSize (n + 1)) raced).any fun q => q.holds a) = true ↔
      ((racedBy true (elementFlows src dst inSize outSize n) raced).any fun q => q.holds a) = true ∨
        (Span.holds ⟨(element dst outSize n).toNat, outSize⟩ a = true ∧
          ∃ b, Span.holds ⟨(element src inSize n).toNat, inSize⟩ b = true ∧
            ((racedBy true (elementFlows src dst inSize outSize n) raced).any fun q => q.holds b) = true) := by
  have e : elementFlows src dst inSize outSize (n + 1) =
      elementFlows src dst inSize outSize n ++ [⟨[⟨(element src inSize n).toNat, inSize⟩], ⟨(element dst outSize n).toNat, outSize⟩⟩] := by
    simp [elementFlows, List.range_succ]
  rw [e, racedBy_append]
  have ht := Flow.tainted_iff ⟨[⟨(element src inSize n).toNat, inSize⟩], ⟨(element dst outSize n).toNat, outSize⟩⟩
    (racedBy true (elementFlows src dst inSize outSize n) raced)
  simp only [List.mem_singleton, exists_eq_left] at ht
  split
  · rename_i h
    replace h := ht.1 h
    rw [any_addSpan_holds, Bool.or_eq_true, or_comm]
    exact or_congr_right ⟨fun ha => ⟨ha, h⟩, fun ha => ha.1⟩
  · rename_i h
    exact ⟨.inl, fun ha => ha.resolve_right fun hb => h (ht.2 hb.2)⟩

/-- Nothing raced, nothing steered: a command leaves no race on record. -/
theorem racedBy_nil (vector : Bool) (fs : List Flow) : racedBy vector fs [] = [] := by
  induction fs using List.reverseRecOn with
  | nil => rfl
  | append_singleton fs f ih => rw [racedBy_append, ih]; simp [Flow.tainted]

/-- A command of a run in which nothing is raced only adds to what the run has written. -/
theorem State.raceAfter_calm {s : State} {i : Instr} (h1 : s.race.raced = []) (h2 : s.race.regs = []) (h3 : s.race.gain = false)
    (h4 : s.race.steered = false) : s.raceAfter i = { s.race with wrote := addSpan (outputOperand i s).span s.race.wrote } := by
  have hs : s.steeredBy i = false := by simp [State.steeredBy, h1, h2, h4]
  have hr : s.racedAfter i = [] := by simp [State.racedAfter, hs, h1, h3, racedBy_nil]
  simp only [State.raceAfter, hs, hr, h1, h2, h3, Span.meetsAny_nil]
  cases hs : s.race
  rw [hs] at h1 h2 h3 h4
  simp only at h1 h2 h3 h4
  subst h1 h2 h3 h4
  cases i <;> rfl

/-! ### Where the raced bytes are -/

/-- The output of a data command that may run is empty or inside LMEM. -/
theorem outputOperand_inside {i : Instr} {s : State} (hd : isDataCommand i = true) (h : s.Ready i) :
    (outputOperand i s).len = 0 ∨ (outputOperand i s).base.toNat + (outputOperand i s).len ≤ s.hw.lmemSize := by
  have mem : outputOperand i s ∈ operandTable i s := by
    cases i
    case inv a b pv nv => cases pv <;> cases nv <;> simp [outputOperand, operandTable]
    all_goals simp [isDataCommand, opcodeOf] at hd
    all_goals simp [outputOperand, operandTable]
  exact (h.2 _ mem).imp_right And.right

/-- So is the output of each of its flows. -/
theorem flowsOf_inside {i : Instr} {s : State} (hd : isDataCommand i = true) (hl : s.hw.lmemSize < 2 ^ 32) (h : s.Ready i) :
    ∀ f ∈ flowsOf i s, f.out.len ≠ 0 → f.out.base + f.out.len ≤ s.hw.lmemSize := by
  have ho := outputOperand_inside hd h
  have elements : ∀ (src dst : Word) (a b n : Nat), (b * n = 0 ∨ dst.toNat + b * n ≤ s.hw.lmemSize) →
      ∀ f ∈ elementFlows src dst a b n, f.out.len ≠ 0 → f.out.base + f.out.len ≤ s.hw.lmemSize := by
    intro src dst a b n hb f hf hne
    simp only [elementFlows, List.mem_map, List.mem_range] at hf
    obtain ⟨j, hj, rfl⟩ := hf
    simp only at hne ⊢
    have hm : b * j + b ≤ b * n := Nat.mul_le_mul_left b hj
    have hd := hb.resolve_left (by omega)
    rw [toNat_element (by omega)]
    omega
  cases i
  case nop | halt | init | seta | adda | jmp | djnz | setg => simp [isDataCommand, opcodeOf] at hd
  case windump => simp [flowsOf]
  case comp | pqnt => exact elements _ _ 4 2 _ (by simpa [outputOperand, operandTable] using ho)
  case expd | pdeq => exact elements _ _ 2 4 _ (by simpa [outputOperand, operandTable] using ho)
  case rfft | irfft =>
    simp [outputOperand, operandTable] at ho
    simp [flowsOf, liveBins]
    omega
  case fwd =>
    simp [outputOperand, operandTable] at ho
    simp [flowsOf, rowBytes, binCount]
    omega
  case inv a b pv nv =>
    have ho' : 4 * s.aN = 0 ∨ (s.x b).toNat + 4 * s.aN ≤ s.hw.lmemSize := by
      cases pv <;> cases nv <;> simpa [outputOperand, operandTable] using ho
    simp [flowsOf]
    omega

/-- A command that may run keeps the record of raced bytes inside LMEM. -/
theorem raceAfter_inside {i : Instr} {s : State} (hl : s.hw.lmemSize < 2 ^ 32) (h : isDataCommand i = true → s.Ready i)
    (hr : ∀ p ∈ s.race.raced, p.base + p.len ≤ s.hw.lmemSize) : ∀ p ∈ (s.raceAfter i).raced, p.base + p.len ≤ s.hw.lmemSize := by
  intro p hp
  simp only [State.raceAfter, State.racedAfter] at hp
  by_cases hd : isDataCommand i = true
  · split at hp
    · rcases mem_addSpan hp with hp | ⟨rfl, hne⟩
      · exact hr p hp
      · exact (outputOperand_inside hd (h hd)).resolve_left hne
    · rcases mem_racedBy hp with hp | ⟨f, hf, rfl, hne⟩
      · exact hr p hp
      · exact flowsOf_inside hd hl (h hd) f hf hne
  · have none : flowsOf i s = [] ∧ (outputOperand i s).span.len = 0 := by
      cases i <;> simp [isDataCommand, opcodeOf] at hd <;> exact ⟨rfl, rfl⟩
    split at hp
    · rcases mem_addSpan hp with hp | ⟨-, hne⟩
      · exact hr p hp
      · exact absurd none.2 hne
    · rw [none.1] at hp
      exact hr p hp

/-! ### What the host reads -/

theorem extractLsb'_leNat (l : List Byte) (hl : l.length ≤ 4) (j : Nat) (hj : j < 4) :
    (BitVec.ofNat 32 (leNat l)).extractLsb' (8 * j) 8 = l.getD j 0 := by
  apply BitVec.eq_of_toNat_eq
  have e : (BitVec.ofNat 32 (leNat l)).toNat = leNat l := by
    rw [BitVec.toNat_ofNat, Nat.mod_eq_of_lt]
    calc leNat l < 256 ^ l.length := leNat_lt l
      _ ≤ 256 ^ 4 := Nat.pow_le_pow_right (by norm_num) hl
      _ = 2 ^ 32 := by norm_num
  rw [BitVec.extractLsb'_toNat, e]
  clear e
  induction l generalizing j with
  | nil => simp [leNat]
  | cons b l ih =>
    have hb := b.isLt
    cases j with
    | zero =>
      simp only [leNat, Nat.mul_zero, Nat.shiftRight_zero, List.getD_cons_zero]
      omega
    | succ j =>
      have h8 : (b.toNat + 256 * leNat l) >>> (8 * (j + 1)) = leNat l >>> (8 * j) := by
        rw [show 8 * (j + 1) = 8 + 8 * j by ring, Nat.shiftRight_add]
        congr 1
        rw [Nat.shiftRight_eq_div_pow]
        omega
      simp only [leNat, List.getD_cons_succ]
      rw [h8]
      exact ih (by simp at hl; omega) j (by omega)

/-- Byte j of a read's data: any value where the byte is free, what it held elsewhere; 0 above the bytes read. -/
theorem HostRead.data_byte (r : HostRead) (free : Nat → Bool) (hr : r.span.len ≤ 4) {j : Nat} (hj : j < 4) :
    (r.data free).extractLsb' (8 * j) 8 =
      if j < r.span.len then
        (if free (r.span.base + j) then Config.freeByte r.draw (r.span.base + j) else r.seen.extractLsb' (8 * j) 8)
      else 0 := by
  rw [HostRead.data, extractLsb'_leNat _ (by simpa using hr) _ hj]
  split
  · rename_i h
    simp [List.getD_eq_getElem?_getD, List.getElem?_map, List.getElem?_range h]
  · rename_i h
    simp [List.getD_eq_getElem?_getD, h]

/-! ### The end of a run -/

/-- A redrawn span holds the draw's byte at each of its addresses. -/
theorem get?_redrawSpan_inside (d : Nat) (m : Memory) {p : Span} {a : Nat} (h : p.holds a = true) :
    Memory.get? (redrawSpan d m p) a = some (Config.freeByte d a) := by
  simp only [Span.holds, Bool.and_eq_true, decide_eq_true_eq] at h
  obtain ⟨j, rfl⟩ : ∃ j, a = p.base + j := ⟨a - p.base, by omega⟩
  unfold redrawSpan
  rw [get?_storeBytes_inside _ _ _ _ (by simp; omega)]
  simp

/-- A redrawn span leaves every other address alone. -/
theorem get?_redrawSpan_outside (d : Nat) (m : Memory) {p : Span} {a : Nat} (h : p.holds a = false) :
    Memory.get? (redrawSpan d m p) a = Memory.get? m a := by
  rw [Span.holds_eq_false_iff] at h
  unfold redrawSpan
  rw [get?_storeBytes_outside _ _ (by simpa using h)]

theorem get?_foldl_redrawSpan_outside (d : Nat) (l : List Span) (m : Memory) {a : Nat} (h : (l.any fun p => p.holds a) = false) :
    Memory.get? (l.foldl (redrawSpan d) m) a = Memory.get? m a := by
  induction l generalizing m with
  | nil => rfl
  | cons p l ih =>
    simp only [List.any_cons, Bool.or_eq_false_iff] at h
    rw [List.foldl_cons, ih _ h.2, get?_redrawSpan_outside d m h.1]

theorem get?_foldl_redrawSpan_inside (d : Nat) (l : List Span) (m : Memory) {a : Nat}
    (h : (l.any fun p => p.holds a) = true ∨ Memory.get? m a = some (Config.freeByte d a)) :
    Memory.get? (l.foldl (redrawSpan d) m) a = some (Config.freeByte d a) := by
  induction l generalizing m with
  | nil => simpa using h
  | cons p l ih =>
    apply ih
    by_cases hp : p.holds a = true
    · exact .inr (get?_redrawSpan_inside d m hp)
    · simp only [Bool.not_eq_true] at hp
      rw [get?_redrawSpan_outside d m hp]
      simpa [hp] using h

/-- The end of a run gives a raced byte the draw's value … -/
theorem State.byte_endRun_raced (s : State) {a : Nat} (h : (s.race.raced.any fun p => p.holds a) = true) :
    s.endRun.byte a = Config.freeByte s.draws a := by
  simp [State.byte, State.endRun, get?_foldl_redrawSpan_inside _ _ _ (.inl h)]

/-- … and leaves every other byte alone. -/
theorem State.byte_endRun_calm (s : State) {a : Nat} (h : (s.race.raced.any fun p => p.holds a) = false) :
    s.endRun.byte a = s.byte a := by
  simp [State.byte, State.endRun, get?_foldl_redrawSpan_outside _ _ _ h]

/-- Without a race and without a read in it, a run's end changes nothing. -/
theorem State.endRun_of_noRaces {s : State} (h : s.race = noRaces) : s.endRun = s := by
  cases s; subst h; rfl

/-- A command's consequence for the races: the run goes on, with the command on record, or it ends. -/
theorem State.follow_cases (s : State) (i : Instr) (t : State) :
    (t.status.busy = true ∧ s.follow i t = { t with race := s.raceAfter i }) ∨ (t.status.busy = false ∧ s.follow i t = t.endRun) := by
  unfold State.follow
  split
  · exact .inl ⟨‹_›, rfl⟩
  · exact .inr ⟨Bool.eq_false_of_not_eq_true ‹_›, rfl⟩

/-- What one engine step that answers t is: a fault entry before any command, or a command; then what follows for the races. -/
theorem engineStep_cases {s t : State} (h : engineStep s = .next t) :
    (∃ c a w, t = (s.raise c a w).endRun) ∨
    (∃ i rest u, decode (s.bytesAt s.pc.toNat 8) = .ok (i, rest) ∧ exec i s = .next u ∧ t = s.follow i u) := by
  unfold engineStep at h
  rcases fetchDecode_cases s with ⟨i, rest, hf, -, -, hd⟩ | ⟨c, a, w, hf⟩
  · rw [hf] at h
    simp only at h
    split at h
    · injection h with h; exact .inr ⟨i, rest, _, hd, ‹_›, h.symm⟩
    · rename_i hx; exact absurd h (hx t)
  · rw [hf] at h; injection h with h; exact .inl ⟨c, a, w, h.symm⟩

/-- A fetched command that answers u: the engine step is u with what follows for the races. -/
theorem engineStep_ok {s u : State} {i : Instr} (hf : fetchDecode s = .ok i) (h : exec i s = .next u) :
    engineStep s = .next (s.follow i u) := by
  unfold engineStep
  rw [hf]
  simp only
  rw [h]

end Sys2Proof.Machine
end

