-- ==== Sys2Proof/Tests/Slice0.lean ====
section
/-! SUPPORT. Tests on small states, each expected result from spec/30_encoding.md R120 or spec/95_test_vectors.md (section in the
comment), and a witness for the hypotheses of each obligation that has any. -/

-- The theorems of this file are checked one after the other: each holds a state in memory while the kernel evaluates it.
set_option Elab.async false

namespace Sys2Proof.Tests

open Sys2Proof.Machine

/-! ### Helpers -/

/-- The constants before any INIT, for the tests: all 0. -/
def zeroConsts : CurveConsts := ⟨0, 0, 0, 0, 0, 0, 0, 0, 0, 0, 0⟩

/-- A busy machine after reset with the configuration registers given, at pc 0. -/
def unconfigured (cfg p0 p1 : Word) : State :=
  { State.reset with cfg := cfg, cparam0 := p0, cparam1 := p1, consts := zeroConsts, status := { clearStatus with busy := true } }

/-- Is the outcome a next state? -/
def isNext (r : Result) : Bool :=
  match r with
  | .next _ => true
  | _ => false

/-- The next state of an outcome, or s where there is none. -/
def answer (r : Result) (s : State) : State :=
  match r with
  | .next t => t
  | _ => s

theorem next_of_isNext {r : Result} (s : State) (h : isNext r = true) : r = .next (answer r s) := by
  cases r <;> simp_all [isNext, answer]

/-- The state exec answers. -/
def after (i : Instr) (s : State) : State := answer (exec i s) s

/-- The state a step answers. -/
def stepped (s : State) : State := answer (step s) s

/-- The machine an INIT leaves, brought back to pc 0. -/
def configured (cfg p0 p1 : Word) : State := { after .init (unconfigured cfg p0 p1) with pc := 0 }

/-- N = 4, uv-law (256, 0.25), rectangular window: the default of spec/95. -/
def uv4 : State := configured 0x102 0x43800000 0x3E800000

/-- N = 4, mu-law 64, rectangular window. -/
def mu4 : State := configured 0x002 0x42800000 0x3E800000

/-- N = 4, monotone-square-root with K = 2, rectangular window. -/
def sq4 : State := configured 0x202 0x40000000 0x3E800000

/-- s with A0 to A2. -/
def withRegs (s : State) (a b c : Word) : State := { s with regs := ((s.regs.set 0 a).set 1 b).set 2 c }

/-- The cause, ERRPC, ERRADDR, ERRCMDL and ERRCMDH after a fault. -/
def errors (s : State) : Nat × Word × Word × Word × Word := (causeCode s.errCause, s.errPc, s.errAddr, s.errCmdL, s.errCmdH)

/-- Codes for the eye. -/
def codesOf (l : List Code) : List Nat := l.map BitVec.toNat

/-! ### Well-formed source lines: each check refuses a line (R118, R119) -/

theorem test_wf_register : (Source.comp 0 8 1).wellFormed = false ∧ (Source.comp 0 7 1).wellFormed = true := by decide

theorem test_wf_signed_immediate :
    (Source.adda 0 (-(2 ^ 31) - 1)).wellFormed = false ∧ (Source.adda 0 (2 ^ 32)).wellFormed = false ∧
      (Source.adda 0 (-(2 ^ 31))).wellFormed = true ∧ (Source.suba 0 (2 ^ 31 + 1)).wellFormed = false := by decide

theorem test_wf_address : (Source.jmp (-1)).wellFormed = false ∧ (Source.djnz 0 (2 ^ 32)).wellFormed = false := by decide

theorem test_wf_flag : (Source.inv 0 1 2 0).wellFormed = false ∧ (Source.inv 0 1 1 2).wellFormed = false := by decide

theorem test_wf_decimal : (Source.setgDecimal false 1 0).wellFormed = false := by decide

theorem test_assemble_refuses : (Source.seta 9 0).assemble 4 = none := by decide

/-- R119: ROWSTEP at N = 4 adds 6·M = 18, FRAMESTEP 8, INV2STEP 36 (P2). -/
theorem test_pseudo :
    (Source.rowstep 2).assemble 4 = some (.adda 2 18) ∧ (Source.framestep 0).assemble 4 = some (.adda 0 8) ∧
      (Source.inv2step 3).assemble 4 = some (.adda 3 36) ∧ (Source.suba 1 2).assemble 4 = some (.adda 1 0xFFFFFFFE) := by decide

/-! ### Decoding: the words of R120 and of the programs of spec/95, written out from the format of their rows -/

theorem test_decode_nop : decodeWord 0x0000000000000000 = .ok .nop := by rfl
theorem test_decode_halt : decodeWord 0x0000000000000001 = .ok .halt := by rfl
theorem test_decode_init : decodeWord 0x0000000000000002 = .ok .init := by rfl
theorem test_decode_seta : decodeWord 0x0000100000000304 = .ok (.seta 3 0x1000) := by rfl
theorem test_decode_adda : decodeWord 0xFFFFFFF800000105 = .ok (.adda 1 0xFFFFFFF8) := by rfl
theorem test_decode_jmp : decodeWord 0x0040000000000006 = .ok (.jmp 0x400000) := by rfl
theorem test_decode_djnz : decodeWord 0x0000004000000707 = .ok (.djnz 7 0x40) := by rfl
theorem test_decode_setg : decodeWord 0x3F00000000000008 = .ok (.setg 0x3F000000) := by rfl
/-- OP 10, RA = 5 in bits 10:8. -/
theorem test_decode_windump : decodeWord 0x0000000000000510 = .ok (.windump 5) := by rfl
theorem test_decode_comp : decodeWord 0x000000000001AC11 = .ok (.comp 4 5 6) := by rfl
theorem test_decode_expd : decodeWord 0x0000000000009912 = .ok (.expd 1 3 2) := by rfl
/-- OP 13, RA = 1 (0x100), RB = 6 (0x3000). -/
theorem test_decode_rfft : decodeWord 0x0000000000003113 = .ok (.rfft 1 6) := by rfl
/-- OP 14, RA = 7 (0x700), RB = 2 (0x1000). -/
theorem test_decode_irfft : decodeWord 0x0000000000001714 = .ok (.irfft 7 2) := by rfl
/-- OP 15, RA = 2 (0x200), RB = 1 (0x800), RC = 4 (0x10000). -/
theorem test_decode_pqnt : decodeWord 0x0000000000010A15 = .ok (.pqnt 2 1 4) := by rfl
theorem test_decode_fwd : decodeWord 0x0000000000008816 = .ok (.fwd 0 1 2) := by rfl
/-- OP 17, RA = 3 (0x300), RB = 5 (0x2800), RC = 1 (0x4000). -/
theorem test_decode_pdeq : decodeWord 0x0000000000006B17 = .ok (.pdeq 3 5 1) := by rfl
theorem test_decode_inv : decodeWord 0x0000000000042318 = .ok (.inv 3 4 false true) := by rfl

/-- Section 2.8: the words that do not decode. -/
theorem test_decode_errors :
    decodeWord 0x0000000000000003 = .error .illegalOp ∧ decodeWord 0x00000000000000FF = .error .illegalOp ∧
      decodeWord 0x0000000000000100 = .error .reservedBits ∧ decodeWord 0x0000000100000001 = .error .reservedBits ∧
      decodeWord 0x0000000000004018 = .error .reservedBits ∧ decodeWord 0x0000000000800004 = .error .reservedBits :=
  ⟨rfl, rfl, rfl, rfl, rfl, rfl⟩

/-- P2: the bytes of INV a3, a4, 0, 1. -/
theorem test_encode_bytes : encode (.inv 3 4 false true) = [0x18, 0x23, 0x04, 0x00, 0x00, 0x00, 0x00, 0x00] := by rfl

theorem test_table_word : decodeTableWord 64 0x0000000000000001 = some .halt ∧ decodeTableWord 64 0x03 = none := ⟨rfl, rfl⟩

/-! ### Numbers (sections 1 and 2.2; R12) -/

theorem test_uv_constants :
    uv4.consts.gam = 0x3E7DBC09#32 ∧ uv4.consts.bet = 0x3FAA2A2A#32 ∧ uv4.consts.alp = 0x3B801FBF#32 := by decide +kernel

theorem test_mu_constants : mu4.consts.kmb = 0x42820000#32 ∧ mu4.consts.kml = 0x40859495#32 := by decide +kernel

/-- C_uv(0.5), C_mu(0.5). -/
theorem test_compress : uv4.compress 0x3F000000 = 0x3F5FB7EF#32 ∧ mu4.compress 0x3F000000 = 0x3F566D98#32 := by decide +kernel

/-- Section 2.8 and R174: parameters INIT accepts and refuses. -/
theorem test_parameters :
    (uvConsts 0x40000000 0x40000000 zeroConsts).isSome = true ∧ uvConsts 0x3F800000 0x3F800000 zeroConsts = none ∧
      muConsts .reference 0 zeroConsts = none ∧ muConsts .reference 0x322BCC77 zeroConsts = none ∧
      sqConsts 0x40200000 zeroConsts = none ∧ sqConsts 0x42820000 zeroConsts = none := by decide +kernel

/-- Section 2.4: W and R for the Hann window at N = 4. -/
theorem test_hann :
    windowTable .reference .hann 4 = [0x00000000#32, 0x3F400000#32, 0x3F3FFFFF#32, 0x00000000#32] ∧
      normTable (windowTable .reference .hann 4) 4 = [0x3FE38E3A#32, 0x3FE38E39#32, 0x3FE38E3A#32, 0x3FE38E39#32] := by
  decide +kernel

/-- Section 2.4: Blackman-Harris at N = 4. -/
theorem test_blackman_harris :
    windowTable .reference .blackmanHarris 4 = [0x387B8700#32, 0x3F054468#32, 0x3F054465#32, 0x387B8700#32] := by decide +kernel

/-! ### One step of each command -/

/-- Section 2.1: NOP at 0x10. -/
theorem test_nop : after .nop { uv4 with pc := 0x10 } = { uv4 with pc := 0x18 } := by decide +kernel

/-- Section 2.1: HALT at 0x38. -/
theorem test_halt :
    let t := after .halt { uv4 with pc := 0x38 }
    t.pc = 0x40 ∧ t.status.busy = false ∧ t.status.done = true := by decide +kernel

/-- Section 2.1: INIT with CFG = 0x102 gives SYNGAIN 32.0 and CFGOK. -/
theorem test_init : uv4.syngain = 0x42000000#32 ∧ uv4.status.cfgok = true ∧ uv4.acfg = 0x102#32 := by decide +kernel

/-- Section 2.8: CFG = 0x7301 reports only the block size, CFG = 0x730B the method. -/
theorem test_init_fails :
    errors (after .init (unconfigured 0x7301 0 0)) = (6, 0, 0, 2, 0) ∧
      errors (after .init (unconfigured 0x730B 0 0)) = (7, 0, 0, 2, 0) := by decide +kernel

theorem test_seta : (after (.seta 3 0x1000) uv4).x 3 = 0x1000#32 := by decide +kernel

theorem test_adda_wraps :
    (after (.adda 1 1) { uv4 with regs := uv4.regs.set 1 0xFFFFFFFF }).x 1 = 0#32 ∧
      (after (.adda 1 0xFFFFFFF8) { uv4 with regs := uv4.regs.set 1 0x10 }).x 1 = 8#32 := by decide +kernel

theorem test_jmp : errors (stepped (after (.jmp 0x44) { uv4 with pc := 0x18 })) = (1, 0x44, 0x44, 0, 0) := by decide +kernel

theorem test_djnz_last :
    let t := after (.djnz 7 0x40) { uv4 with pc := 0x60, regs := uv4.regs.set 7 1 }
    t.x 7 = 0#32 ∧ t.pc = 0x68#32 := by decide +kernel

theorem test_djnz_zero :
    let t := after (.djnz 7 0x40) { uv4 with pc := 0x60, regs := uv4.regs.set 7 0 }
    t.x 7 = 0xFFFFFFFF#32 ∧ t.pc = 0x40#32 := by decide +kernel

theorem test_setg : (after (.setg 0x7FC00001) uv4).syngain = 0x7FC00001#32 := by decide +kernel

/-- Section 2.4, N = 4 rectangular. -/
theorem test_windump :
    (after (.windump 0) (withRegs uv4 0x800 0 0)).readSamples 0x800 8 =
      [0x3F800000#32, 0x3F800000#32, 0x3F800000#32, 0x3F800000#32, 0x3F000000#32, 0x3F000000#32, 0x3F000000#32, 0x3F000000#32] := by
  decide +kernel

/-- P1: [0.0, 0.5, 1.0, 2.0] under uv-law. -/
theorem test_comp :
    let t := after (.comp 0 1 2) ((withRegs uv4 0x100 0x200 4).writeSamples 0x100 [0#32, 0x3F000000#32, 0x3F800000#32, 0x40000000#32])
    codesOf (t.readCodes 0x200 4) = [0, 57271, 65535, 65535] ∧ t.status.sat = true ∧ t.status.nan = false := by decide +kernel

/-- Section 2.2: -0.1 under mu-law 64 is a NaN, under sq K = 2 as well. -/
theorem test_comp_nan :
    (after (.comp 0 1 2) ((withRegs mu4 0x100 0x200 1).writeSamples 0x100 [0xBDCCCCCD#32])).status.nan = true ∧
      (after (.comp 0 1 2) ((withRegs sq4 0x100 0x200 1).writeSamples 0x100 [0xBDCCCCCD#32])).status.nan = true := by decide +kernel

/-- P1 and section 2.2: codes 0, 57271, 65535, 2 under uv-law. -/
theorem test_expd :
    (after (.expd 0 1 2) ((withRegs uv4 0x100 0x200 4).writeCodes 0x100 [0#16, 57271#16, 65535#16, 2#16])).readSamples 0x200 4 =
      [0x80000000#32, 0x3EFFFF97#32, 0x3F800000#32, 0x80000000#32] := by decide +kernel

/-- Section 2.2: code 1000 under mu-law 64 and sq K = 2. -/
theorem test_expd_methods :
    (after (.expd 0 1 2) ((withRegs mu4 0x100 0x200 1).writeCodes 0x100 [1000#16])).readF32 0x200 = 0x3A86B220#32 ∧
      (after (.expd 0 1 2) ((withRegs sq4 0x100 0x200 1).writeCodes 0x100 [1000#16])).readF32 0x200 = 0x397425E8#32 := by
  decide +kernel

/-- Section 2.5, N = 4: [1, 2, 3, 4]. -/
theorem test_rfft :
    (after (.rfft 0 1) ((withRegs uv4 0x100 0x200 0).writeSamples 0x100 [0x3F800000#32, 0x40000000#32, 0x40400000#32, 0x40800000#32])).readBins
        0x200 3 =
      [(0x41200000#32, 0#32), (0xC0000000#32, 0x40000000#32), (0xC0000000#32, 0#32)] := by decide +kernel

/-- Section 2.5, N = 8: [0, 1, …, 7], with components that are irrational. -/
theorem test_rfft8 :
    numRfft .reference 8 ((List.range 8).map fun i => u2f i) =
      [(0x41E00000#32, 0#32), (0xC0800000#32, 0x411A827A#32), (0xC0800000#32, 0x40800000#32), (0xC0800000#32, 0x3FD413CD#32),
        (0xC0800000#32, 0#32)] := by decide +kernel

/-- Section 2.5, N = 4: (1, 5), (0, 0), (0, -7) gives [1, 1, 1, 1]. -/
theorem test_irfft :
    (after (.irfft 0 1) ((withRegs uv4 0x100 0x200 0).writeBins 0x100
        [(0x3F800000#32, 0x40A00000#32), (0#32, 0#32), (0#32, 0xC0E00000#32)])).readSamples 0x200 4 =
      [0x3F800000#32, 0x3F800000#32, 0x3F800000#32, 0x3F800000#32] := by decide +kernel

/-- Section 2.3. -/
theorem test_pqnt :
    let t := after (.pqnt 0 1 2)
      ((withRegs uv4 0x100 0x200 5).writeSamples 0x100 [0xBF800000#32, 0#32, 0x3F800000#32, 0x3EAAAAAB#32, 0x3F800001#32])
    codesOf (t.readCodes 0x200 5) = [0, 32767, 65535, 43690, 65535] ∧ t.status.sat = false := by decide +kernel

/-- Section 2.3: 0xBF800001 saturates. -/
theorem test_pqnt_saturates :
    (after (.pqnt 0 1 2) ((withRegs uv4 0x100 0x200 1).writeSamples 0x100 [0xBF800001#32])).status.sat = true := by decide +kernel

/-- Section 2.6: [0.25, 0.5, -0.125, 0] with limit 2, uv-law. -/
theorem test_fwd :
    let t := after (.fwd 0 1 2)
      ((withRegs uv4 0x100 2 0x200).writeSamples 0x100 [0x3E800000#32, 0x3F000000#32, 0xBE000000#32, 0#32])
    codesOf (t.readCodes 0x200 9) = [65535, 55145, 32767, 47421, 53464, 3459, 0, 50331, 32767] ∧ t.status.sat = false := by
  decide +kernel

/-- Section 2.8: limit 0 and a misaligned A0 do not fault. -/
theorem test_fwd_empty :
    codesOf ((after (.fwd 0 1 2) (withRegs uv4 0x3 0 0x200)).readCodes 0x200 9) =
      [32767, 0, 32767, 32767, 0, 32767, 32767, 0, 32767] := by decide +kernel

/-- Section 2.3. -/
theorem test_pdeq :
    (after (.pdeq 0 1 2) ((withRegs uv4 0x100 0x200 4).writeCodes 0x100 [0#16, 1#16, 32767#16, 65535#16])).readSamples 0x200 4 =
      [0xBF800000#32, 0xBF7FFE00#32, 0xB8000000#32, 0x3F7FFE00#32] := by decide +kernel

/-- Section 2.7: the row of [0.25, 0.5, -0.125, 0], limit 4, at G = 0.5. -/
theorem test_inv :
    (after (.inv 0 1 false false)
        { (withRegs uv4 0x100 0x200 0).writeCodes 0x100
            [65535#16, 54053#16, 32767#16, 52428#16, 54053#16, 6553#16, 0#16, 51720#16, 32767#16] with
          syngain := 0x3F000000 }).readSamples 0x200 4 =
      [0x3DFFF1BE#32, 0x3E7FF530#32, 0xBD7FF3A1#32, 0xB6AD2000#32] := by decide +kernel

/-- P2: row 2 between rows 1 and 3. -/
theorem test_inv_overlap :
    (after (.inv 0 1 true true)
        { (withRegs uv4 0x2024 0x3010 0).writeCodes 0x2012
            [0#16, 50331#16, 32767#16, 19859#16, 56866#16, 62885#16, 32767#16, 0#16, 32767#16,
              65535#16, 51720#16, 32767#16, 50943#16, 52462#16, 5503#16, 0#16, 51720#16, 32767#16,
              0#16, 48228#16, 32767#16, 0#16, 48228#16, 32767#16, 0#16, 48228#16, 32767#16] with
          syngain := 0x3F000000 }).readSamples 0x3010 4 =
      [0x3DFFFF52#32, 0x3EBFFAD6#32, 0xBDFFFA9A#32, 0xB764604A#32] := by decide +kernel

/-- Section 2.8: MEM_ALIGN at A0, MEM_RANGE without wrap, MEM_ALIGN at the destination. -/
theorem test_operand_faults :
    errors (after (.comp 0 1 2) (withRegs { uv4 with pc := 0x20 } 0x102 0x200 1)) = (10, 0x20, 0x102, 0x8811, 0) ∧
      errors (after (.comp 0 1 2) (withRegs uv4 0xFFFFFFFC 0x200 2)) = (11, 0, 0xFFFFFFFC, 0x8811, 0) ∧
      errors (after (.comp 0 1 2) (withRegs uv4 0x100 0x201 1)) = (10, 0, 0x201, 0x8811, 0) := by decide +kernel

/-- P5: a data command before INIT. -/
theorem test_not_configured : errors (after (.comp 0 1 2) (unconfigured 0x10B 0 0)) = (5, 0, 0, 0x8811, 0) := by decide +kernel

/-! ### The step and the host port -/

/-- The step fetches what `withFetchWord` places. -/
theorem test_step : (stepped ((withRegs uv4 0 0 0).withFetchWord 64 0x0000100000000304)).x 3 = 0x1000#32 := by decide +kernel

/-- Section 2.8: a NOP in the last word of LMEM, then FETCH_RANGE. -/
theorem test_step_off_the_end :
    errors (stepped (stepped (State.withFetchWord { uv4 with pc := 0x3FFFF8 } 64 0))) = (2, 0x400000, 0x400000, 0, 0) := by
  decide +kernel

/-- Section 2.9: 0xFFFF written to CFG reads back as 0x731F. -/
theorem test_host_cfg :
    (stepped (stepped { State.reset with turns := [.access (.write 0x024 32 0xFFFF), .access (.read 0x024 32)] })).rdata = 0x731F#32 := by
  decide +kernel

/-- Section 2.9: a PC write while busy is dropped. -/
theorem test_host_dropped :
    let t := stepped { uv4 with turns := [.access (.write 0x020 32 0x88)] }
    t.pc = 0#32 ∧ t.status.wdrop = true := by decide +kernel

/-- Section 2.9: CTRL = 7 is a soft reset only. -/
theorem test_host_soft_reset :
    let t := stepped { uv4.writeU16 0x500 0x1234 with turns := [.access (.write 0x004 32 7)] }
    t.irqen = false ∧ t.status.busy = false ∧ t.readU16 0x500 = 0x1234#16 := by decide +kernel

/-! ### Witnesses: states and operands that meet the hypotheses of each obligation, clause by clause -/

/-- A busy machine after reset with the command word w at pc. -/
def fetching (pc : Word) (w : Nat) : State := State.withFetchWord { unconfigured 0x102 0x43800000 0x3E800000 with pc := pc } 64 w

/-- The configured machine with every output operand of `edgeCommands` ending at LMEM's last byte. -/
def edge : State := { uv4 with regs := #v[0x100, 0x3FFFF0, 4, 0x3FFFE8, 0x3FFFE0, 0x3FFFF8, 0x3FFFEE, 0] }

/-- One of each data command. -/
def edgeCommands : List Instr :=
  [.windump 4, .comp 0 5 2, .expd 0 1 2, .rfft 0 3, .irfft 0 1, .pqnt 0 5 2, .fwd 0 2 6, .pdeq 0 1 2, .inv 0 1 true true]

/-- The machine with one host access to come. -/
def facing (a : HostAccess) (s : State) : State := { s with turns := [.access a] }

/-- The machine idle. -/
def idle (s : State) : State := { s with status := { s.status with busy := false } }

theorem edge_ready : Config.legalParams edge.hw = true ∧ ∀ i ∈ edgeCommands, isDataCommand i = true ∧ edge.Ready i := by
  simp only [State.Ready, Operand.Ok]
  decide +kernel

theorem uv4_latched : uv4.TablesLatched := fun _ =>
  ⟨.uv, .rectangular, by decide +kernel, by decide +kernel, by decide +kernel, by decide +kernel, by decide +kernel,
    by decide +kernel, by decide +kernel, by decide +kernel⟩

theorem edge_latched : edge.TablesLatched := fun _ =>
  ⟨.uv, .rectangular, by decide +kernel, by decide +kernel, by decide +kernel, by decide +kernel, by decide +kernel,
    by decide +kernel, by decide +kernel, by decide +kernel⟩

theorem mu4_latched : mu4.TablesLatched := fun _ =>
  ⟨.mu, .rectangular, by decide +kernel, by decide +kernel, by decide +kernel, by decide +kernel, by decide +kernel,
    by decide +kernel, by decide +kernel, by decide +kernel⟩

theorem sq4_latched : sq4.TablesLatched := fun _ =>
  ⟨.sq, .rectangular, by decide +kernel, by decide +kernel, by decide +kernel, by decide +kernel, by decide +kernel,
    by decide +kernel, by decide +kernel, by decide +kernel⟩

theorem witness_AcceptedWordReencodes : decodeWord 0x0000000000063F18 = .ok (.inv 7 7 true true) := by rfl

/-- The opcodes next to the illegal ranges decode, with every operand bit of their formats set. -/
theorem witness_DecodeErrorsExactly :
    decodeWord 0xFFFFFFFF00000008 = .ok (.setg 0xFFFFFFFF) ∧ decodeWord 0x0000000000000710 = .ok (.windump 7) ∧
      decodeWord 0x0000000000063F18 = .ok (.inv 7 7 true true) ∧ decodeWord 0x09 = .error .illegalOp ∧
      decodeWord 0x0F = .error .illegalOp ∧ decodeWord 0x19 = .error .illegalOp ∧ decodeWord 0x80710 = .error .reservedBits :=
  ⟨rfl, rfl, rfl, rfl, rfl, rfl, rfl⟩

theorem witness_EncoderFormulaHolds : (encode (.djnz 7 0x40000000))[7]? = some 0x40#8 ∧ (encode (.djnz 7 0x40))[0]? = some 0x07#8 :=
  ⟨rfl, rfl⟩

/-- A HALT in the last word of LMEM, and an idle machine. -/
theorem witness_StepRunsDecoded :
    let s := fetching 0x3FFFF8 1
    s.EngineTurn [] ∧ s.status.busy = true ∧ s.pc.toNat % 8 = 0 ∧ s.pc.toNat + 8 = s.hw.lmemSize ∧
      decode (s.bytesAt s.pc.toNat 8) = .ok (.halt, []) ∧ State.reset.EngineTurn [] ∧ State.reset.status.busy = false :=
  ⟨.inl ⟨rfl, rfl⟩, rfl, by decide +kernel, by decide +kernel, by rfl, .inl ⟨rfl, rfl⟩, rfl⟩

theorem witness_FetchFaultsInOrder :
    (fetching 0x1 0).EngineTurn [] ∧ (fetching 0x1 0).status.busy = true ∧ (fetching 0x1 0).pc.toNat % 8 ≠ 0 ∧
      (fetching 0x400000 0).pc.toNat % 8 = 0 ∧ (fetching 0x400000 0).pc.toNat = (fetching 0x400000 0).hw.lmemSize ∧
      decode ((fetching 0x3FFFF8 0x19).bytesAt 0x3FFFF8 8) = .error .illegalOp ∧
      decode ((fetching 0 0x100).bytesAt 0 8) = .error .reservedBits :=
  ⟨.inl ⟨rfl, rfl⟩, rfl, by decide +kernel, by decide +kernel, by decide +kernel, by rfl, by rfl⟩

/-- A step that faults, for a fetch cause, a decode cause, a CFG cause and an operand cause. -/
theorem witness_PreciseFaults :
    ∀ p ∈ [(fetching 0x1 0, Cause.fetchAlign), (fetching 0 0x19, .illegalOp),
        ({ fetching 0 2 with cfg := 0x101 }, .cfgBlocksize), ((withRegs uv4 0x102 0x200 1).withFetchWord 64 0x8811, .memAlign)],
      p.1.status.busy = true ∧ p.1.status.err = false ∧
        ∃ t, engineStep p.1 = .next t ∧ t.status.err = true ∧ t.errCause = p.2 := by
  intro p hp
  simp only [List.mem_cons, List.not_mem_nil, or_false] at hp
  rcases hp with rfl | rfl | rfl | rfl <;>
    exact ⟨by decide +kernel, by decide +kernel, _, next_of_isNext uv4 (by decide +kernel), by decide +kernel, by decide +kernel⟩

theorem witness_NotConfiguredComesFirst :
    isDataCommand (.windump 0) = true ∧ (unconfigured 0 0 0).status.cfgok = false ∧ isDataCommand (.setg 0) = false ∧
      uv4.errCause ≠ .notConfigured ∧ ∃ t, exec (.setg 0) uv4 = .next t :=
  ⟨rfl, rfl, rfl, by decide +kernel, _, rfl⟩

/-- The first operand misaligned; the second one byte pair past the end, behind one that passes; all inside, the last up to the end. -/
theorem witness_OperandFaultsInOrder :
    let s := withRegs uv4 0x102 0x200 1
    let t := withRegs uv4 0x100 0x3FFFFE 2
    s.status.cfgok = true ∧ operandTable (.comp 0 1 2) s = [] ++ ⟨0x102, 4, 4⟩ :: [⟨0x200, 2, 2⟩] ∧ (0x102 : Nat) % 4 ≠ 0 ∧
      t.status.cfgok = true ∧ operandTable (.comp 0 1 2) t = [⟨0x100, 8, 4⟩] ++ ⟨0x3FFFFE, 4, 2⟩ :: [] ∧
      (∀ p ∈ [(⟨0x100, 8, 4⟩ : Operand)], p.Ok t.hw.lmemSize) ∧ t.hw.lmemSize < 0x3FFFFE + 4 ∧ edge.status.cfgok = true ∧
      isDataCommand (.comp 0 5 2) = true ∧
      ∀ o ∈ operandTable (.comp 0 5 2) edge, o.len = 0 ∨ (o.base.toNat % o.align = 0 ∧ o.base.toNat + o.len ≤ edge.hw.lmemSize) := by
  simp only [Operand.Ok]
  decide +kernel

theorem witness_DataCommandsComplete :
    Config.legalParams edge.hw = true ∧ ∀ i ∈ edgeCommands, isDataCommand i = true ∧ edge.Ready i := edge_ready

/-- A nonzero word with NOP's opcode. -/
theorem witness_NopAdvances_HaltEndsRun :
    (0x100#64).extractLsb' 0 8 = 0 ∧ (0x100#64).extractLsb' 8 56 ≠ 0 ∧ uv4.irqen = false := by
  decide +kernel

theorem witness_JmpSetsPc : (0x44#32).toNat % 8 ≠ 0 ∧ (0x400000#32).toNat % 8 = 0 ∧ uv4.hw.lmemSize < (0x400000#32).toNat + 8 := by
  decide +kernel

theorem witness_DjnzCountsDown :
    ((withRegs uv4 1 0 0).x 0).toNat = 1 ∧ ((withRegs uv4 1 0 0).x 1).toNat = 0 ∧ 1 < ((withRegs uv4 2 0 0).x 0).toNat ∧
      1 < ((withRegs uv4 0xFFFFFFFF 0 0).x 0).toNat := by decide +kernel

/-- The smallest and the largest block size, each with a method. -/
theorem witness_InitConfigures :
    ∀ p ∈ [(unconfigured 0x102 0x43800000 0x3E800000, Method.uv, Window.rectangular),
        (unconfigured 0x5210 0x3F800000 0, .sq, .blackmanHarris), (unconfigured 0x010 0x42800000 0, .mu, .rectangular)],
      Config.legalParams p.1.hw = true ∧ 2 ≤ blkLog2 p.1.cfg ∧ blkLog2 p.1.cfg ≤ p.1.hw.maxLog2N ∧
        methodOf p.1.cfg = some p.2.1 ∧ windowOf p.1.cfg = some p.2.2 := by decide +kernel

/-- Parameters that pass each validity test: the default pair, K = 1 and K = 64, μ = 64. -/
theorem witness_InitConfigures_uv : ∃ k, DerivedConsts .reference .uv 0x43800000 0x3E800000 zeroConsts k := by
  unfold DerivedConsts
  refine ⟨_, ⟨?_, ?_, ?_, ?_, ?_⟩, rfl⟩
  · decide +kernel
  · decide +kernel
  · decide +kernel
  · decide +kernel
  · simp only [List.forall_mem_cons, List.not_mem_nil, false_implies, implies_true, and_true]
    refine ⟨?_, ?_, ?_, ?_, ?_, ?_⟩ <;> decide +kernel

theorem witness_InitConfigures_sq :
    (∃ k, DerivedConsts .reference .sq 0x3F800000 0 zeroConsts k) ∧ ∃ k, DerivedConsts .reference .sq 0x42800000 0 zeroConsts k := by
  unfold DerivedConsts
  refine ⟨⟨_, ?_, 1, ?_, ?_, ?_, rfl⟩, ⟨_, ?_, 64, ?_, ?_, ?_, rfl⟩⟩ <;> decide +kernel

theorem witness_InitConfigures_mu : ∃ k, DerivedConsts .reference .mu 0x42800000 0 zeroConsts k := by
  unfold DerivedConsts
  refine ⟨_, ?_, ?_, rfl⟩ <;> decide +kernel

/-- BLK_LOG2 = 1 and 17, METHOD = 3, WIN = 6. -/
theorem witness_InitFails :
    blkLog2 (unconfigured 0x101 0 0).cfg < 2 ∧ 16 < blkLog2 (unconfigured 0x111 0 0).cfg ∧
      2 ≤ blkLog2 (unconfigured 0x302 0 0).cfg ∧ methodBits (unconfigured 0x302 0 0).cfg = 3 ∧
      methodBits (unconfigured 0x6110 0 0).cfg ≠ 3 ∧ 6 ≤ (windowBits (unconfigured 0x6110 0 0).cfg).toNat ∧
      blkLog2 (unconfigured 0x6110 0 0).cfg ≤ State.reset.hw.maxLog2N ∧
      (windowBits (unconfigured 0x5202 0x42820000 0).cfg).toNat < 6 ∧ methodOf (unconfigured 0x5202 0x42820000 0).cfg = some .sq := by
  decide +kernel

/-- Refused parameters: K = 65, u = v = 1, μ = 0. -/
theorem witness_InitFails_consts :
    (¬∃ k, DerivedConsts .reference .sq 0x42820000 0 zeroConsts k) ∧
      (¬∃ k, DerivedConsts .reference .uv 0x3F800000 0x3F800000 zeroConsts k) ∧
      ¬∃ k, DerivedConsts .reference .mu 0 0 zeroConsts k := by
  refine ⟨?_, ?_, ?_⟩
  · rintro ⟨k, -, n, h1, h2, h3, -⟩
    have hu : units 0x42820000 = 65 * 2 ^ 149 := by decide +kernel
    rw [hu] at h3
    omega
  · rintro ⟨k, ⟨-, -, h, -⟩, -⟩
    exact absurd h (by decide +kernel)
  · rintro ⟨k, -, h, -⟩
    exact absurd h (by decide +kernel)

theorem witness_TablesFollowCurves : 2 ≤ 2 ∧ 0 < 2 ^ 2 ∧ 3 < 2 ^ 2 := by decide

theorem witness_WindumpWritesTables : Config.legalParams edge.hw = true ∧ edge.TablesLatched ∧ edge.Ready (.windump 4) :=
  ⟨edge_ready.1, edge_latched, (edge_ready.2 _ (by decide)).2⟩

theorem witness_CompWritesCodes : Config.legalParams edge.hw = true ∧ edge.Ready (.comp 0 5 2) :=
  ⟨edge_ready.1, (edge_ready.2 _ (by decide)).2⟩
theorem witness_ExpdWritesValues : Config.legalParams edge.hw = true ∧ edge.Ready (.expd 0 1 2) :=
  ⟨edge_ready.1, (edge_ready.2 _ (by decide)).2⟩
theorem witness_RfftWritesBins : Config.legalParams edge.hw = true ∧ edge.Ready (.rfft 0 3) :=
  ⟨edge_ready.1, (edge_ready.2 _ (by decide)).2⟩
theorem witness_IrfftWritesSamples : Config.legalParams edge.hw = true ∧ edge.Ready (.irfft 0 1) :=
  ⟨edge_ready.1, (edge_ready.2 _ (by decide)).2⟩
theorem witness_PqntWritesCodes : Config.legalParams edge.hw = true ∧ edge.Ready (.pqnt 0 5 2) :=
  ⟨edge_ready.1, (edge_ready.2 _ (by decide)).2⟩
theorem witness_FwdWritesRow : Config.legalParams edge.hw = true ∧ edge.Ready (.fwd 0 2 6) := ⟨edge_ready.1, (edge_ready.2 _ (by decide)).2⟩
theorem witness_PdeqWritesValues : Config.legalParams edge.hw = true ∧ edge.Ready (.pdeq 0 1 2) :=
  ⟨edge_ready.1, (edge_ready.2 _ (by decide)).2⟩
theorem witness_InvWritesSamples : Config.legalParams edge.hw = true ∧ edge.Ready (.inv 0 1 true true) :=
  ⟨edge_ready.1, (edge_ready.2 _ (by decide)).2⟩

/-- Empty operands pass wherever they are (section 2.8). -/
theorem witness_CompWritesCodes_empty : (withRegs uv4 0xFFFFFFFF 0xFFFFFFFF 0).Ready (.comp 0 1 2) := by
  simp only [State.Ready, Operand.Ok]
  decide +kernel

theorem witness_CompressFollowsCurve :
    methodOf mu4.acfg = some .mu ∧ methodOf uv4.acfg = some .uv ∧ methodOf sq4.acfg = some .sq ∧ sq4.consts.k = 0 + 2 ∧
      (configured 0x202 0x3F800000 0).consts.k = 1 ∧ methodOf (configured 0x202 0x3F800000 0).acfg = some .sq := by decide +kernel

theorem witness_ExpandIsCurve :
    (mu4.status.cfgok = true ∧ mu4.TablesLatched) ∧ (uv4.status.cfgok = true ∧ uv4.TablesLatched) ∧
      (sq4.status.cfgok = true ∧ sq4.TablesLatched) :=
  ⟨⟨by decide +kernel, mu4_latched⟩, ⟨by decide +kernel, uv4_latched⟩, ⟨by decide +kernel, sq4_latched⟩⟩

/-- An infinite sample, and an infinity in a used input, under NUM_ref. -/
theorem witness_TransformsUseTheirInputs_infinite :
    isInf 0xFF800000 = true ∧
      (numRfft .reference 4 [0x3F800000#32, 0xFF800000#32, 0#32, 0#32])[1]? = some (0x7FC00000#32, 0x7FC00000#32) ∧
      numIrfft .reference 4 [(0x3F800000#32, 0x7F800000#32), (0#32, 0xFF800000#32), (0#32, 0#32)] = List.replicate 4 0x7FC00000#32 := by
  decide +kernel

/-- A NaN sample; a NaN in a used input; two rows of bins that differ in unused inputs alone (section 2.5). -/
theorem witness_TransformsUseTheirInputs :
    (∃ v ∈ [0x3F800000#32, 0x7FC00000#32, 0#32, 0#32], isNaN v = true) ∧
      (numRfft .reference 4 [0x3F800000#32, 0x7FC00000#32, 0#32, 0#32])[1]? = some (0x7FC00000#32, 0x7FC00000#32) ∧
      ([(0x3F800000#32, 0#32), (0x7FC00000#32, 0#32), (0#32, 0#32)] : List Bin)[1]? = some (0x7FC00000#32, 0#32) ∧
      ∀ k z z', ([(0x3F800000#32, 0x7FC00000#32), (0#32, 0#32), (0#32, 0x7F800000#32)] : List Bin)[k]? = some z →
        ([(0x3F800000#32, 0x40A00000#32), (0#32, 0#32), (0#32, 0xC0E00000#32)] : List Bin)[k]? = some z' →
        z.1 = z'.1 ∧ (k ≠ 0 → k ≠ 4 / 2 → z.2 = z'.2) := by
  refine ⟨⟨0x7FC00000#32, by simp, by decide⟩, by decide +kernel, rfl, ?_⟩
  intro k z z' h h'
  rcases k with _ | _ | _ | k <;>
    simp only [Nat.zero_add, Nat.reduceAdd, List.getElem?_cons_zero, List.getElem?_cons_succ, List.getElem?_nil, Option.some.injEq,
      reduceCtorEq] at h h' <;>
    subst h <;> subst h' <;> exact ⟨rfl, fun h0 h2 => by first | rfl | exact absurd rfl h0 | exact absurd rfl h2⟩

theorem witness_BinEncoderNormalizes :
    feq (binMagnitude 0x3F800000 0) 0 = false ∧ feq (binMagnitude 0x80000000 0) 0 = true ∧
      isNaN (binMagnitude 0x7FC00000 0) = true ∧ (methodOf uv4.acfg).isSome = true := by decide +kernel

theorem otherMemory (s : State) (m : Memory) :
    let u := { s with lmem := m }
    u.hw = s.hw ∧ u.acfg = s.acfg ∧ u.acparam0 = s.acparam0 ∧ u.consts = s.consts ∧ u.lut = s.lut ∧ u.w = s.w ∧ u.r = s.r ∧
      u.syngain = s.syngain := ⟨rfl, rfl, rfl, rfl, rfl, rfl, rfl, rfl⟩

/-- Two machines whose bytes differ past the last byte of the row. -/
theorem witness_InvDependsOnItsRows :
    let u := { edge with lmem := [(0x112, 7)] }
    Config.legalParams edge.hw = true ∧ edge.TablesLatched ∧ edge.status.cfgok = true ∧
      (∀ o ∈ invRows 0x100 edge.aN false false, o.Ok edge.hw.lmemSize) ∧ u.hw = edge.hw ∧ u.acfg = edge.acfg ∧
      u.acparam0 = edge.acparam0 ∧ u.consts = edge.consts ∧ u.lut = edge.lut ∧ u.w = edge.w ∧ u.r = edge.r ∧
      u.syngain = edge.syngain ∧
      ∀ o ∈ invRows 0x100 edge.aN false false, ∀ a, o.span.holds a = true → u.byte a = edge.byte a := by
  obtain ⟨h1, h2, h3, h4, h5, h6, h7, h8⟩ := otherMemory edge [(0x112, 7)]
  refine ⟨edge_ready.1, edge_latched, by decide +kernel, by simp only [Operand.Ok]; decide +kernel, h1, h2, h3, h4, h5, h6, h7, h8, ?_⟩
  have h : invRows 0x100 edge.aN false false = [⟨0x100, 18, 2⟩] := by decide +kernel
  have hm : edge.lmem = [] := by decide +kernel
  rw [h]
  intro o ho a ha
  simp only [List.mem_singleton] at ho
  subst ho
  simp [Operand.span, Span.holds] at ha
  have hn : a ≠ 0x112 := by omega
  simp [State.byte, Memory.get?, hm, hn]

/-- Source and destination that touch. -/
theorem witness_VectorsWithoutOverlap :
    ((withRegs uv4 0x100 0x110 4).Ready (.comp 0 1 2) ∧ (withRegs uv4 0x100 0x110 4).Ready (.pqnt 0 1 2) ∧
        Span.meets ⟨0x100, 4 * 4⟩ ⟨0x110, 2 * 4⟩ = false) ∧
      ((withRegs uv4 0x100 0x108 4).Ready (.expd 0 1 2) ∧ (withRegs uv4 0x100 0x108 4).Ready (.pdeq 0 1 2) ∧
        Span.meets ⟨0x100, 2 * 4⟩ ⟨0x108, 4 * 4⟩ = false) := by
  simp only [State.Ready, Operand.Ok]
  decide +kernel

/-- A tie between 0 and the smallest subnormal goes to 0; the first value that rounds to infinity. -/
theorem witness_RoundToNearestEven :
    rneBits 1 (2 ^ 150) = 0 ∧
      (((1 * 2 ^ 149 : Nat) : Int) - ((magUnits (BitVec.ofNat 32 0) * 2 ^ 150 : Nat) : Int)).natAbs =
        (((1 * 2 ^ 149 : Nat) : Int) - ((magUnits (BitVec.ofNat 32 1) * 2 ^ 150 : Nat) : Int)).natAbs ∧
      rneBits ((2 ^ 25 - 1) * 2 ^ 103) 1 = 0x7F800000 ∧ rneBits ((2 ^ 25 - 1) * 2 ^ 103 - 1) 1 = 0x7F7FFFFF := by decide +kernel

theorem witness_EveryNaNIsCanonical : isNaN 0x7F800001 = true ∧ isNaN 0xFFFFFFFF = true := by decide

/-- 1, 0.25, 0.5, 0.75 and -0.25 of a turn. -/
theorem witness_NumMeetsSpecialValues :
    flt 0x80000001 0 = true ∧ isNaN 0x7FC00000 = true ∧
      (∀ p ∈ [(0x3F800000#32, (0 : Int)), (0x3E800000#32, 2 ^ 147), (0x3F000000#32, 2 ^ 148), (0x3F400000#32, 3 * 2 ^ 147),
          (0xBE800000#32, 3 * 2 ^ 147)],
        isFinite p.1 = true ∧ ((1 : Nat) : Int) * units p.1 % 2 ^ 149 = p.2) ∧
      (numRfft .reference 4 [0#32, 0#32, 0#32, 0#32])[2]? = some (0#32, 0#32) := by decide +kernel

theorem witness_QuantizerClampsAndFlags :
    isNaN 0x7F800001 = true ∧ flt 0x80000001 0 = true ∧ flt 0x3F800000 0x3F800001 = true ∧ fle 0 0x80000000 = true ∧
      fle 0x3F800000 0x3F800000 = true ∧ (quantize 0x3780007F).code = 0 ∧ isNaN 0x3780007F = false := by decide

theorem witness_ConfigurationOnlyAtInit : Instr.nop ≠ .init ∧ ∃ t, exec .nop uv4 = .next t := ⟨by decide, _, rfl⟩

/-- A NOP, an INIT, the reset input, a soft reset. -/
theorem witness_TablesChangeOnlyAtInit :
    ∀ s ∈ [fetching 0 0, fetching 0 2, { uv4 with turns := [.reset] }, facing (.write 0x004 32 4) uv4], ∃ t, step s = .next t := by
  intro s hs
  refine ⟨_, next_of_isNext uv4 ?_⟩
  revert s
  decide +kernel

theorem witness_OnlyAddressCommandsWriteRegisters : ∃ t, exec (.seta 7 0xFFFFFFFF) uv4 = .next t ∧ t.x 7 ≠ uv4.x 7 :=
  ⟨_, rfl, by decide +kernel⟩

theorem witness_StickyFlags :
    let s := { edge with status := { edge.status with nan := true, sat := true } }
    s.status.nan = true ∧ s.status.sat = true ∧ (∃ t, exec (.windump 4) s = .next t) ∧
      ∀ a b c, Instr.windump 4 ≠ .comp a b c ∧ Instr.windump 4 ≠ .pqnt a b c ∧ Instr.windump 4 ≠ .fwd a b c :=
  ⟨rfl, rfl, ⟨_, next_of_isNext edge (by decide +kernel)⟩, by simp⟩

/-- A host write to LMEM's last word while the engine is busy. -/
theorem witness_StepKeepsMemory :
    let s := facing (.write 0x013FFFFC 32 0x12345678) uv4
    s.MemoryOk ∧ ∃ t, step s = .next t :=
  ⟨⟨by decide +kernel, by decide +kernel, by decide +kernel, by decide +kernel⟩, _, next_of_isNext uv4 (by decide +kernel)⟩

/-- An INIT, which sets CFGOK; and a machine with CFGOK set. -/
theorem witness_StepKeepsTables : (fetching 0 2).TablesLatched ∧ edge.TablesLatched ∧ ∃ t, step (fetching 0 2) = .next t :=
  ⟨by unfold State.TablesLatched; exact fun h => absurd h (by decide +kernel), edge_latched, _, next_of_isNext uv4 (by decide +kernel)⟩

/-- The HALT that ends a run. -/
theorem witness_StepKeepsRunFlags : (fetching 0 1).RunFlags ∧ ∃ t, step (fetching 0 1) = .next t :=
  ⟨⟨by decide +kernel, by decide +kernel, by decide +kernel, by decide +kernel⟩, _, next_of_isNext uv4 (by decide +kernel)⟩

theorem witness_StepKeepsCfgReserved :
    let s := facing (.write 0x024 32 0xFFFFFFFF) State.reset
    s.CfgReserved ∧ ∃ t, step s = .next t := ⟨⟨by decide +kernel, by decide +kernel⟩, _, next_of_isNext uv4 (by decide +kernel)⟩

theorem witness_ResetGivesValues : ({ uv4 with turns := [.reset, .engine] } : State).turns = .reset :: [.engine] := rfl

/-- SRST alone and with every other bit; a byte next to a raced one; a machine without a race. -/
theorem witness_SoftResetKeepsLmem :
    (4#32).getLsbD 2 = true ∧ (0xFFFFFFFF#32).getLsbD 2 = true ∧
      (facing (.write 0x004 32 4) uv4).turns = .access (.write 0x004 32 4) :: [] ∧
      ([(⟨0x100, 4⟩ : Span)].any fun p => p.holds 0x104) = false ∧ (facing (.write 0x004 32 4) uv4).race.raced = [] :=
  ⟨by decide, by decide, rfl, by decide, by decide +kernel⟩

theorem uv4_busy : uv4.status.busy = true := by decide +kernel

/-- A busy machine facing each kind of write: the last of the RW registers, A0, A7, CTRL, STATUS, ID and ACPARAM1. -/
theorem witness_HostWritesWhileBusy :
    (∀ off ∈ [0x020#32, 0x030#32, 0x080#32, 0x09C#32, 0x004#32, 0x008#32, 0x000#32, 0x040#32],
      (facing (.write off 32 1) uv4).turns = .access (.write off 32 1) :: [] ∧ (facing (.write off 32 1) uv4).status.busy = true) ∧
    (∃ i : Reg, (0x080#32).toNat = 0x080 + 4 * i.val) ∧ (∃ i : Reg, (0x09C#32).toNat = 0x080 + 4 * i.val) ∧
    (1#32).getLsbD 0 = true ∧ (1#32).getLsbD 2 = false :=
  ⟨by simp [facing, uv4_busy], ⟨0, rfl⟩, ⟨7, rfl⟩, rfl, rfl⟩

theorem witness_HostWritesWhileIdle :
    (∀ off ∈ [0x020#32, 0x024#32, 0x028#32, 0x02C#32, 0x030#32, 0x080#32, 0x09C#32, 0x004#32],
      (facing (.write off 32 2) State.reset).turns = .access (.write off 32 2) :: [] ∧
        (facing (.write off 32 2) State.reset).status.busy = false) ∧
    (∃ i : Reg, (0x080#32).toNat = 0x080 + 4 * i.val) ∧ (∃ i : Reg, (0x09C#32).toNat = 0x080 + 4 * i.val) ∧
    (2#32).getLsbD 0 = false ∧ (2#32).getLsbD 2 = false ∧
    (facing (.write 0x004 32 2) uv4).turns = .access (.write 0x004 32 2) :: [] ∧ (facing (.write 0x004 32 2) uv4).status.busy = true :=
  ⟨by simp [facing, State.reset, clearStatus], ⟨0, rfl⟩, ⟨7, rfl⟩, rfl, rfl, by simp [facing], by simp [facing, uv4_busy]⟩

/-- The first and the last mapped offset, the unmapped ones next to them, a narrow and a misaligned access. -/
theorem witness_HostReadsRegisterMap :
    (0x00FFFFFC#32).toNat < 0x01000000 ∧ (facing (.read 0x09C 32) uv4).turns = .access (.read 0x09C 32) :: [] ∧
      ((0x09C#32).toNat, uv4.x 7) = (0x09C, uv4.x 7) ∧ (0x044#32).toNat % 4 = 0 ∧ (0x0A0#32).toNat % 4 = 0 ∧
      ((16 : Nat) ≠ 32 ∨ (0x000#32).toNat % 4 ≠ 0) ∧ ((32 : Nat) ≠ 32 ∨ (0x002#32).toNat % 4 ≠ 0) := by decide +kernel

theorem witness_StartBeginsRun :
    (facing (.write 0x004 32 3) State.reset).turns = .access (.write 0x004 32 3) :: [] ∧ (3#32).getLsbD 0 = true ∧
      (3#32).getLsbD 2 = false ∧ (facing (.write 0x004 32 3) State.reset).status.busy = false ∧
      (facing (.write 0x004 32 3) uv4).status.busy = true := by decide +kernel

theorem witness_IrqIsEnabledDoneOrErr :
    (∃ t, exec .halt uv4 = .next t) ∧ State.reset.status.busy = false ∧
      (({ after .halt uv4 with irqen := true } : State).writeRegister 0x008 4).irq = true := by
  exact ⟨⟨_, rfl⟩, rfl, by decide +kernel⟩

/-- LMEM's first byte, its last word, the first byte past it; a wide and a misaligned access. -/
theorem witness_HostReadsAndWritesLmem :
    (0x01000000 ≤ (0x01000000#32).toNat ∧ (0x01000000#32).toNat % (8 / 8) = 0) ∧
      (0x01000000 ≤ (0x013FFFFC#32).toNat ∧ (0x013FFFFC#32).toNat % (32 / 8) = 0 ∧
        (0x013FFFFC#32).toNat - 0x01000000 < State.reset.hw.lmemSize) ∧
      State.reset.hw.lmemSize ≤ (0x01400000#32).toNat - 0x01000000 ∧ ¬((0x01000001#32).toNat % (16 / 8) = 0) ∧
      ¬((64 : Nat) = 8 ∨ (64 : Nat) = 16 ∨ (64 : Nat) = 32) ∧ State.reset.status.busy = false ∧
      (facing (.write 0x013FFFFC 32 7) State.reset).turns = .access (.write 0x013FFFFC 32 7) :: [] ∧
      (facing (.read 0x013FFFFC 32) State.reset).turns = .access (.read 0x013FFFFC 32) :: [] := by decide +kernel

/-- A busy machine facing accesses to LMEM's last word; a run with a raced byte, a settled and an open byte of a read. -/
theorem witness_RacedBytesAreFree :
    let r : HostRead := { span := ⟨0x3FFFF8, 2⟩, seen := 0x1234, draw := 5 }
    let s := { edge with race := { noRaces with raced := [⟨0x10F, 1⟩], wrote := [⟨0x3FFFF9, 4⟩], reads := [r], lastRead := true } }
    s.status.busy = true ∧ (0x013FFFFC#32).toNat % (32 / 8) = 0 ∧ (0x013FFFFC#32).toNat - 0x01000000 < s.hw.lmemSize ∧
      (facing (.read 0x013FFFFC 32) s).turns = .access (.read 0x013FFFFC 32) :: [] ∧ s.race.Raced 0x10F ∧ ¬s.race.Raced 0x110 ∧
      s.race.reads[0]? = some r ∧ r.span.len ≤ 4 ∧ (s.race.wrote.any fun p => p.holds (0x3FFFF8 + 0)) = false ∧
      (s.race.wrote.any fun p => p.holds (0x3FFFF8 + 1)) = true := by
  simp only [RaceLog.Raced]
  decide +kernel

/-- A run with a raced byte at 0x10F, at the word at 0x200. -/
def racing : State := { edge with pc := 0x200, race := { noRaces with raced := [⟨0x10F, 1⟩] } }

theorem racing_clean : racing.CleanCommand := by
  refine ⟨fun a ha h => ?_, rfl, rfl, rfl⟩
  have hp : racing.pc.toNat = 0x200 := rfl
  have hr : racing.race.raced = [⟨0x10F, 1⟩] := rfl
  simp only [Among, hp] at ha
  simp [RaceLog.Raced, hr, Span.holds] at h
  omega

/-- Commands in that run: each edge command may run. Then a raced opcode half, a raced immediate half, and a DJNZ that branches. -/
theorem witness_RacedBytesAreFree_commands :
    Config.legalParams racing.hw = true ∧ (∀ i ∈ edgeCommands, isDataCommand i = true ∧ racing.Ready i) ∧ racing.CleanCommand ∧
      (({ racing with pc := 0x10C } : State).race.Raced 0x10F ∧ Among 0x10C 0 4 0x10F) ∧
      (({ racing with pc := 0x108 } : State).race.Raced 0x10F ∧ Among 0x108 4 4 0x10F) ∧ racing.x 7 ≠ 1 ∧
      (7 : Reg) ∈ decidingRegs (.djnz 7 0) := by
  refine ⟨?_, ?_, racing_clean, ?_, ?_, ?_, ?_⟩
  · decide +kernel
  · simp only [State.Ready, Operand.Ok]; decide +kernel
  · simp only [RaceLog.Raced, Among]; decide +kernel
  · simp only [RaceLog.Raced, Among]; decide +kernel
  · decide +kernel
  · decide

/-- A raced sample at element 0 of a COMP makes its code raced and not the next one's. -/
theorem test_race_flows :
    let t := ({ edge with pc := 0x200, race := { noRaces with raced := [⟨0x103, 1⟩] } } : State).raceAfter (.comp 0 5 2)
    t.raced = [⟨0x3FFFF8, 2⟩, ⟨0x103, 1⟩] ∧ t.wrote = [⟨0x3FFFF8, 8⟩] ∧ t.steered = false := by decide +kernel

end Sys2Proof.Tests
end

section
/-! The transforms' inputs and outputs (spec/43_fft.md R221 to R223): which components there are, and what a NaN does. -/

namespace Sys2Proof.Machine

open Config (NumChoice)

/-! ### Poisoned inputs -/

theorem isFinite_eq_false_iff (v : F32) : isFinite v = false ↔ isNaN v = true ∨ isInf v = true := by
  simp only [isFinite, isNaN, isInf, decide_eq_false_iff_not, decide_eq_true_eq]
  omega

/-- The inputs that make a whole transform NaN (R223): a NaN, and for NUM_ref an infinity too. -/
def Poisons (num : NumChoice) (v : F32) : Prop := isNaN v = true ∨ (num = .reference ∧ isInf v = true)

theorem transformable_eq_false_iff (num : NumChoice) (t : List F32) :
    transformable num t = false ↔ ∃ v ∈ t, Poisons num v := by
  cases num <;> simp [transformable, Poisons, isFinite_eq_false_iff]

/-! ### The forward transform -/

/-- The bins of NUM.rfft before the imaginary parts of bins 0 and N/2 are made +0. -/
def bareBins (num : NumChoice) (n : Nat) (t : List F32) : List Bin :=
  if transformable num t then
    match num with
    | .reference => rfftRef n t
    | .silicon =>
      (List.range (n / 2 + 1)).map fun k => (canon (Config.siliconRfft n t k).1, canon (Config.siliconRfft n t k).2)
  else List.replicate (n / 2 + 1) (nan32, nan32)

theorem numRfft_eq (num : NumChoice) (n : Nat) (t : List F32) :
    numRfft num n t = (bareBins num n t).zipIdx.map fun p => realEdges n p.2 p.1 := rfl

theorem bareBins_of_not_transformable {num : NumChoice} (n : Nat) {t : List F32} (h : transformable num t = false) :
    bareBins num n t = List.replicate (n / 2 + 1) (nan32, nan32) := by
  simp [bareBins, h]

@[simp] theorem length_bareBins (num : NumChoice) (n : Nat) (t : List F32) : (bareBins num n t).length = n / 2 + 1 := by
  unfold bareBins
  split
  · cases num <;> simp [rfftRef]
  · simp

@[simp] theorem length_numRfft (num : NumChoice) (n : Nat) (t : List F32) : (numRfft num n t).length = n / 2 + 1 := by
  simp [numRfft_eq]

theorem getElem?_numRfft (num : NumChoice) (n : Nat) (t : List F32) (k : Nat) :
    (numRfft num n t)[k]? = (bareBins num n t)[k]?.map (realEdges n k) := by
  simp [numRfft_eq, List.getElem?_zipIdx, Function.comp_def]

theorem realEdges_edge {n k : Nat} (h : k = 0 ∨ k = n / 2) (b : Bin) : realEdges n k b = (b.1, zero32) := if_pos h

theorem realEdges_inner {n k : Nat} (h0 : k ≠ 0) (h2 : k ≠ n / 2) (b : Bin) : realEdges n k b = b :=
  if_neg (not_or.2 ⟨h0, h2⟩)

@[simp] theorem realEdges_fst (n k : Nat) (b : Bin) : (realEdges n k b).1 = b.1 := by
  unfold realEdges
  split <;> rfl

/-- Bins 0 and N/2 of a real signal are real (R17). -/
theorem numRfft_edge_im {num : NumChoice} {n k : Nat} {t : List F32} {z : Bin} (hk : k = 0 ∨ k = n / 2)
    (hz : (numRfft num n t)[k]? = some z) : z.2 = zero32 := by
  rw [getElem?_numRfft, Option.map_eq_some_iff] at hz
  obtain ⟨b, -, rfl⟩ := hz
  rw [realEdges_edge hk]

/-- Every component of a poisoned transform that is not made +0 is NaN. -/
theorem numRfft_poisoned {num : NumChoice} {n k : Nat} {t : List F32} {z : Bin} (ht : ∃ v ∈ t, Poisons num v)
    (hz : (numRfft num n t)[k]? = some z) : z.1 = nan32 ∧ (k ≠ 0 → k ≠ n / 2 → z.2 = nan32) := by
  have h := bareBins_of_not_transformable n ((transformable_eq_false_iff num t).2 ht)
  rw [getElem?_numRfft, h, Option.map_eq_some_iff] at hz
  obtain ⟨b, hb, rfl⟩ := hz
  obtain rfl : b = (nan32, nan32) := List.eq_of_mem_replicate (List.mem_of_getElem? hb)
  exact ⟨realEdges_fst _ _ _, fun h0 h2 => by rw [realEdges_inner h0 h2]⟩

/-! ### The inverse transform -/

theorem getElem?_usedBins (n : Nat) (y : List Bin) (k : Nat) : (usedBins n y)[k]? = y[k]?.map (realEdges n k) := by
  simp [usedBins, List.getElem?_zipIdx, Function.comp_def]

/-- Bins that agree in their used parts give the same input of the inverse transform (R222). -/
theorem usedBins_congr {n : Nat} {y y' : List Bin} (hl : y'.length = y.length)
    (h : ∀ k z z', y[k]? = some z → y'[k]? = some z' → z.1 = z'.1 ∧ (k ≠ 0 → k ≠ n / 2 → z.2 = z'.2)) :
    usedBins n y' = usedBins n y := by
  apply List.ext_getElem?
  intro k
  rw [getElem?_usedBins, getElem?_usedBins]
  by_cases hk : k < y.length
  · have hy := List.getElem?_eq_getElem hk
    have hy' := List.getElem?_eq_getElem (l := y') (hl ▸ hk)
    obtain ⟨h1, h2⟩ := h k _ _ hy hy'
    rw [hy, hy', Option.map_some, Option.map_some]
    by_cases he : k = 0 ∨ k = n / 2
    · rw [realEdges_edge he, realEdges_edge he, h1]
    · rw [not_or] at he
      rw [realEdges_inner he.1 he.2, realEdges_inner he.1 he.2, Prod.ext h1 (h2 he.1 he.2)]
  · rw [List.getElem?_eq_none (by omega), List.getElem?_eq_none (by omega)]

/-- The components of a list of bins, one after the other. -/
abbrev components (u : List Bin) : List F32 := u.flatMap fun b => [b.1, b.2]

theorem numIrfft_of_not_transformable {num : NumChoice} {n : Nat} {y : List Bin}
    (h : transformable num (components (usedBins n y)) = false) : numIrfft num n y = List.replicate n nan32 := by
  simp [numIrfft, h]

@[simp] theorem length_numIrfft (num : NumChoice) (n : Nat) (y : List Bin) : (numIrfft num n y).length = n := by
  simp only [numIrfft]
  split
  · cases num <;> simp [irfftRef]
  · simp

/-- A poisoned used input makes every sample NaN (R223). -/
theorem numIrfft_poisoned {num : NumChoice} {n k : Nat} {y : List Bin} {z : Bin} (hz : y[k]? = some z)
    (hp : Poisons num z.1 ∨ (k ≠ 0 ∧ k ≠ n / 2 ∧ Poisons num z.2)) : numIrfft num n y = List.replicate n nan32 := by
  apply numIrfft_of_not_transformable
  rw [transformable_eq_false_iff]
  have hu : realEdges n k z ∈ usedBins n y := List.mem_of_getElem? (i := k) (by rw [getElem?_usedBins, hz]; rfl)
  rcases hp with hp | ⟨h0, h2, hp⟩
  · exact ⟨z.1, List.mem_flatMap.2 ⟨_, hu, by simp⟩, hp⟩
  · exact ⟨z.2, List.mem_flatMap.2 ⟨_, hu, by simp [realEdges_inner h0 h2]⟩, hp⟩

/-- Settles O30: the outputs are NaN exactly where `transformable` fails, and the inverse transform reads `usedBins` alone. -/
theorem transformsUseTheirInputs : Obligations.TransformsUseTheirInputs := by
  intro num n
  refine ⟨fun t => ⟨length_numRfft num n t, fun k z => numRfft_edge_im, fun ht k z => numRfft_poisoned ht⟩,
    fun y => ⟨length_numIrfft num n y, ?_, ?_⟩⟩
  · rintro ⟨k, z, hz, hp⟩ v hv
    rw [numIrfft_poisoned hz hp] at hv
    exact List.eq_of_mem_replicate hv
  · intro y' hl h
    simp only [numIrfft, usedBins_congr hl h]

end Sys2Proof.Machine
end

section
/-! What every step keeps of LMEM and of the run flags (spec/00_scope.md R8, R23, spec/20_memory.md R80, R98, spec/60_exceptions.md R290):
each turn, each command and each host access once, then the two invariants. -/

namespace Sys2Proof.Machine

/-! ### One step -/

/-- A property that does not depend on the turns to come, and that the engine, the host and the reset input keep, is kept by every step. -/
theorem step_keeps {P : State → Prop} (turns : ∀ s ts, P s → P { s with turns := ts })
    (engine : ∀ s t, P s → s.status.busy = true → engineStep s = .next t → P t)
    (access : ∀ a s t, P s → hostAccess a s = .next t → P t) (reset : ∀ s, P s → P s.hardwareReset)
    {s t : State} (hs : P s) (h : step s = .next t) : P t := by
  obtain ⟨ts, -, h⟩ := step_cases h
  have hs' := turns s ts hs
  rcases h with ⟨hb, h⟩ | ⟨-, rfl⟩ | ⟨a, h⟩ | rfl
  · exact engine _ _ hs' hb h
  · exact hs'
  · exact access _ _ _ hs' h
  · exact reset _ hs'

theorem fetchDecode_error {s t : State} (h : fetchDecode s = .error t) : ∃ c a w, c ≠ .none ∧ t = s.raise c a w := by
  unfold fetchDecode at h
  split at h
  · exact ⟨.fetchAlign, _, _, nofun, (Except.error.inj h).symm⟩
  split at h
  · exact ⟨.fetchRange, _, _, nofun, (Except.error.inj h).symm⟩
  split at h
  · cases h
  · exact ⟨.illegalOp, _, _, nofun, (Except.error.inj h).symm⟩
  · exact ⟨.reservedBits, _, _, nofun, (Except.error.inj h).symm⟩
  · exact ⟨.fetchRange, _, _, nofun, (Except.error.inj h).symm⟩

/-- What one engine step that answers t is: a fault entry under a cause that is not NONE, or a command. -/
theorem engineStep_faults_or_executes {s t : State} (h : engineStep s = .next t) :
    (∃ c a w, c ≠ .none ∧ t = (s.raise c a w).endRun) ∨ ∃ i u, exec i s = .next u ∧ t = s.follow i u := by
  unfold engineStep at h
  split at h
  · split at h
    · injection h with h
      exact .inr ⟨_, _, ‹_›, h.symm⟩
    · rename_i hx
      exact absurd h (hx t)
  · obtain ⟨c, a, w, hc, rfl⟩ := fetchDecode_error ‹_›
    injection h with h
    exact .inl ⟨c, a, w, hc, h.symm⟩

/-! ### What a command does to the run -/

/-- BUSY, DONE and ERR are as before. -/
structure SameRun (s t : State) : Prop where
  busy : t.status.busy = s.status.busy
  done : t.status.done = s.status.done
  err : t.status.err = s.status.err

/-- A command leaves BUSY, DONE and ERR alone, or ends the run with DONE, or ends it with a fault entry (R143, R290). -/
theorem exec_run_cases {i : Instr} {s t : State} (h : exec i s = .next t) :
    SameRun s t ∨ (t.status.busy = false ∧ t.status.done = true ∧ t.status.err = s.status.err) ∨
      ∃ (u : State) (c : Cause) (a : Word), c ≠ .none ∧ u.status.done = s.status.done ∧ t = u.raise c a (encodeWord i) := by
  by_cases hd : isDataCommand i = true
  · rcases exec_data_cases hd h with ⟨-, rfl⟩ | ⟨-, c, a, hf, rfl⟩ | ⟨-, m, x, y, rfl, -⟩
    · exact .inr (.inr ⟨s, .notConfigured, 0, nofun, rfl, rfl⟩)
    · have hc : c ≠ .none := by
        rcases (firstFault_eq_some hf).1 with rfl | rfl <;> exact nofun
      exact .inr (.inr ⟨s, c, a, hc, rfl, rfl⟩)
    · exact .inl ⟨rfl, rfl, rfl⟩
  · cases i
    case halt => injection h with h; subst h; exact .inr (.inl ⟨rfl, rfl, rfl⟩)
    case init =>
      rcases execInit_cases h with ⟨c, hc, rfl⟩ | ⟨m, w, k, -, -, -, -, -, rfl⟩
      · have hc : c ≠ .none := by
          rcases hc with rfl | rfl | rfl | rfl <;> exact nofun
        exact .inr (.inr ⟨{ s with status := { s.status with cfgok := false } }, c, 0, hc, rfl, rfl⟩)
      · exact .inl ⟨rfl, rfl, rfl⟩
    case djnz =>
      simp only [exec, execDjnz] at h
      split at h <;> (injection h with h; subst h; exact .inl ⟨rfl, rfl, rfl⟩)
    case nop | seta | adda | jmp | setg => injection h with h; subst h; exact .inl ⟨rfl, rfl, rfl⟩
    all_goals exact absurd rfl hd

/-- A command whose run goes on had CFGOK and operands that pass, if it needs them. -/
theorem ready_of_exec_busy {i : Instr} {s t : State} (h : exec i s = .next t) (hb : t.status.busy = true)
    (hd : isDataCommand i = true) : s.Ready i := by
  rcases exec_data_cases hd h with ⟨-, rfl⟩ | ⟨-, c, a, -, rfl⟩ | ⟨hr, -⟩
  · cases hb
  · cases hb
  · exact hr

/-! ### What a command does to LMEM -/

/-- A list of written bytes in canonical form, all of them below n. -/
structure Memory.Within (n : Nat) (m : Memory) : Prop where
  canonical : Memory.wf m = true
  inside : Memory.below n m = true

theorem Memory.Within.memWrite {n a k v : Nat} {s : State} (h : Memory.Within n s.lmem) (ha : a + k ≤ n) :
    Memory.Within n (s.memWrite a k v).lmem :=
  ⟨State.wf_memWrite a k v h.canonical, below_storeBytes _ (by simpa using ha) h.inside⟩

theorem Memory.Within.writeSamples {n : Nat} {s : State} {a : Word} {l : List F32} (h : Memory.Within n s.lmem) (hn : n < 2 ^ 32)
    (ha : 4 * l.length = 0 ∨ a.toNat + 4 * l.length ≤ n) : Memory.Within n (s.writeSamples a l).lmem := by
  induction l generalizing s a with
  | nil => exact h
  | cons v l ih =>
    simp only [List.length_cons] at ha
    have h4 : (a + 4).toNat = a.toNat + 4 := toNat_add_small 4 (by omega)
    exact ih (s := s.writeF32 a v) (h.memWrite (by omega)) (by omega)

theorem Memory.Within.writeCodes {n : Nat} {s : State} {a : Word} {l : List Code} (h : Memory.Within n s.lmem) (hn : n < 2 ^ 32)
    (ha : 2 * l.length = 0 ∨ a.toNat + 2 * l.length ≤ n) : Memory.Within n (s.writeCodes a l).lmem := by
  induction l generalizing s a with
  | nil => exact h
  | cons v l ih =>
    simp only [List.length_cons] at ha
    have h2 : (a + 2).toNat = a.toNat + 2 := toNat_add_small 2 (by omega)
    exact ih (s := s.writeU16 a v) (h.memWrite (by omega)) (by omega)

theorem Memory.Within.quantizeElements {n k : Nat} {s : State} (curve : F32 → F32) (src : Word) {dst : Word}
    (h : Memory.Within n s.lmem) (hn : n < 2 ^ 32) (ha : 2 * k = 0 ∨ dst.toNat + 2 * k ≤ n) :
    Memory.Within n (iter (quantizeElement curve src dst) k s).lmem := by
  refine iter_induction (quantizeElement curve src dst) (fun t => Memory.Within n t.lmem) h fun i t hi ht => ht.memWrite ?_
  rw [toNat_element (by omega)]
  omega

theorem Memory.Within.expandElements {n k : Nat} {s : State} (curve : Code → F32) (src : Word) {dst : Word}
    (h : Memory.Within n s.lmem) (hn : n < 2 ^ 32) (ha : 4 * k = 0 ∨ dst.toNat + 4 * k ≤ n) :
    Memory.Within n (iter (expandElement curve src dst) k s).lmem := by
  refine iter_induction (expandElement curve src dst) (fun t => Memory.Within n t.lmem) h fun i t hi ht => ht.memWrite ?_
  rw [toNat_element (by omega)]
  omega

theorem length_dumpedTables (s : State) : s.dumpedTables.length = 2 * s.aN := by
  simp [State.dumpedTables]
  omega

theorem length_decodeBlock (s : State) (c : Word) (pv nv : Bool) : (s.decodeBlock c pv nv).length = s.aN := by
  simp [State.decodeBlock, State.overlapAdd]

theorem length_pixelsOf_encodeFrame (s : State) (src : Word) (limit n : Nat) :
    (pixelsOf (s.encodeFrame src limit n)).length = binCount n := by
  simp [pixelsOf, State.encodeFrame, binCount]

/-- A data command that may run answers its effect. -/
theorem exec_ready {i : Instr} {ins : List Operand} {out : Operand} {effect : State → State} {s t : State} (hr : s.Ready i)
    (h : exec i s = .next t) (he : exec i s = dataCommand i ins out effect s) (ht : ins ++ [out] = operandTable i s) :
    t = dataDone effect s := by
  rw [he, dataCommand_done hr.1 (firstFault_eq_none_of_ok (by rw [ht]; exact hr.2))] at h
  injection h with h
  exact h.symm

theorem invRows_append_eq_operandTable (ra rb : Reg) (pv nv : Bool) (s : State) :
    invRows (s.x ra) s.aN pv nv ++ [⟨s.x rb, 4 * s.aN, 4⟩] = operandTable (.inv ra rb pv nv) s := by
  cases pv <;> cases nv <;> rfl

theorem outputOperand_inv (ra rb : Reg) (pv nv : Bool) (s : State) :
    outputOperand (.inv ra rb pv nv) s = ⟨s.x rb, 4 * s.aN, 4⟩ := by
  rw [outputOperand, ← invRows_append_eq_operandTable, List.getLastD_concat]

theorem exec_windump (ra : Reg) (s : State) :
    exec (.windump ra) s =
      dataCommand (.windump ra) [] ⟨s.x ra, 8 * s.aN, 4⟩ (fun t => t.writeSamples (s.x ra) s.dumpedTables) s := rfl

theorem exec_rfft (ra rb : Reg) (s : State) :
    exec (.rfft ra rb) s =
      dataCommand (.rfft ra rb) [⟨s.x ra, 4 * s.aN, 4⟩] ⟨s.x rb, 8 * binCount s.aN, 4⟩
        (fun t => t.writeBins (s.x rb) (numRfft s.hw.num s.aN (t.readSamples (s.x ra) s.aN))) s := rfl

theorem exec_irfft (ra rb : Reg) (s : State) :
    exec (.irfft ra rb) s =
      dataCommand (.irfft ra rb) [⟨s.x ra, 8 * binCount s.aN, 4⟩] ⟨s.x rb, 4 * s.aN, 4⟩
        (fun t => t.writeSamples (s.x rb) (numIrfft s.hw.num s.aN (t.readBins (s.x ra) (binCount s.aN)))) s := rfl

theorem exec_fwd (ra rb rc : Reg) (s : State) :
    exec (.fwd ra rb rc) s =
      dataCommand (.fwd ra rb rc) [⟨s.x ra, 4 * sampleLimit (s.x rb) s.aN, 4⟩] ⟨s.x rc, rowBytes s.aN, 2⟩
        (fun t =>
          (t.writePixels (s.x rc) (pixelsOf (t.encodeFrame (s.x ra) (sampleLimit (s.x rb) s.aN) s.aN))).stickRow
            (t.encodeFrame (s.x ra) (sampleLimit (s.x rb) s.aN) s.aN)) s := rfl

theorem exec_inv (ra rb : Reg) (pv nv : Bool) (s : State) :
    exec (.inv ra rb pv nv) s =
      dataCommand (.inv ra rb pv nv) (invRows (s.x ra) s.aN pv nv) ⟨s.x rb, 4 * s.aN, 4⟩
        (fun t => t.writeSamples (s.x rb) (t.decodeBlock (s.x ra) pv nv)) s := rfl

/-- A data command that may run writes inside its output operand, so inside LMEM (R93). -/
theorem exec_ready_within {i : Instr} {s t : State} (hd : isDataCommand i = true) (hr : s.Ready i) (hl : s.hw.lmemSize < 2 ^ 32)
    (hm : Memory.Within s.hw.lmemSize s.lmem) (h : exec i s = .next t) : Memory.Within s.hw.lmemSize t.lmem := by
  have ho := outputOperand_inside hd hr
  cases i
  case nop | halt | init | seta | adda | jmp | djnz | setg => cases hd
  case windump ra =>
    obtain rfl := exec_ready hr h (exec_windump ra s) rfl
    replace ho : 8 * s.aN = 0 ∨ (s.x ra).toNat + 8 * s.aN ≤ s.hw.lmemSize := ho
    exact hm.writeSamples hl (by rw [length_dumpedTables]; omega)
  case comp ra rb rc | pqnt ra rb rc =>
    obtain rfl := exec_ready hr h rfl rfl
    exact hm.quantizeElements _ _ hl ho
  case expd ra rb rc | pdeq ra rb rc =>
    obtain rfl := exec_ready hr h rfl rfl
    exact hm.expandElements _ _ hl ho
  case rfft ra rb =>
    obtain rfl := exec_ready hr h (exec_rfft ra rb s) rfl
    have hlen := length_flatMap_const (numRfft s.hw.num s.aN (s.readSamples (s.x ra) s.aN)) (fun z => [z.1, z.2]) 2 fun _ _ => rfl
    rw [length_numRfft] at hlen
    replace ho : 8 * (s.aN / 2 + 1) = 0 ∨ (s.x rb).toNat + 8 * (s.aN / 2 + 1) ≤ s.hw.lmemSize := ho
    exact hm.writeSamples hl (by rw [hlen]; omega)
  case irfft ra rb =>
    obtain rfl := exec_ready hr h (exec_irfft ra rb s) rfl
    exact hm.writeSamples hl (by rw [length_numIrfft]; exact ho)
  case fwd ra rb rc =>
    obtain rfl := exec_ready hr h (exec_fwd ra rb rc s) rfl
    simp only [dataDone, State.stickRow_eq, State.advance_lmem]
    have hlen := length_flatMap_const (pixelsOf (s.encodeFrame (s.x ra) (sampleLimit (s.x rb) s.aN) s.aN))
      (fun q => [q.1, q.2.1, q.2.2]) 3 fun _ _ => rfl
    rw [length_pixelsOf_encodeFrame, binCount] at hlen
    replace ho : 6 * (s.aN / 2 + 1) = 0 ∨ (s.x rc).toNat + 6 * (s.aN / 2 + 1) ≤ s.hw.lmemSize := ho
    exact hm.writeCodes hl (by rw [hlen]; omega)
  case inv ra rb pv nv =>
    obtain rfl := exec_ready hr h (exec_inv ra rb pv nv s) (invRows_append_eq_operandTable ra rb pv nv s)
    rw [outputOperand_inv] at ho
    exact hm.writeSamples hl (by rw [length_decodeBlock]; exact ho)

/-- A control command leaves the parameters and LMEM alone. -/
theorem exec_control_keeps_memory {i : Instr} {s t : State} (hd : isDataCommand i ≠ true) (h : exec i s = .next t) :
    t.hw = s.hw ∧ t.lmem = s.lmem := by
  cases i
  case init => rcases execInit_cases h with ⟨c, -, rfl⟩ | ⟨m, w, k, -, -, -, -, -, rfl⟩ <;> exact ⟨rfl, rfl⟩
  case djnz =>
    simp only [exec, execDjnz] at h
    split at h <;> (injection h with h; subst h; exact ⟨rfl, rfl⟩)
  case nop | halt | seta | adda | jmp | setg => injection h with h; subst h; exact ⟨rfl, rfl⟩
  all_goals exact absurd rfl hd

/-- Every command keeps the parameters, and LMEM in its canonical form and inside LMEM_SIZE. -/
theorem exec_within {i : Instr} {s t : State} (hl : s.hw.lmemSize < 2 ^ 32) (hm : Memory.Within s.hw.lmemSize s.lmem)
    (h : exec i s = .next t) : t.hw = s.hw ∧ Memory.Within s.hw.lmemSize t.lmem := by
  by_cases hd : isDataCommand i = true
  · rcases exec_data_cases hd h with ⟨-, rfl⟩ | ⟨-, c, a, -, rfl⟩ | ⟨hr, m, x, y, ht, -⟩
    · exact ⟨rfl, hm⟩
    · exact ⟨rfl, hm⟩
    · exact ⟨by rw [ht], exec_ready_within hd hr hl hm h⟩
  · obtain ⟨hw, he⟩ := exec_control_keeps_memory hd h
    exact ⟨hw, he ▸ hm⟩

/-! ### LMEM under every step -/

theorem lmemSize_of_legalParams {p : Config.Params} (h : Config.legalParams p = true) :
    p.lmemSize % 8 = 0 ∧ p.lmemSize ≤ 0x01000000 := by
  simp only [Config.legalParams, Bool.and_eq_true, decide_eq_true_eq] at h
  omega

namespace State.MemoryOk

variable {s t : State}

theorem congr (h : s.MemoryOk) (hw : t.hw = s.hw) (hm : t.lmem = s.lmem) (hr : t.race.raced = s.race.raced) : t.MemoryOk := by
  obtain ⟨h1, h2, h3, h4⟩ := h
  rw [← hw] at h1 h3 h4
  rw [← hm] at h2 h3
  rw [← hr] at h4
  exact ⟨h1, h2, h3, h4⟩

theorem within (h : s.MemoryOk) : Memory.Within s.hw.lmemSize s.lmem := ⟨h.canonical, h.inside⟩

theorem lmemSize_lt (h : s.MemoryOk) : s.hw.lmemSize < 2 ^ 32 := by
  have := lmemSize_of_legalParams h.params
  omega

theorem endRun (h : s.MemoryOk) : s.endRun.MemoryOk :=
  ⟨h.params, State.wf_endRun h.canonical, State.below_endRun h.raced h.inside, nofun⟩

theorem exec {i : Instr} (h : s.MemoryOk) (he : Machine.exec i s = .next t) : t.MemoryOk := by
  obtain ⟨hw, hm⟩ := exec_within h.lmemSize_lt h.within he
  obtain ⟨hr, -⟩ := exec_keeps_races he
  rw [← hw] at hm
  exact ⟨hw ▸ h.params, hm.canonical, hm.inside, by rw [hr, hw]; exact h.raced⟩

/-- What follows a command for the races stays inside LMEM, since the command wrote inside it (R98). -/
theorem follow {i : Instr} (h : s.MemoryOk) (he : Machine.exec i s = .next t) : (s.follow i t).MemoryOk := by
  have ht := h.exec he
  rcases State.follow_cases s i t with ⟨hb, hf⟩ | ⟨-, hf⟩ <;> rw [hf]
  · obtain ⟨hw, -⟩ := exec_within h.lmemSize_lt h.within he
    refine ⟨ht.params, ht.canonical, ht.inside, ?_⟩
    show ∀ p ∈ (s.raceAfter i).raced, p.base + p.len ≤ t.hw.lmemSize
    rw [hw]
    exact raceAfter_inside h.lmemSize_lt (ready_of_exec_busy he hb) h.raced
  · exact ht.endRun

theorem engineStep (h : s.MemoryOk) (he : Machine.engineStep s = .next t) : t.MemoryOk := by
  rcases engineStep_faults_or_executes he with ⟨c, a, w, -, rfl⟩ | ⟨i, u, hu, rfl⟩
  · exact (h.congr (t := s.raise c a w) rfl rfl rfl).endRun
  · exact h.follow hu

theorem softReset (h : s.MemoryOk) : s.softReset.MemoryOk := h.endRun.congr rfl rfl rfl

theorem hardwareReset (h : s.MemoryOk) : s.hardwareReset.MemoryOk := ⟨h.params, rfl, rfl, nofun⟩

theorem writeRegister (h : s.MemoryOk) (off : Nat) (v : Word) : (s.writeRegister off v).MemoryOk := by
  rcases State.writeRegister_cases s off v with ⟨-, -, e⟩ | e | e | e | ⟨-, e⟩ | ⟨-, p, c, c0, c1, g, r, -, e⟩ | e <;> rw [e]
  · exact h.softReset
  · unfold State.start
    split <;> exact h.congr rfl rfl rfl
  all_goals exact h.congr rfl rfl rfl

theorem hostReadMemory (h : s.MemoryOk) (a n : Nat) : (s.hostReadMemory a n).MemoryOk := by
  unfold State.hostReadMemory
  split
  · dsimp only
    split <;> exact h.congr rfl rfl rfl
  · exact h.congr rfl rfl rfl

theorem hostWriteMemory (h : s.MemoryOk) {a n : Nat} (v : Word) (ha : a < s.hw.lmemSize → a + n ≤ s.hw.lmemSize) :
    (s.hostWriteMemory a n v).MemoryOk := by
  unfold State.hostWriteMemory
  split
  · rename_i hlt
    have hn := ha hlt
    split
    · exact ⟨h.params, wf_redrawSpan _ _ h.canonical, below_redrawSpan _ _ hn h.inside, List.forall_mem_cons.2 ⟨hn, h.raced⟩⟩
    · have hm := h.within.memWrite (v := v.toNat) hn
      exact ⟨h.params, hm.canonical, hm.inside, h.raced⟩
  · exact h

/-- An aligned access that begins inside LMEM ends inside it, since LMEM_SIZE is a multiple of 8 (R8, R84). -/
theorem access_end_le (h : s.MemoryOk) {off width : Nat} (hk : memoryAccessOk off width = true) (ho : Config.lmemHBase ≤ off)
    (hlt : off - Config.lmemHBase < s.hw.lmemSize) : off - Config.lmemHBase + width / 8 ≤ s.hw.lmemSize := by
  have hs := lmemSize_of_legalParams h.params
  simp only [Config.lmemHBase] at ho hlt ⊢
  obtain ⟨rfl | rfl | rfl, hk⟩ := (memoryAccessOk_iff off width).1 hk <;> omega

theorem hostAccess {a : HostAccess} (h : s.MemoryOk) (ha : Machine.hostAccess a s = .next t) : t.MemoryOk := by
  rcases hostAccess_cases ha with ⟨off, rfl⟩ | ⟨off, v, -, rfl⟩ | ⟨off, width, -, -, rfl⟩ | ⟨off, width, v, hk, ho, rfl⟩
  · exact h.congr rfl rfl rfl
  · exact h.writeRegister _ _
  · exact h.hostReadMemory _ _
  · exact h.hostWriteMemory v (h.access_end_le hk ho)

end State.MemoryOk

/-- Settles O47, by whose turn it is: a command writes inside its checked output operand, and a host write is aligned. -/
theorem stepKeepsMemory : Obligations.StepKeepsMemory := fun _ _ =>
  step_keeps (fun _ _ h => h.congr rfl rfl rfl) (fun _ _ h _ => h.engineStep) (fun _ _ _ h => h.hostAccess) fun _ h => h.hardwareReset

/-! ### The run flags under every step -/

namespace State.RunFlags

variable {s t : State}

theorem congr (h : s.RunFlags) (hr : SameRun s t) (hc : t.errCause = s.errCause) (hn : s.race = noRaces → t.race = noRaces) :
    t.RunFlags := by
  obtain ⟨h1, h2, h3, h4⟩ := h
  rw [← hr.busy] at h1 h4
  rw [← hr.done] at h1 h2
  rw [← hr.err] at h1 h2 h3
  exact ⟨h1, h2, hc ▸ h3, fun hb => hn (h4 hb)⟩

/-- A run that has ended with DONE or with a cause. -/
theorem endRun (hb : s.status.busy = false) (hd : s.status.done = true → s.status.err = false)
    (hc : s.status.err = true → s.errCause ≠ .none) : s.endRun.RunFlags :=
  ⟨fun h => absurd (hb.symm.trans h) nofun, hd, hc, fun _ => rfl⟩

/-- A fault entry of a run without DONE. -/
theorem endRun_raise {c : Cause} (a : Word) (w : Command) (hc : c ≠ .none) (hd : s.status.done = false) :
    (s.raise c a w).endRun.RunFlags :=
  endRun rfl (fun h => absurd (hd.symm.trans h) nofun) fun _ => hc

theorem engineStep (h : s.RunFlags) (hb : s.status.busy = true) (he : Machine.engineStep s = .next t) : t.RunFlags := by
  obtain ⟨hd, hr⟩ := h.busy hb
  rcases engineStep_faults_or_executes he with ⟨c, a, w, hc, rfl⟩ | ⟨i, u, hu, rfl⟩
  · exact endRun_raise a w hc hd
  have ended : u.status.busy = false → s.follow i u = u.endRun := fun hub => if_neg (by simp [hub])
  rcases exec_run_cases hu with hs | ⟨hub, -, hue⟩ | ⟨v, c, a, hc, hv, rfl⟩
  · have hf : s.follow i u = { u with race := s.raceAfter i } := if_pos (hs.busy.trans hb)
    rw [hf]
    have hue : u.status.err = false := hs.err.trans hr
    exact ⟨fun _ => ⟨hs.done.trans hd, hue⟩, fun _ => hue, fun h => absurd (hue.symm.trans h) nofun,
      fun h => absurd ((hs.busy.trans hb).symm.trans h) nofun⟩
  · rw [ended hub]
    exact endRun hub (fun _ => hue.trans hr) fun h => absurd ((hue.trans hr).symm.trans h) nofun
  · rw [ended rfl]
    exact endRun_raise a _ hc (hv.trans hd)

theorem softReset (s : State) : s.softReset.RunFlags := ⟨nofun, nofun, nofun, fun _ => rfl⟩

theorem hardwareReset (s : State) : s.hardwareReset.RunFlags := ⟨nofun, nofun, nofun, fun _ => rfl⟩

theorem start (h : s.RunFlags) : s.start.RunFlags := by
  unfold State.start
  split
  · exact h.congr ⟨rfl, rfl, rfl⟩ rfl id
  · exact ⟨fun _ => ⟨rfl, rfl⟩, nofun, nofun, nofun⟩

/-- Clearing STATUS bits clears DONE and ERR at most. -/
theorem clearWritten (h : s.RunFlags) (v : Word) : State.RunFlags { s with status := Machine.clearWritten s.status v } := by
  obtain ⟨h1, h2, h3, h4⟩ := h
  refine ⟨fun hb => ?_, fun hd => ?_, fun he => h3 (Bool.and_elim_left he), h4⟩
  · obtain ⟨hd, he⟩ := h1 hb
    exact ⟨by simp [Machine.clearWritten, hd], by simp [Machine.clearWritten, he]⟩
  · simp [Machine.clearWritten, h2 (Bool.and_elim_left hd)]

theorem writeRegister (h : s.RunFlags) (off : Nat) (v : Word) : (s.writeRegister off v).RunFlags := by
  rcases State.writeRegister_cases s off v with ⟨-, -, e⟩ | e | e | e | ⟨-, e⟩ | ⟨-, p, c, c0, c1, g, r, -, e⟩ | e <;> rw [e]
  · exact softReset s
  · exact start (h.congr ⟨rfl, rfl, rfl⟩ rfl id)
  · exact h.congr ⟨rfl, rfl, rfl⟩ rfl id
  · exact h.clearWritten v
  all_goals exact h.congr ⟨rfl, rfl, rfl⟩ rfl id

/-- A host read leaves an empty record of races empty. -/
theorem lastRead_noRaces {r : RaceLog} (h : r = noRaces) : { r with lastRead := false } = noRaces := by
  rw [h]
  rfl

theorem hostReadMemory (h : s.RunFlags) (a n : Nat) : (s.hostReadMemory a n).RunFlags := by
  unfold State.hostReadMemory
  split
  · dsimp only
    split
    · rename_i hb
      exact ⟨h.busy, h.ended, h.cause, fun hi => absurd (hb.symm.trans hi) nofun⟩
    · exact h.congr ⟨rfl, rfl, rfl⟩ rfl lastRead_noRaces
  · exact h.congr ⟨rfl, rfl, rfl⟩ rfl lastRead_noRaces

theorem hostWriteMemory (h : s.RunFlags) (a n : Nat) (v : Word) : (s.hostWriteMemory a n v).RunFlags := by
  unfold State.hostWriteMemory
  split
  · split
    · rename_i hb
      exact ⟨h.busy, h.ended, h.cause, fun hi => absurd (hb.symm.trans hi) nofun⟩
    · exact h.congr ⟨rfl, rfl, rfl⟩ rfl id
  · exact h

theorem hostAccess {a : HostAccess} (h : s.RunFlags) (ha : Machine.hostAccess a s = .next t) : t.RunFlags := by
  rcases hostAccess_cases ha with ⟨off, rfl⟩ | ⟨off, v, -, rfl⟩ | ⟨off, width, -, -, rfl⟩ | ⟨off, width, v, -, -, rfl⟩
  · exact h.congr ⟨rfl, rfl, rfl⟩ rfl lastRead_noRaces
  · exact h.writeRegister _ _
  · exact h.hostReadMemory _ _
  · exact h.hostWriteMemory _ _ _

end State.RunFlags

/-- Settles O49, by whose turn it is: a run is entered by START alone and left by HALT, a fault or a reset, each of which sets the flags. -/
theorem stepKeepsRunFlags : Obligations.StepKeepsRunFlags := fun _ _ =>
  step_keeps (fun _ _ h => h.congr ⟨rfl, rfl, rfl⟩ rfl id) (fun _ _ h hb => h.engineStep hb) (fun _ _ _ h => h.hostAccess)
    fun s _ => State.RunFlags.hardwareReset s

end Sys2Proof.Machine
end

section
/-! NaNs and special values (spec/00_scope.md R12, R13, R17): every operation gives canonical results and sees all NaN operands alike. -/

namespace Sys2Proof.Machine

open Config (NumChoice)

/-! ### The canonical NaN -/

theorem canon_of_isNaN {v : F32} (h : isNaN v = true) : canon v = nan32 := if_pos h

theorem canon_of_not_isNaN {v : F32} (h : isNaN v = false) : canon v = v := if_neg (by simp [h])

@[simp] theorem canon_nan32 : canon nan32 = nan32 := rfl

@[simp] theorem canon_zero32 : canon zero32 = zero32 := rfl

@[simp] theorem isNaN_canon (v : F32) : isNaN (canon v) = isNaN v := by
  cases h : isNaN v
  · rw [canon_of_not_isNaN h, h]
  · rw [canon_of_isNaN h]
    rfl

@[simp] theorem isFinite_canon (v : F32) : isFinite (canon v) = isFinite v := by
  cases h : isNaN v
  · rw [canon_of_not_isNaN h]
  · rw [canon_of_isNaN h, (isFinite_eq_false_iff v).2 (.inl h)]
    rfl

@[simp] theorem canon_canon (v : F32) : canon (canon v) = canon v := by
  cases h : isNaN v
  · rw [canon_of_not_isNaN (by simpa using h)]
  · rw [canon_of_isNaN h, canon_nan32]

theorem not_isNaN_of_isInf {v : F32} (h : isInf v = true) : isNaN v = false := by
  simp only [isInf, isNaN, decide_eq_true_eq, decide_eq_false_iff_not] at *
  omega

theorem not_isNaN_of_isFinite {v : F32} (h : isFinite v = true) : isNaN v = false := by
  simp only [isFinite, isNaN, decide_eq_true_eq, decide_eq_false_iff_not] at *
  omega

theorem not_isNaN_of_isZero {v : F32} (h : isZero v = true) : isNaN v = false := by
  simp only [isZero, isNaN, decide_eq_true_eq, decide_eq_false_iff_not] at *
  omega

/-- An operation with one answer to every NaN sees the canonical NaN where it sees any. -/
theorem apply_canon {α : Type} {f : F32 → α} {v : α} (h : ∀ a, isNaN a = true → f a = v) (a : F32) : f (canon a) = f a := by
  cases ha : isNaN a
  · rw [canon_of_not_isNaN ha]
  · rw [h a ha, h (canon a) (by simpa using ha)]

theorem apply_canon₂ {α : Type} {f : F32 → F32 → α} {v : α} (h : ∀ a b, isNaN a = true ∨ isNaN b = true → f a b = v) (a b : F32) :
    f (canon a) (canon b) = f a b := by
  by_cases hab : isNaN a = true ∨ isNaN b = true
  · rw [h a b hab, h (canon a) (canon b) (by simpa using hab)]
  · rw [not_or, Bool.not_eq_true, Bool.not_eq_true] at hab
    rw [canon_of_not_isNaN hab.1, canon_of_not_isNaN hab.2]

/-! ### Rounded results -/

theorem magBits_withSign (neg : Bool) {b : Nat} (h : b < 2 ^ 31) : magBits (withSign neg b) = b := by
  cases neg <;> simp [magBits, withSign] <;> omega

theorem canon_withSign (neg : Bool) {b : Nat} (h : b ≤ infBits) : canon (withSign neg b) = withSign neg b := by
  apply canon_of_not_isNaN
  rw [infBits] at h
  simp only [isNaN, magBits_withSign neg (show b < 2 ^ 31 by omega), infBits, decide_eq_false_iff_not]
  omega

theorem rneBits_le (p q : Nat) : rneBits p q ≤ infBits := by
  unfold rneBits
  split
  · exact Nat.zero_le _
  · exact Nat.min_le_right _ _

@[simp] theorem canon_rne (neg : Bool) (p q : Nat) : canon (rne neg p q) = rne neg p q := canon_withSign neg (rneBits_le p q)

@[simp] theorem canon_rneInt (v : Int) (s : Nat) : canon (rneInt v s) = rneInt v s := canon_rne _ _ _

@[simp] theorem canon_rneScaled (v s : Int) : canon (rneScaled v s) = rneScaled v s := canon_rneInt _ _

@[simp] theorem canon_signedInf (neg : Bool) : canon (withSign neg infBits) = withSign neg infBits := canon_withSign neg le_rfl

@[simp] theorem canon_signedZero (neg : Bool) : canon (withSign neg 0) = withSign neg 0 := canon_withSign neg (Nat.zero_le _)

theorem midpointSearch_le (above : Nat → Bool) {k r : Nat} (h : r ≤ infBits) : midpointSearch above k r ≤ infBits := by
  induction k generalizing r with
  | zero => exact h
  | succ k ih =>
    apply ih
    split
    · rename_i hk
      simp only [Bool.and_eq_true, decide_eq_true_eq] at hk
      exact hk.1
    · exact h

@[simp] theorem canon_roundByMidpoints (neg : Bool) (above : Nat → Bool) :
    canon (roundByMidpoints neg above) = roundByMidpoints neg above :=
  canon_withSign neg (midpointSearch_le above (Nat.zero_le _))

/-! ### The operations of R12 -/

theorem magBits_eq_toNat_setWidth (x : F32) : magBits x = (x.setWidth 31).toNat := by simp [magBits]

@[simp] theorem isNaN_flipSign (x : F32) : isNaN (x ^^^ 0x80000000#32) = isNaN x := by
  rw [isNaN, isNaN, magBits_eq_toNat_setWidth, BitVec.setWidth_xor, show (0x80000000#32).setWidth 31 = 0#31 from rfl, BitVec.xor_zero,
    ← magBits_eq_toNat_setWidth]

@[simp] theorem isNaN_clearSign (x : F32) : isNaN (x &&& 0x7FFFFFFF#32) = isNaN x := by
  rw [isNaN, isNaN, magBits_eq_toNat_setWidth, BitVec.setWidth_and, show (0x7FFFFFFF#32).setWidth 31 = BitVec.allOnes 31 from rfl,
    BitVec.and_allOnes, ← magBits_eq_toNat_setWidth]

theorem fneg_of_isNaN {a : F32} (h : isNaN a = true) : fneg a = nan32 := if_pos h

theorem fabs_of_isNaN {a : F32} (h : isNaN a = true) : fabs a = nan32 := if_pos h

theorem fsqrt_of_isNaN {a : F32} (h : isNaN a = true) : fsqrt a = nan32 := if_pos h

theorem fadd_of_isNaN (a b : F32) (h : isNaN a = true ∨ isNaN b = true) : fadd a b = nan32 := if_pos (by simpa using h)

theorem fmul_of_isNaN (a b : F32) (h : isNaN a = true ∨ isNaN b = true) : fmul a b = nan32 := if_pos (by simpa using h)

theorem fdiv_of_isNaN (a b : F32) (h : isNaN a = true ∨ isNaN b = true) : fdiv a b = nan32 := if_pos (by simpa using h)

theorem fsub_of_isNaN (a b : F32) (h : isNaN a = true ∨ isNaN b = true) : fsub a b = nan32 :=
  fadd_of_isNaN a (fneg b) (h.imp_right fun hb => by rw [fneg_of_isNaN hb]; rfl)

theorem flt_of_isNaN (a b : F32) (h : isNaN a = true ∨ isNaN b = true) : flt a b = false := by
  rcases h with h | h <;> simp [flt, h]

theorem fle_of_isNaN (a b : F32) (h : isNaN a = true ∨ isNaN b = true) : fle a b = false := by
  rcases h with h | h <;> simp [fle, h]

theorem feq_of_isNaN (a b : F32) (h : isNaN a = true ∨ isNaN b = true) : feq a b = false := by
  rcases h with h | h <;> simp [feq, h]

theorem quantize_of_isNaN (a : F32) (h : isNaN a = true) : quantize a = ⟨0, true, false⟩ := if_pos h

@[simp] theorem canon_fneg (a : F32) : canon (fneg a) = fneg a := by
  unfold fneg
  split
  · rfl
  · rename_i h
    exact canon_of_not_isNaN (by simpa using h)

@[simp] theorem canon_fabs (a : F32) : canon (fabs a) = fabs a := by
  unfold fabs
  split
  · rfl
  · rename_i h
    exact canon_of_not_isNaN (by simpa using h)

@[simp] theorem canon_fadd (a b : F32) : canon (fadd a b) = fadd a b := by
  unfold fadd
  split
  · rfl
  split
  · rename_i ha
    split
    · rfl
    · exact canon_of_not_isNaN (not_isNaN_of_isInf ha)
  split
  · exact canon_of_not_isNaN (not_isNaN_of_isInf ‹_›)
  split
  · exact canon_signedZero _
  · exact canon_rneInt _ _

@[simp] theorem canon_fmul (a b : F32) : canon (fmul a b) = fmul a b := by
  unfold fmul
  split
  · rfl
  split
  · split
    · rfl
    · exact canon_signedInf _
  · exact canon_rne _ _ _

@[simp] theorem canon_fdiv (a b : F32) : canon (fdiv a b) = fdiv a b := by
  unfold fdiv
  split
  · rfl
  split
  · split
    · rfl
    · exact canon_signedInf _
  split
  · exact canon_signedZero _
  split
  · split
    · rfl
    · exact canon_signedInf _
  · exact canon_rne _ _ _

@[simp] theorem canon_fsqrt (a : F32) : canon (fsqrt a) = fsqrt a := by
  unfold fsqrt
  split
  · rfl
  split
  · exact canon_of_not_isNaN (not_isNaN_of_isZero ‹_›)
  split
  · rfl
  split
  · exact canon_of_not_isNaN (not_isNaN_of_isInf ‹_›)
  · exact canon_rne _ _ _

/-! ### ln, pow and cos2pi -/

theorem numLn_of_isNaN (num : NumChoice) (a : F32) (h : isNaN a = true) : numLn num a = nan32 := if_pos h

@[simp] theorem canon_numLn (num : NumChoice) (a : F32) : canon (numLn num a) = numLn num a := by
  unfold numLn
  split
  · rfl
  split
  · exact canon_signedInf _
  split
  · rfl
  split
  · exact canon_of_not_isNaN (not_isNaN_of_isInf ‹_›)
  split
  · rfl
  cases num
  · exact canon_rneInt _ _
  · exact canon_canon _

theorem canon_of_powExact {b y v : F32} (h : powExact b y = some v) : canon v = v := by
  simp only [powExact] at h
  split at h
  · cases h
  · split at h
    · injection h with h
      rw [← h, canon_rneScaled]
    · split at h
      · injection h with h
        rw [← h, canon_rneScaled]
      · cases h

theorem canon_of_powSettle {p : Nat} {b y v : F32} (h : powSettle p b y = some v) : canon v = v := by
  simp only [powSettle] at h
  split at h
  · injection h with h
    rw [← h, canon_signedInf]
  · split at h
    · injection h with h
      rw [← h, canon_zero32]
    · split at h
      · injection h with h
        rw [← h, canon_rneScaled]
      · cases h

@[simp] theorem canon_powPositive (b y : F32) : canon (powPositive b y) = powPositive b y := by
  unfold powPositive
  split
  · exact canon_of_powExact ‹_›
  · split
    · obtain ⟨p, -, hp⟩ := List.exists_of_findSome?_eq_some ‹_›
      exact canon_of_powSettle hp
    · exact canon_roundByMidpoints _ _

@[simp] theorem canon_powRef (b y : F32) : canon (powRef b y) = powRef b y := by
  simp only [powRef]
  split
  · exact canon_canon _
  split
  · split
    · exact canon_canon _
    · exact canon_signedZero _
  split
  · exact canon_powPositive _ _
  split
  · split
    · exact canon_fneg _
    · exact canon_powPositive _ _
  · exact canon_canon _

@[simp] theorem canon_numPow (num : NumChoice) (b y : F32) : canon (numPow num b y) = numPow num b y := by
  unfold numPow
  split
  · rfl
  split
  · rfl
  split
  · exact canon_canon b
  cases num
  · exact canon_powRef b y
  · exact canon_canon _

theorem numPow_of_exponent_isNaN (num : NumChoice) (b y : F32) (h : isNaN y = true) : numPow num b y = nan32 := by
  have hz : isZero y = false := Bool.eq_false_of_not_eq_true fun hz => by simp [not_isNaN_of_isZero hz] at h
  simp [numPow, hz, h]

theorem powRef_of_base_isNaN (b y : F32) (h : isNaN b = true) : powRef b y = powRef nan32 y := by
  have hf : isFinite b = false := (isFinite_eq_false_iff b).2 (.inl h)
  have hn : isFinite nan32 = false := rfl
  simp [powRef, hf, hn, canon_of_isNaN h]

theorem numPow_of_base_isNaN (num : NumChoice) (b y : F32) (h : isNaN b = true) : numPow num b y = numPow num nan32 y := by
  cases num <;> simp only [numPow, canon_of_isNaN h, canon_nan32, powRef_of_base_isNaN b y h]

theorem numPow_canon (num : NumChoice) (b y : F32) : numPow num (canon b) (canon y) = numPow num b y := by
  rw [apply_canon (numPow_of_exponent_isNaN num (canon b)) y]
  exact apply_canon (f := fun b => numPow num b y) (fun b => numPow_of_base_isNaN num b y) b

theorem numCos2pi_of_not_isFinite {num : NumChoice} {m : Nat} {x : F32} (h : isFinite x = false) :
    numCos2pi num m x = canon (Config.siliconCos2pi m (canon x)) := by
  simp [numCos2pi, h]

/-- The cosine of a finite angle, by the fraction of the first quarter its angle folds to. -/
theorem numCos2pi_of_isFinite {num : NumChoice} {m : Nat} {x : F32} (h : isFinite x = true) :
    numCos2pi num m x =
      if (turnOf m x).2.1 = 0 then (if (turnOf m x).1 then negOne32 else one32)
      else if 4 * (turnOf m x).2.1 = (turnOf m x).2.2 then zero32
      else
        clampUnit
          (match num with
          | .reference => cos2piRef m x
          | .silicon => Config.siliconCos2pi m x) := by
  cases num <;> exact if_pos h

theorem numCos2pi_canon (num : NumChoice) (m : Nat) (x : F32) : numCos2pi num m (canon x) = numCos2pi num m x := by
  apply apply_canon (v := canon (Config.siliconCos2pi m nan32))
  intro a ha
  rw [numCos2pi_of_not_isFinite ((isFinite_eq_false_iff a).2 (.inl ha)), canon_of_isNaN ha]

/-- v is finite and in [-1, 1]. -/
structure InUnit (v : F32) : Prop where
  finite : isFinite v = true
  lower : fle negOne32 v = true
  upper : fle v one32 = true

theorem fle_iff (a b : F32) : fle a b = true ↔ isNaN a = false ∧ isNaN b = false ∧ orderKey a ≤ orderKey b := by
  simp [fle, and_assoc]

theorem flt_iff (a b : F32) : flt a b = true ↔ isNaN a = false ∧ isNaN b = false ∧ orderKey a < orderKey b := by
  simp [flt, and_assoc]

theorem inUnit_clampUnit (v : F32) : InUnit (clampUnit v) := by
  unfold clampUnit
  split
  · exact ⟨rfl, rfl, rfl⟩
  split
  · exact ⟨rfl, rfl, rfl⟩
  split
  · exact ⟨rfl, rfl, rfl⟩
  rename_i hn h1 h2
  rw [Bool.not_eq_true] at hn
  rw [flt_iff, not_and, not_and, Int.not_lt] at h1 h2
  have upper : orderKey v ≤ orderKey one32 := h1 rfl hn
  have lower : orderKey negOne32 ≤ orderKey v := h2 hn rfl
  refine ⟨?_, (fle_iff _ _).2 ⟨rfl, hn, lower⟩, (fle_iff _ _).2 ⟨hn, rfl, upper⟩⟩
  rw [show orderKey one32 = 0x3F800000 from rfl] at upper
  rw [show orderKey negOne32 = -0x3F800000 from rfl] at lower
  rw [isFinite, decide_eq_true_eq, infBits]
  unfold orderKey at upper lower
  split at upper <;> split at lower <;> omega

theorem inUnit_numCos2pi (num : NumChoice) (m : Nat) {x : F32} (h : isFinite x = true) : InUnit (numCos2pi num m x) := by
  rw [numCos2pi_of_isFinite h]
  split
  · split <;> exact ⟨rfl, rfl, rfl⟩
  split
  · exact ⟨rfl, rfl, rfl⟩
  · exact inUnit_clampUnit _

@[simp] theorem canon_numCos2pi (num : NumChoice) (m : Nat) (x : F32) : canon (numCos2pi num m x) = numCos2pi num m x := by
  cases h : isFinite x
  · rw [numCos2pi_of_not_isFinite h, canon_canon]
  · exact canon_of_not_isNaN (not_isNaN_of_isFinite (inUnit_numCos2pi num m h).finite)

/-! ### The transforms -/

theorem canon_of_sumSettle {p : Nat} {table c : List Int} {v : F32} (h : sumSettle p table c = some v) : canon v = v := by
  simp only [sumSettle, settle] at h
  split at h
  · injection h with h
    rw [← h, canon_rneInt]
  · split at h
    · injection h with h
      rw [← h, canon_rneInt]
    · cases h

@[simp] theorem canon_roundCosSum (n : Nat) (table : List Int) (terms : List (Int × Nat)) :
    canon (roundCosSum n table terms) = roundCosSum n table terms := by
  simp only [roundCosSum]
  split
  · exact canon_of_sumSettle ‹_›
  · split
    · obtain ⟨p, -, hp⟩ := List.exists_of_findSome?_eq_some ‹_›
      exact canon_of_sumSettle hp
    · exact canon_roundByMidpoints _ _

/-- Both components made canonical. -/
abbrev canonBin (z : Bin) : Bin := (canon z.1, canon z.2)

theorem canonBin_of_mem_bareBins {num : NumChoice} {n : Nat} {t : List F32} {z : Bin} (h : z ∈ bareBins num n t) : canonBin z = z := by
  unfold bareBins at h
  split at h
  · cases num
    · simp only [rfftRef, List.mem_map] at h
      obtain ⟨k, -, rfl⟩ := h
      simp
    · simp only [List.mem_map] at h
      obtain ⟨k, -, rfl⟩ := h
      simp
  · rw [List.eq_of_mem_replicate h]
    simp

theorem canonBin_realEdges (n k : Nat) (z : Bin) : canonBin (realEdges n k z) = realEdges n k (canonBin z) := by
  unfold realEdges
  split <;> simp

theorem canonBin_of_mem_numRfft {num : NumChoice} {n : Nat} {t : List F32} {z : Bin} (h : z ∈ numRfft num n t) : canonBin z = z := by
  obtain ⟨k, hk⟩ := List.mem_iff_getElem?.1 h
  rw [getElem?_numRfft, Option.map_eq_some_iff] at hk
  obtain ⟨b, hb, rfl⟩ := hk
  rw [canonBin_realEdges, canonBin_of_mem_bareBins (List.mem_of_getElem? hb)]

theorem canon_of_mem_numIrfft {num : NumChoice} {n : Nat} {y : List Bin} {v : F32} (h : v ∈ numIrfft num n y) : canon v = v := by
  simp only [numIrfft] at h
  split at h
  · cases num
    · simp only [irfftRef, List.mem_map] at h
      obtain ⟨i, -, rfl⟩ := h
      simp
    · simp only [List.mem_map] at h
      obtain ⟨i, -, rfl⟩ := h
      simp
  · rw [List.eq_of_mem_replicate h, canon_nan32]

@[simp] theorem transformable_map_canon (num : NumChoice) (t : List F32) : transformable num (t.map canon) = transformable num t := by
  cases num <;> simp [transformable, Function.comp_def]

/-- Nothing fit for a transform is a NaN. -/
theorem canon_of_mem_transformable {num : NumChoice} {t : List F32} (h : transformable num t = true) {v : F32} (hv : v ∈ t) :
    canon v = v := by
  apply canon_of_not_isNaN
  cases num <;> simp only [transformable, List.all_eq_true] at h
  · exact not_isNaN_of_isFinite (h v hv)
  · simpa using h v hv

theorem numRfft_map_canon (num : NumChoice) (n : Nat) (t : List F32) : numRfft num n (t.map canon) = numRfft num n t := by
  cases h : transformable num t
  · rw [numRfft_eq, numRfft_eq, bareBins_of_not_transformable n h, bareBins_of_not_transformable n (by simpa using h)]
  · have fixed : ∀ v ∈ t, canon v = id v := fun v hv => canon_of_mem_transformable h hv
    rw [List.map_congr_left fixed, List.map_id]

theorem usedBins_map_canonBin (n : Nat) (y : List Bin) : usedBins n (y.map canonBin) = (usedBins n y).map canonBin := by
  apply List.ext_getElem?
  intro k
  rw [getElem?_usedBins, List.getElem?_map, List.getElem?_map, getElem?_usedBins, Option.map_map, Option.map_map]
  congr 1
  funext z
  exact (canonBin_realEdges n k z).symm

theorem components_map_canonBin (u : List Bin) : components (u.map canonBin) = (components u).map canon := by
  simp [List.flatMap_map, List.map_flatMap]

theorem numIrfft_map_canonBin (num : NumChoice) (n : Nat) (y : List Bin) : numIrfft num n (y.map canonBin) = numIrfft num n y := by
  have hu := usedBins_map_canonBin n y
  cases h : transformable num (components (usedBins n y))
  · rw [numIrfft_of_not_transformable h,
      numIrfft_of_not_transformable (by rw [hu, components_map_canonBin, transformable_map_canon, h])]
  · have fixed : ∀ z ∈ usedBins n y, canonBin z = id z := fun z hz =>
      Prod.ext (canon_of_mem_transformable h (List.mem_flatMap.2 ⟨z, hz, by simp⟩))
        (canon_of_mem_transformable h (List.mem_flatMap.2 ⟨z, hz, by simp⟩))
    rw [List.map_congr_left fixed, List.map_id] at hu
    simp only [numIrfft, hu]

/-- Settles O39: each operation's results are canonical branch by branch, and each has one answer to every NaN operand. -/
theorem everyNaNIsCanonical : Obligations.EveryNaNIsCanonical := by
  refine ⟨fun a b => ?_, fun num m a b => ?_, fun num n t y => ?_, fun s a v hv => ?_⟩
  · exact ⟨canon_fadd a b, canon_fadd a (fneg b), canon_fmul a b, canon_fdiv a b, canon_fsqrt a, canon_fneg a, canon_fabs a,
      apply_canon₂ fadd_of_isNaN a b, apply_canon₂ fsub_of_isNaN a b, apply_canon₂ fmul_of_isNaN a b, apply_canon₂ fdiv_of_isNaN a b,
      apply_canon (fun _ => fsqrt_of_isNaN) a, apply_canon (fun _ => fneg_of_isNaN) a, apply_canon (fun _ => fabs_of_isNaN) a,
      apply_canon₂ flt_of_isNaN a b, apply_canon₂ fle_of_isNaN a b, apply_canon₂ feq_of_isNaN a b, apply_canon quantize_of_isNaN a⟩
  · exact ⟨canon_numLn num a, canon_numPow num a b, canon_numCos2pi num m a, apply_canon (numLn_of_isNaN num) a,
      numPow_canon num a b, numCos2pi_canon num m a⟩
  · exact ⟨fun z hz => Prod.ext_iff.1 (canonBin_of_mem_numRfft hz), fun v hv => canon_of_mem_numIrfft hv, numRfft_map_canon num n t,
      numIrfft_map_canonBin num n y⟩
  · rw [State.readF32_writeF32_same, canon_of_isNaN hv]
    rfl

/-! ### Special values -/

/-- A negative operand of the logarithm (R17). -/
theorem numLn_of_negative {num : NumChoice} {x : F32} (h : flt x 0 = true) : numLn num x = nan32 := by
  obtain ⟨hn, -, hk⟩ := (flt_iff x 0).1 h
  rw [show orderKey 0 = 0 from rfl, orderKey] at hk
  have hs : signBit x = true := by
    by_contra hs
    rw [if_neg hs] at hk
    omega
  have hz : isZero x = false := by
    rw [if_pos hs] at hk
    simp only [isZero, decide_eq_false_iff_not]
    omega
  simp [numLn, hn, hz, hs]

theorem units_eq_or (x : F32) : units x = magUnits x ∨ units x = -(magUnits x : Int) := by
  unfold units
  split
  · exact .inr rfl
  · exact .inl rfl

/-- An angle counts by the fraction of its last turn. -/
theorem turnOf_of_mod {m : Nat} {x : F32} {r : Nat} (h : m * magUnits x % 2 ^ 149 = r) : turnOf m x = foldTurn r (2 ^ 149) := by
  subst h
  simp only [turnOf, foldTurn, Nat.mod_mod]

/-- The turn m·x makes and the one m·|x| makes are equal, or add up to a whole turn. -/
theorem turn_cases (m : Nat) (x : F32) {r : Nat} (h : (m : Int) * units x % 2 ^ 149 = r) :
    m * magUnits x % 2 ^ 149 = r ∨ (m * magUnits x % 2 ^ 149 + r) % 2 ^ 149 = 0 := by
  rcases units_eq_or x with e | e <;> rw [e] at h
  · left
    exact_mod_cast h
  · right
    rw [mul_neg, ← Nat.cast_mul] at h
    omega

theorem numCos2pi_wholeTurn (num : NumChoice) {m : Nat} {x : F32} (hx : isFinite x = true) (h : (m : Int) * units x % 2 ^ 149 = 0) :
    numCos2pi num m x = one32 := by
  have hr : m * magUnits x % 2 ^ 149 = 0 := by
    have := turn_cases m x (r := 0) (by exact_mod_cast h)
    omega
  rw [numCos2pi_of_isFinite hx, turnOf_of_mod hr]
  rfl

theorem numCos2pi_halfTurn (num : NumChoice) {m : Nat} {x : F32} (hx : isFinite x = true)
    (h : (m : Int) * units x % 2 ^ 149 = 2 ^ 148) : numCos2pi num m x = negOne32 := by
  have hr : m * magUnits x % 2 ^ 149 = 2 ^ 148 := by
    have := turn_cases m x (r := 2 ^ 148) (by exact_mod_cast h)
    omega
  rw [numCos2pi_of_isFinite hx, turnOf_of_mod hr]
  rfl

theorem numCos2pi_quarterTurn (num : NumChoice) {m : Nat} {x : F32} (hx : isFinite x = true)
    (h : (m : Int) * units x % 2 ^ 149 = 2 ^ 147 ∨ (m : Int) * units x % 2 ^ 149 = 3 * 2 ^ 147) : numCos2pi num m x = zero32 := by
  have hr : m * magUnits x % 2 ^ 149 = 2 ^ 147 ∨ m * magUnits x % 2 ^ 149 = 3 * 2 ^ 147 := by
    rcases h with h | h
    · have := turn_cases m x (r := 2 ^ 147) (by exact_mod_cast h)
      omega
    · have := turn_cases m x (r := 3 * 2 ^ 147) (by exact_mod_cast h)
      omega
  rw [numCos2pi_of_isFinite hx]
  rcases hr with hr | hr <;> rw [turnOf_of_mod hr] <;> rfl

/-- Settles O40. The laws of ln and pow at constants hold by the order of their cases; cos2pi by the turn its angle folds to. -/
theorem numMeetsSpecialValues : Obligations.NumMeetsSpecialValues := by
  intro num
  refine ⟨rfl, rfl, rfl, fun x hx => hx.elim numLn_of_negative (numLn_of_isNaN num x), rfl, fun b => ⟨rfl, rfl, rfl⟩,
    numPow_of_exponent_isNaN num, fun m x _ _ hx => ?_, fun n t k z => numRfft_edge_im⟩
  obtain ⟨finite, lower, upper⟩ := inUnit_numCos2pi num m hx
  exact ⟨finite, lower, upper, numCos2pi_wholeTurn num hx, fun h => numCos2pi_quarterTurn num hx (.inl h), numCos2pi_halfTurn num hx,
    fun h => numCos2pi_quarterTurn num hx (.inr h)⟩

end Sys2Proof.Machine
end

section
/-! Rounding to nearest even (spec/00_scope.md R12): p/q is brought to a fraction N/D of a unit 2^k in which the binary32 magnitudes
nearby are the whole numbers, and `roundHalfEven` gives a nearest one. -/

namespace Sys2Proof.Machine

/-! ### Rounding to an integer -/

/-- |N/D - j|, in units of 1/D. -/
def gap (N D j : Nat) : Nat := ((N : Int) - ((j * D : Nat) : Int)).natAbs

theorem roundHalfEven_cases (N D : Nat) :
    (roundHalfEven N D = N / D ∧ 2 * (N % D) ≤ D ∧ (2 * (N % D) = D → N / D % 2 = 0)) ∨
      (roundHalfEven N D = N / D + 1 ∧ D ≤ 2 * (N % D) ∧ (2 * (N % D) = D → N / D % 2 = 1)) := by
  simp only [roundHalfEven]
  split
  · omega
  · split <;> omega

theorem le_roundHalfEven {N D m : Nat} (hD : 0 < D) (h : m * D ≤ N) : m ≤ roundHalfEven N D := by
  have hm : m ≤ N / D := (Nat.le_div_iff_mul_le hD).2 h
  rcases roundHalfEven_cases N D with ⟨h, -⟩ | ⟨h, -⟩ <;> omega

theorem roundHalfEven_le {N D m : Nat} (hD : 0 < D) (h : N ≤ m * D) : roundHalfEven N D ≤ m := by
  rcases roundHalfEven_cases N D with ⟨e, -⟩ | ⟨e, hr, -⟩ <;> rw [e]
  · exact Nat.div_le_of_le_mul (by rwa [Nat.mul_comm])
  · rw [Nat.succ_le_iff, Nat.div_lt_iff_lt_mul hD]
    refine lt_of_le_of_ne h fun heq => ?_
    rw [heq, Nat.mul_mod_left] at hr
    omega

/-- The result is an integer nearest to N/D, and even if another one is as near. -/
theorem roundHalfEven_nearest {N D : Nat} (hD : 0 < D) (j : Nat) :
    gap N D (roundHalfEven N D) ≤ gap N D j ∧
      (gap N D (roundHalfEven N D) = gap N D j → j ≠ roundHalfEven N D → roundHalfEven N D % 2 = 0) := by
  have hN : N = N / D * D + N % D := (Nat.div_add_mod' N D).symm
  have hr : N % D < D := Nat.mod_lt N hD
  have hj : j * D + D ≤ N / D * D ∨ j = N / D ∧ j * D = N / D * D ∨ j = N / D + 1 ∧ j * D = N / D * D + D ∨
      N / D * D + 2 * D ≤ j * D := by
    rw [← Nat.succ_mul, ← Nat.succ_mul, ← Nat.add_mul]
    rcases Nat.lt_or_ge j (N / D) with h | h
    · exact .inl (Nat.mul_le_mul_right D h)
    rcases Nat.lt_or_ge j (N / D + 2) with h' | h'
    · obtain rfl | rfl : j = N / D ∨ j = N / D + 1 := by omega
      · exact .inr (.inl ⟨rfl, rfl⟩)
      · exact .inr (.inr (.inl ⟨rfl, rfl⟩))
    · exact .inr (.inr (.inr (Nat.mul_le_mul_right D h')))
  have cases := roundHalfEven_cases N D
  generalize N / D = a at *
  generalize N % D = r at *
  subst hN
  simp only [gap]
  rcases cases with ⟨e, h2, heven⟩ | ⟨e, h2, hodd⟩ <;> rw [e]
  · omega
  · rw [Nat.succ_mul]
    omega

/-- An odd m and a half is where the result passes m, since the tie goes to the even m + 1. -/
theorem lt_roundHalfEven_iff_of_odd {N D m : Nat} (hD : 0 < D) (hm : m % 2 = 1) :
    m < roundHalfEven N D ↔ (2 * m + 1) * D ≤ 2 * N := by
  have hN : N = N / D * D + N % D := (Nat.div_add_mod' N D).symm
  have hr : N % D < D := Nat.mod_lt N hD
  have hq : (N / D + 1) * D ≤ m * D ∨ N / D = m ∨ (m + 1) * D ≤ N / D * D ∧ m < N / D := by
    rcases Nat.lt_trichotomy (N / D) m with h | h | h
    · exact .inl (Nat.mul_le_mul_right D h)
    · exact .inr (.inl h)
    · exact .inr (.inr ⟨Nat.mul_le_mul_right D h, h⟩)
  have below : (N / D + 1) * D ≤ m * D → N / D < m := fun h => Nat.le_of_mul_le_mul_right h hD
  have cases := roundHalfEven_cases N D
  generalize N / D = a at *
  generalize N % D = r at *
  subst hN
  simp only [Nat.add_mul, Nat.mul_assoc, Nat.one_mul] at hq below ⊢
  rcases hq with hq | rfl | hq <;> omega

/-! ### The binary32 magnitudes -/

theorem magUnits_ofNat {c : Nat} (h : c < 2 ^ 31) :
    magUnits (BitVec.ofNat 32 c) = if c / 2 ^ 23 = 0 then c % 2 ^ 23 else (2 ^ 23 + c % 2 ^ 23) * 2 ^ (c / 2 ^ 23 - 1) := by
  have hb : magBits (BitVec.ofNat 32 c) = c := by
    rw [magBits, BitVec.toNat_ofNat]
    omega
  simp only [magUnits, hb]

/-- The magnitude of n units of 2^k, as `rneBits` writes it: the carry from n = 2^24 goes into the exponent. -/
theorem magUnits_grid {k n : Nat} (hn : n ≤ 2 ^ 24) (hk : k = 0 ∨ 2 ^ 23 ≤ n) (hc : k * 2 ^ 23 + n < 2 ^ 31) :
    magUnits (BitVec.ofNat 32 (k * 2 ^ 23 + n)) = n * 2 ^ k := by
  rw [magUnits_ofNat hc]
  rcases Nat.lt_or_ge n (2 ^ 23) with h | h
  · obtain rfl : k = 0 := by omega
    rw [if_pos (by omega), Nat.pow_zero]
    omega
  rw [if_neg (by omega)]
  rcases Nat.lt_or_ge n (2 ^ 24) with h' | h'
  · rw [show (k * 2 ^ 23 + n) / 2 ^ 23 - 1 = k by omega, show 2 ^ 23 + (k * 2 ^ 23 + n) % 2 ^ 23 = n by omega]
  · rw [show (k * 2 ^ 23 + n) / 2 ^ 23 - 1 = k + 1 by omega, show 2 ^ 23 + (k * 2 ^ 23 + n) % 2 ^ 23 = 2 ^ 23 by omega,
      show n = 2 ^ 24 by omega]
    ring

/-- Every magnitude is some number below 2^24 of units of a power of two, the least unit where it has fewer than 24 bits. -/
theorem exists_grid_of_magnitude (c : Nat) : ∃ k n, c = k * 2 ^ 23 + n ∧ n < 2 ^ 24 ∧ (k = 0 ∨ 2 ^ 23 ≤ n) :=
  ⟨c / 2 ^ 23 - 1, c - (c / 2 ^ 23 - 1) * 2 ^ 23, by omega, by omega, by omega⟩

theorem magUnits_ofNat_lt_succ {c : Nat} (h : c + 1 < 2 ^ 31) :
    magUnits (BitVec.ofNat 32 c) < magUnits (BitVec.ofNat 32 (c + 1)) := by
  obtain ⟨k, n, rfl, hn, hk⟩ := exists_grid_of_magnitude c
  rw [Nat.add_assoc] at h ⊢
  rw [magUnits_grid (by omega) hk (by omega), magUnits_grid (by omega) (by omega) h]
  exact Nat.mul_lt_mul_of_pos_right (Nat.lt_succ_self n) (Nat.two_pow_pos k)

theorem magUnits_ofNat_strictMono {c d : Nat} (h : c < d) (hd : d < 2 ^ 31) :
    magUnits (BitVec.ofNat 32 c) < magUnits (BitVec.ofNat 32 d) := by
  induction d, h using Nat.le_induction with
  | base => exact magUnits_ofNat_lt_succ hd
  | succ d hcd ih => exact (ih (by omega)).trans (magUnits_ofNat_lt_succ hd)

theorem magUnits_ofNat_injective {c d : Nat} (hc : c < 2 ^ 31) (hd : d < 2 ^ 31)
    (h : magUnits (BitVec.ofNat 32 c) = magUnits (BitVec.ofNat 32 d)) : c = d := by
  rcases Nat.lt_trichotomy c d with hlt | heq | hlt
  · exact absurd h (magUnits_ofNat_strictMono hlt hd).ne
  · exact heq
  · exact absurd h (magUnits_ofNat_strictMono hlt hc).ne'

/-- Seen in units of 2^k, a magnitude is a whole number or has fewer than 24 bits. -/
theorem magUnits_whole_or_small {c : Nat} (hc : c < 2 ^ 31) (k : Nat) :
    (∃ j, magUnits (BitVec.ofNat 32 c) = j * 2 ^ k) ∨ (k ≠ 0 ∧ magUnits (BitVec.ofNat 32 c) < 2 ^ 23 * 2 ^ k) := by
  obtain ⟨l, n, rfl, hn, hl⟩ := exists_grid_of_magnitude c
  rw [magUnits_grid hn.le hl hc]
  rcases Nat.lt_or_ge l k with h | h
  · refine .inr ⟨by omega, ?_⟩
    calc n * 2 ^ l < 2 ^ 24 * 2 ^ l := Nat.mul_lt_mul_of_pos_right hn (Nat.two_pow_pos l)
      _ = 2 ^ 23 * 2 ^ (l + 1) := by ring
      _ ≤ 2 ^ 23 * 2 ^ k := Nat.mul_le_mul_left _ (Nat.pow_le_pow_right (by norm_num) h)
  · refine .inl ⟨n * 2 ^ (l - k), ?_⟩
    rw [Nat.mul_assoc, ← Nat.pow_add, Nat.sub_add_cancel h]

/-! ### The unit in the last place -/

/-- Natural powers on both sides are one power with an integer exponent. -/
theorem mul_two_pow_le_iff (a b : Nat) (u : Int) : b * 2 ^ u.toNat ≤ a * 2 ^ (-u).toNat ↔ (b : ℚ) * 2 ^ u ≤ a := by
  obtain ⟨n, rfl | rfl⟩ := u.eq_nat_or_neg
  · simp only [Int.toNat_natCast, Int.toNat_neg_natCast, Nat.pow_zero, Nat.mul_one, zpow_natCast]
    exact_mod_cast Iff.rfl
  · simp only [neg_neg, Int.toNat_natCast, Int.toNat_neg_natCast, Nat.pow_zero, Nat.mul_one, zpow_neg, zpow_natCast]
    rw [← div_eq_mul_inv, div_le_iff₀ (by positivity)]
    exact_mod_cast Iff.rfl

theorem floorLog2_spec {p q : Nat} (hp : 0 < p) (hq : 0 < q) :
    (q : ℚ) * 2 ^ floorLog2 p q ≤ p ∧ (p : ℚ) < q * 2 ^ (floorLog2 p q + 1) := by
  have two_ne : (2 : ℚ) ≠ 0 := two_ne_zero
  have p_ge : (2 : ℚ) ^ (p.log2 : Int) ≤ p := by exact_mod_cast Nat.log2_self_le hp.ne'
  have p_lt : (p : ℚ) < 2 ^ ((p.log2 : Int) + 1) := by exact_mod_cast Nat.lt_log2_self (n := p)
  have q_ge : (2 : ℚ) ^ (q.log2 : Int) ≤ q := by exact_mod_cast Nat.log2_self_le hq.ne'
  have q_lt : (q : ℚ) < 2 ^ ((q.log2 : Int) + 1) := by exact_mod_cast Nat.lt_log2_self (n := q)
  have above : (p : ℚ) < q * 2 ^ ((p.log2 : Int) - q.log2 + 1) := by
    calc (p : ℚ) < 2 ^ ((p.log2 : Int) + 1) := p_lt
      _ = 2 ^ (q.log2 : Int) * 2 ^ ((p.log2 : Int) - q.log2 + 1) := by rw [← zpow_add₀ two_ne]; congr 1; ring
      _ ≤ q * 2 ^ ((p.log2 : Int) - q.log2 + 1) := by gcongr
  have below : (q : ℚ) * 2 ^ ((p.log2 : Int) - q.log2 - 1) ≤ p := by
    calc (q : ℚ) * 2 ^ ((p.log2 : Int) - q.log2 - 1) ≤ 2 ^ ((q.log2 : Int) + 1) * 2 ^ ((p.log2 : Int) - q.log2 - 1) := by gcongr
      _ = 2 ^ (p.log2 : Int) := by rw [← zpow_add₀ two_ne]; congr 1; ring
      _ ≤ p := p_ge
  simp only [floorLog2]
  split
  · rename_i h
    exact ⟨(mul_two_pow_le_iff p q _).1 h, above⟩
  · rename_i h
    rw [mul_two_pow_le_iff, not_le] at h
    exact ⟨below, by rwa [sub_add_cancel]⟩

/-- p/q is N/D units of 2^(k - 149), a number of 24 bits before the point, or of fewer if the unit is the least one. -/
structure OnGrid (p q k N D : Nat) : Prop where
  den_pos : 0 < D
  scale : ∃ g, 0 < g ∧ p * 2 ^ 149 = N * g ∧ q * 2 ^ k = D * g
  lt : N < 2 ^ 24 * D
  normal : k = 0 ∨ 2 ^ 23 * D ≤ N

theorem exists_onGrid {p q : Nat} (hp : 0 < p) (hq : 0 < q) :
    ∃ k N D, OnGrid p q k N D ∧ rneBits p q = min (k * 2 ^ 23 + roundHalfEven N D) infBits := by
  obtain ⟨lower, upper⟩ := floorLog2_spec hp hq
  obtain ⟨u, hu⟩ : ∃ u, u = max (floorLog2 p q - 23) (-149) := ⟨_, rfl⟩
  refine ⟨(u + 149).toNat, p * 2 ^ (-u).toNat, q * 2 ^ u.toNat, ⟨by positivity, ?_, ?_, ?_⟩, ?_⟩
  · rcases lt_or_ge u 0 with h | h
    · refine ⟨2 ^ (u + 149).toNat, by positivity, ?_, ?_⟩
      · rw [Nat.mul_assoc, ← Nat.pow_add, show (-u).toNat + (u + 149).toNat = 149 by omega]
      · rw [Int.toNat_of_nonpos h.le, Nat.pow_zero, Nat.mul_one]
    · refine ⟨2 ^ 149, by positivity, ?_, ?_⟩
      · rw [Int.toNat_of_nonpos (by omega : -u ≤ 0), Nat.pow_zero, Nat.mul_one]
      · rw [Nat.mul_assoc, ← Nat.pow_add, show (u + 149).toNat = u.toNat + 149 by omega]
  · rw [← Nat.mul_assoc, ← Nat.not_le, mul_two_pow_le_iff, not_le]
    push_cast
    calc (p : ℚ) < q * 2 ^ (floorLog2 p q + 1) := upper
      _ ≤ q * 2 ^ (u + 24) := mul_le_mul_of_nonneg_left (zpow_le_zpow_right₀ one_le_two (by omega)) (Nat.cast_nonneg q)
      _ = 2 ^ 24 * q * 2 ^ u := by rw [zpow_add₀ two_ne_zero]; norm_num; ring
  · rcases lt_or_ge (-149) u with h | h
    · right
      rw [← Nat.mul_assoc, mul_two_pow_le_iff]
      push_cast
      calc (2 : ℚ) ^ 23 * q * 2 ^ u = q * 2 ^ (u + 23) := by rw [zpow_add₀ two_ne_zero]; norm_num; ring
        _ = q * 2 ^ floorLog2 p q := by rw [show u + 23 = floorLog2 p q by omega]
        _ ≤ p := lower
    · left
      omega
  · simp only [rneBits, if_neg hp.ne', ← hu]

namespace OnGrid

variable {p q k N D : Nat}

theorem roundHalfEven_le (h : OnGrid p q k N D) : roundHalfEven N D ≤ 2 ^ 24 := Machine.roundHalfEven_le h.den_pos h.lt.le

theorem roundHalfEven_normal (h : OnGrid p q k N D) : k = 0 ∨ 2 ^ 23 ≤ roundHalfEven N D :=
  h.normal.imp_right (le_roundHalfEven h.den_pos)

/-- p/q reaches (2^25 - 1)·2^103, half a unit above the greatest finite value, said on the grid. -/
theorem overflow_iff (h : OnGrid p q k N D) : (2 ^ 25 - 1) * 2 ^ 103 * q ≤ p ↔ (2 ^ 25 - 1) * 2 ^ 252 * D ≤ N * 2 ^ k := by
  obtain ⟨g, hg, hp, hq⟩ := h.scale
  calc (2 ^ 25 - 1) * 2 ^ 103 * q ≤ p ↔ (2 ^ 25 - 1) * 2 ^ 103 * q * (2 ^ 149 * 2 ^ k) ≤ p * (2 ^ 149 * 2 ^ k) :=
        (Nat.mul_le_mul_right_iff (by positivity)).symm
    _ ↔ (2 ^ 25 - 1) * 2 ^ 252 * D * g ≤ N * 2 ^ k * g := by
        rw [show (2 ^ 25 - 1) * 2 ^ 103 * q * (2 ^ 149 * 2 ^ k) = (2 ^ 25 - 1) * 2 ^ 252 * (q * 2 ^ k) by ring,
          show p * (2 ^ 149 * 2 ^ k) = p * 2 ^ 149 * 2 ^ k by ring, hp, hq, ← Nat.mul_assoc, Nat.mul_right_comm N g]
    _ ↔ (2 ^ 25 - 1) * 2 ^ 252 * D ≤ N * 2 ^ k := Nat.mul_le_mul_right_iff hg

/-- The bits reach those of infinity exactly there: with a smaller unit the value is below, with a greater one above, and with the unit
of the greatest finite value the tie between its odd significand and the next goes up. -/
theorem infBits_le_iff (h : OnGrid p q k N D) :
    infBits ≤ k * 2 ^ 23 + roundHalfEven N D ↔ (2 ^ 25 - 1) * 2 ^ 252 * D ≤ N * 2 ^ k := by
  have hD := h.den_pos
  have hlt := h.lt
  have hn := h.roundHalfEven_le
  rw [infBits]
  rcases Nat.lt_trichotomy k 253 with hk | rfl | hk
  · have hp : N * 2 ^ k ≤ N * 2 ^ 252 := Nat.mul_le_mul_left N (Nat.pow_le_pow_right (by norm_num) (by omega))
    constructor <;> intro <;> omega
  · have hodd := lt_roundHalfEven_iff_of_odd (N := N) (m := 2 ^ 24 - 1) hD (by norm_num)
    omega
  · have hnormal : 2 ^ 23 * D ≤ N := h.normal.resolve_left (by omega)
    have hr := le_roundHalfEven hD hnormal
    have hp : N * 2 ^ 254 ≤ N * 2 ^ k := Nat.mul_le_mul_left N (Nat.pow_le_pow_right (by norm_num) hk)
    constructor <;> intro <;> omega

/-- The distance of p/q from a whole number of units of 2^k. -/
theorem gap_whole (h : OnGrid p q k N D) : ∃ g, 0 < g ∧ ∀ j, gap (p * 2 ^ 149) q (j * 2 ^ k) = gap N D j * g := by
  obtain ⟨g, hg, hp, hq⟩ := h.scale
  refine ⟨g, hg, fun j => ?_⟩
  rw [gap, gap, hp, Nat.mul_assoc, Nat.mul_comm (2 ^ k) q, hq, ← Nat.mul_assoc]
  push_cast
  rw [← sub_mul, Int.natAbs_mul, Int.natAbs_natCast]

/-- A value of 24 bits is nearer to 2^23 units than to anything below. -/
theorem gap_small (h : OnGrid p q k N D) (hq : 0 < q) (hk : k ≠ 0) {m : Nat} (hm : m < 2 ^ 23 * 2 ^ k) :
    gap (p * 2 ^ 149) q (2 ^ 23 * 2 ^ k) < gap (p * 2 ^ 149) q m := by
  have hle : 2 ^ 23 * 2 ^ k * q ≤ p * 2 ^ 149 := by
    obtain ⟨g, -, hp, hqk⟩ := h.scale
    rw [hp, Nat.mul_assoc, Nat.mul_comm (2 ^ k), hqk, ← Nat.mul_assoc]
    exact Nat.mul_le_mul_right g (h.normal.resolve_left hk)
  have hlt : m * q < 2 ^ 23 * 2 ^ k * q := Nat.mul_lt_mul_of_pos_right hm hq
  rw [gap, gap]
  omega

/-- Where the rounding is finite it is a nearest magnitude, the even one of two. -/
theorem nearest (h : OnGrid p q k N D) (hq : 0 < q) (hb : k * 2 ^ 23 + roundHalfEven N D < infBits) {c : Nat} (hc : c < infBits) :
    let b := k * 2 ^ 23 + roundHalfEven N D
    let err (c : Nat) : Nat := gap (p * 2 ^ 149) q (magUnits (BitVec.ofNat 32 c))
    err b ≤ err c ∧ (err b = err c → c ≠ b → b % 2 = 0) := by
  intro b err
  rw [infBits] at hb hc
  have hmag : magUnits (BitVec.ofNat 32 b) = roundHalfEven N D * 2 ^ k :=
    magUnits_grid h.roundHalfEven_le h.roundHalfEven_normal (by omega)
  obtain ⟨g, hg, hgap⟩ := h.gap_whole
  have hbest : err b = gap N D (roundHalfEven N D) * g := by rw [← hgap, ← hmag]
  rcases magUnits_whole_or_small (by omega : c < 2 ^ 31) k with ⟨j, hj⟩ | ⟨hk, hsmall⟩
  · obtain ⟨hle, heven⟩ := roundHalfEven_nearest (N := N) h.den_pos j
    have herr : err c = gap N D j * g := by rw [← hgap, ← hj]
    rw [hbest, herr]
    refine ⟨Nat.mul_le_mul_right g hle, fun heq hne => ?_⟩
    have hjn : j ≠ roundHalfEven N D := by
      rintro rfl
      exact hne (magUnits_ofNat_injective (by omega) (by omega) (hj.trans hmag.symm))
    have := heven (Nat.eq_of_mul_eq_mul_right hg heq) hjn
    omega
  · have hlt : err b < err c := by
      calc err b = gap N D (roundHalfEven N D) * g := hbest
        _ ≤ gap N D (2 ^ 23) * g := Nat.mul_le_mul_right g (roundHalfEven_nearest h.den_pos _).1
        _ = gap (p * 2 ^ 149) q (2 ^ 23 * 2 ^ k) := (hgap _).symm
        _ < err c := h.gap_small hq hk hsmall
    exact ⟨hlt.le, fun heq => absurd heq hlt.ne⟩

end OnGrid

/-- Settles O38, on the grid of the magnitudes near p/q; 0 is its own rounding. -/
theorem roundToNearestEven : Obligations.RoundToNearestEven := by
  intro p q hq
  rcases Nat.eq_zero_or_pos p with rfl | hp
  · rw [show rneBits 0 q = 0 from rfl]
    refine ⟨Nat.zero_le _, ⟨nofun, fun h => ?_⟩, fun _ c _ => ⟨?_, fun _ _ => rfl⟩⟩
    · omega
    · show gap (0 * 2 ^ 149) q (magUnits (BitVec.ofNat 32 0)) ≤ _
      rw [show magUnits (BitVec.ofNat 32 0) = 0 from rfl, gap, Nat.zero_mul, Nat.zero_mul]
      exact Nat.zero_le _
  · obtain ⟨k, N, D, h, hb⟩ := exists_onGrid hp hq
    refine ⟨rneBits_le p q, ?_, fun hfin c hc => ?_⟩
    · rw [h.overflow_iff, ← h.infBits_le_iff, hb]
      exact min_eq_right_iff
    · have hlt : k * 2 ^ 23 + roundHalfEven N D < infBits := by
        rw [hb] at hfin
        exact (min_lt_iff.1 hfin).resolve_right (lt_irrefl _)
      rw [hb, min_eq_left hlt.le]
      exact h.nearest hq hlt hc

end Sys2Proof.Machine
end

section
/-! What a command changes, said once for all of them, and what follows for the registers and the flags (spec/10_state.md R34, R38, R42,
R43). -/

namespace Sys2Proof.Machine

/-! ### Whatever a command does -/

/-- INIT succeeds in s with method m, window win and constants k (R200). -/
structure State.Configures (s : State) (m : Method) (win : Window) (k : CurveConsts) : Prop where
  minLog2N : Config.minLog2N ≤ blkLog2 s.cfg
  maxLog2N : blkLog2 s.cfg ≤ s.hw.maxLog2N
  method : methodOf s.cfg = some m
  window : windowOf s.cfg = some win
  consts : curveConsts s.hw.num m s.cparam0 s.cparam1 s.consts = some k

/-- What command i can make of s. -/
inductive Executes (i : Instr) (s : State) : State → Prop
  /-- A data command without CFGOK or with an operand that fails its check. -/
  | fault (c : Cause) (a : Word) : Executes i s (s.raise c a (encodeWord i))
  /-- An INIT that fails (R201). -/
  | initFail (c : Cause) (hi : i = .init) : Executes i s (s.initFail c)
  /-- An INIT that succeeds (R200). -/
  | configure (m : Method) (win : Window) (k : CurveConsts) (hi : i = .init) (hc : s.Configures m win k) :
    Executes i s (s.configure m win k).advance
  /-- A data command that completes: NAN and SAT are not cleared, and set only by a command that quantizes (R34). -/
  | data (m : Memory) (nan sat : Bool) (hnan : s.status.nan = true → nan = true) (hsat : s.status.sat = true → sat = true)
    (hq : quantizes i = false → nan = s.status.nan ∧ sat = s.status.sat) :
    Executes i s { s with pc := s.pc + 8, lmem := m, status := { s.status with nan := nan, sat := sat } }
  /-- A control command: SYNGAIN is SETG's, DONE is HALT's, and an A register is written by an address command that names it. -/
  | control (pc gain : Word) (regs : Vector Word 8) (busy done : Bool) (hg : gain = s.syngain ∨ ∃ v, i = .setg v)
    (hd : i ≠ .halt → done = s.status.done) (hr : ∀ r : Reg, regs[r] = s.x r ∨ ∃ v, i = .seta r v ∨ i = .adda r v ∨ i = .djnz r v) :
    Executes i s { s with pc := pc, syngain := gain, regs := regs, status := { s.status with busy := busy, done := done } }

/-- A write of one A register and of pc, by a command that names the register. -/
theorem executes_setX_setPc {i : Instr} (s : State) {a : Reg} (v p : Word) (hi : ∃ w, i = .seta a w ∨ i = .adda a w ∨ i = .djnz a w) :
    Executes i s ((s.setX a v).setPc p) := by
  refine .control p s.syngain (s.regs.set a v) s.status.busy s.status.done (.inl rfl) (fun _ => rfl) fun r => ?_
  by_cases h : a = r
  · exact .inr (h ▸ hi)
  · exact .inl (Vector.getElem_set_ne a.isLt r.isLt fun e => h (Fin.ext e))

theorem exec_executes {i : Instr} {s t : State} (h : exec i s = .next t) : Executes i s t := by
  by_cases hd : isDataCommand i = true
  · rcases exec_data_cases hd h with ⟨-, rfl⟩ | ⟨-, c, a, -, rfl⟩ | ⟨-, m, nan, sat, rfl, hnan, hsat, hq⟩
    · exact .fault _ _
    · exact .fault c a
    · exact .data m nan sat hnan hsat hq
  cases i
  case init =>
    rcases execInit_cases h with ⟨c, -, rfl⟩ | ⟨m, win, k, h1, h2, h3, h4, h5, rfl⟩
    · exact .initFail c rfl
    · exact .configure m win k rfl ⟨h1, h2, h3, h4, h5⟩
  case windump | comp | expd | rfft | irfft | pqnt | fwd | pdeq | inv => exact absurd rfl hd
  case djnz a v =>
    simp only [exec, execDjnz] at h
    split at h <;> (injection h with h; subst h; exact executes_setX_setPc s _ _ ⟨v, .inr (.inr rfl)⟩)
  case seta a v => injection h with h; subst h; exact executes_setX_setPc s _ _ ⟨v, .inl rfl⟩
  case adda a v => injection h with h; subst h; exact executes_setX_setPc s _ _ ⟨v, .inr (.inl rfl)⟩
  case halt => injection h with h; subst h; exact .control _ _ _ _ _ (.inl rfl) (absurd rfl) fun _ => .inl rfl
  case setg v => injection h with h; subst h; exact .control _ _ _ _ _ (.inr ⟨v, rfl⟩) (fun _ => rfl) fun _ => .inl rfl
  case nop | jmp => injection h with h; subst h; exact .control _ _ _ _ _ (.inl rfl) (fun _ => rfl) fun _ => .inl rfl

/-! ### Registers -/

/-- No command writes a register that is the host's alone, a parameter or the turns to come. -/
theorem exec_keeps_host_registers {i : Instr} {s t : State} (h : exec i s = .next t) :
    t.cfg = s.cfg ∧ t.cparam0 = s.cparam0 ∧ t.cparam1 = s.cparam1 ∧ t.irqen = s.irqen ∧ t.status.wdrop = s.status.wdrop ∧
      t.hw = s.hw ∧ t.turns = s.turns := by
  cases exec_executes h <;> exact ⟨rfl, rfl, rfl, rfl, rfl, rfl, rfl⟩

/-- Only an address command that names an A register writes it. -/
theorem exec_x {i : Instr} {s t : State} (h : exec i s = .next t) (r : Reg) :
    t.x r = s.x r ∨ ∃ v, i = .seta r v ∨ i = .adda r v ∨ i = .djnz r v := by
  cases exec_executes h with
  | control pc gain regs busy done _ _ hr => exact hr r
  | fault | initFail | configure | data => exact .inl rfl

/-- Only INIT and SETG write SYNGAIN. -/
theorem exec_syngain {i : Instr} {s t : State} (h : exec i s = .next t) :
    t.syngain = s.syngain ∨ i = .init ∨ ∃ v, i = .setg v := by
  cases exec_executes h with
  | configure m win k hi => exact .inr (.inl hi)
  | control pc gain regs busy done hg => exact hg.imp_right .inr
  | fault | initFail | data => exact .inl rfl

/-- Settles O45: the command's write, one kind of register at a time. -/
theorem onlyAddressCommandsWriteRegisters : Obligations.OnlyAddressCommandsWriteRegisters := by
  intro i s t h
  obtain ⟨hcfg, hp0, hp1, hirq, hwd, hhw, hts⟩ := exec_keeps_host_registers h
  exact ⟨exec_x h, hcfg, hp0, hp1, hirq, hwd, hhw, hts, exec_syngain h⟩

/-! ### Flags -/

theorem quantizes_eq_false {i : Instr} (h : ∀ a b c, i ≠ .comp a b c ∧ i ≠ .pqnt a b c ∧ i ≠ .fwd a b c) : quantizes i = false := by
  cases i
  case comp a b c => exact absurd rfl (h a b c).1
  case pqnt a b c => exact absurd rfl (h a b c).2.1
  case fwd a b c => exact absurd rfl (h a b c).2.2
  all_goals rfl

/-- No command clears NAN or SAT, and one that does not quantize leaves them alone (R34). -/
theorem exec_nan_sat {i : Instr} {s t : State} (h : exec i s = .next t) :
    (s.status.nan = true → t.status.nan = true) ∧ (s.status.sat = true → t.status.sat = true) ∧
      (quantizes i = false → t.status.nan = s.status.nan ∧ t.status.sat = s.status.sat) := by
  cases exec_executes h with
  | data m nan sat hnan hsat hq => exact ⟨hnan, hsat, hq⟩
  | fault | initFail | configure | control => exact ⟨id, id, fun _ => ⟨rfl, rfl⟩⟩

/-- Only HALT writes DONE (R333). -/
theorem exec_done {i : Instr} {s t : State} (h : exec i s = .next t) (hi : i ≠ .halt) : t.status.done = s.status.done := by
  cases exec_executes h with
  | control pc gain regs busy done _ hd => exact hd hi
  | fault | initFail | configure | data => rfl

/-- Settles O46: NAN and SAT collect the quantizations of a data command, and DONE is HALT's. -/
theorem stickyFlags : Obligations.StickyFlags := by
  intro i s t h
  obtain ⟨hnan, hsat, hq⟩ := exec_nan_sat h
  exact ⟨hnan, hsat, fun hi => hq (quantizes_eq_false hi), exec_done h⟩

end Sys2Proof.Machine
end

section
/-! What changes the active configuration, the tables and the constants (spec/10_state.md R36, R40, R46 to R49): a successful INIT and the
resets, and nothing else. -/

namespace Sys2Proof.Machine

/-- The parameters, the active configuration, the tables and the constants are as before, and CFGOK is not newly set. -/
structure KeepsTables (s t : State) : Prop where
  hw : t.hw = s.hw
  acfg : t.acfg = s.acfg
  acparam0 : t.acparam0 = s.acparam0
  acparam1 : t.acparam1 = s.acparam1
  w : t.w = s.w
  r : t.r = s.r
  lut : t.lut = s.lut
  consts : t.consts = s.consts
  cfgok : t.status.cfgok = true → s.status.cfgok = true

namespace KeepsTables

variable {s t u : State}

theorem trans (h : KeepsTables s t) (k : KeepsTables t u) : KeepsTables s u where
  hw := k.hw.trans h.hw
  acfg := k.acfg.trans h.acfg
  acparam0 := k.acparam0.trans h.acparam0
  acparam1 := k.acparam1.trans h.acparam1
  w := k.w.trans h.w
  r := k.r.trans h.r
  lut := k.lut.trans h.lut
  consts := k.consts.trans h.consts
  cfgok := h.cfgok ∘ k.cfgok

theorem turns (s : State) (ts : List Turn) : KeepsTables s { s with turns := ts } := ⟨rfl, rfl, rfl, rfl, rfl, rfl, rfl, rfl, id⟩

theorem follow (s : State) (i : Instr) (t : State) : KeepsTables t (s.follow i t) := by
  rcases State.follow_cases s i t with ⟨-, h⟩ | ⟨-, h⟩ <;> rw [h] <;> exact ⟨rfl, rfl, rfl, rfl, rfl, rfl, rfl, rfl, id⟩

theorem raise_endRun (s : State) (c : Cause) (a : Word) (w : Command) : KeepsTables s (s.raise c a w).endRun :=
  ⟨rfl, rfl, rfl, rfl, rfl, rfl, rfl, rfl, id⟩

theorem tablesLatched (h : KeepsTables s t) (hs : s.TablesLatched) : t.TablesLatched := by
  intro hc
  obtain ⟨m, win, ht⟩ := hs (h.cfgok hc)
  refine ⟨m, win, ?_⟩
  rw [State.aN] at ht ⊢
  rwa [h.hw, h.acfg, h.acparam0, h.acparam1, h.w, h.r, h.lut, h.consts]

end KeepsTables

/-! ### Commands -/

/-- A command keeps the tables, unless it is an INIT that succeeds. -/
theorem exec_tables_cases {i : Instr} {s t : State} (h : exec i s = .next t) :
    KeepsTables s t ∨ (i = .init ∧ ∃ m win k, s.Configures m win k ∧ t = (s.configure m win k).advance) := by
  cases exec_executes h with
  | initFail => exact .inl ⟨rfl, rfl, rfl, rfl, rfl, rfl, rfl, rfl, nofun⟩
  | configure m win k hi hc => exact .inr ⟨hi, m, win, k, hc, rfl⟩
  | fault | data | control => exact .inl ⟨rfl, rfl, rfl, rfl, rfl, rfl, rfl, rfl, id⟩

/-- The constants INIT derives do not depend on the old ones: derived again, they stay. -/
theorem curveConsts_self {num : Config.NumChoice} {m : Method} {p0 p1 : F32} {old k : CurveConsts}
    (h : curveConsts num m p0 p1 old = some k) : curveConsts num m p0 p1 k = some k := by
  cases m
  all_goals
    simp only [curveConsts, muConsts, uvConsts, sqConsts] at h ⊢
    split at h
    · rename_i valid
      cases h
      rw [if_pos valid]
    · cases h

theorem buildLut_self (m : Method) (k : CurveConsts) (p0 : F32) (old : Lut) :
    buildLut m k p0 (buildLut m k p0 old) = buildLut m k p0 old := by
  cases m <;> rfl

/-- A successful INIT latches the configuration it built its tables from (R200). -/
theorem State.Configures.tablesLatched {s : State} {m : Method} {win : Window} {k : CurveConsts} (h : s.Configures m win k) :
    (s.configure m win k).advance.TablesLatched := fun _ =>
  ⟨m, win, h.method, h.window, h.minLog2N, h.maxLog2N, rfl, rfl, curveConsts_self h.consts, buildLut_self m k _ _⟩

/-- What one engine step that answers t is, with where the command came from. -/
theorem engineStep_fetches {s t : State} (h : engineStep s = .next t) :
    (∃ c a w, t = (s.raise c a w).endRun) ∨
    ∃ i rest u, s.pc.toNat % 8 = 0 ∧ s.pc.toNat + 8 ≤ s.hw.lmemSize ∧ decode (s.bytesAt s.pc.toNat 8) = .ok (i, rest) ∧
      exec i s = .next u ∧ t = s.follow i u := by
  rcases engineStep_cases h with hf | ⟨i, rest, u, hd, hu, rfl⟩
  · exact .inl hf
  rcases fetchDecode_cases s with ⟨j, rest', -, h8, hl, -⟩ | ⟨c, a, w, hf⟩
  · exact .inr ⟨i, rest, u, h8, hl, hd, hu, rfl⟩
  · simp only [engineStep, hf] at h
    injection h with h
    exact .inl ⟨c, a, w, h.symm⟩

/-- An engine step keeps the tables, unless it runs an INIT that succeeds. -/
theorem engineStep_tables_cases {s t : State} (h : engineStep s = .next t) :
    KeepsTables s t ∨
    (s.pc.toNat % 8 = 0 ∧ s.pc.toNat + 8 ≤ s.hw.lmemSize ∧ (∃ rest, decode (s.bytesAt s.pc.toNat 8) = .ok (.init, rest)) ∧
      t.TablesLatched ∧ t.status.cfgok = true ∧ t.acfg = s.cfg) := by
  rcases engineStep_fetches h with ⟨c, a, w, rfl⟩ | ⟨i, rest, u, h8, hl, hd, hu, rfl⟩
  · exact .inl (.raise_endRun s c a w)
  have hf := KeepsTables.follow s i u
  rcases exec_tables_cases hu with hk | ⟨rfl, m, win, k, hc, rfl⟩
  · exact .inl (hk.trans hf)
  · exact .inr ⟨h8, hl, ⟨rest, hd⟩, hf.tablesLatched hc.tablesLatched, by simp, by simp⟩

/-! ### Host accesses -/

/-- A register write keeps the tables, unless it is an SRST. -/
theorem writeRegister_tables_cases (s : State) (off : Nat) (v : Word) :
    KeepsTables s (s.writeRegister off v) ∨ (off = 0x004 ∧ v.getLsbD 2 = true ∧ s.writeRegister off v = s.softReset) := by
  rcases State.writeRegister_cases s off v with hr | e | e | e | ⟨-, e⟩ | ⟨-, p, c, c0, c1, g, r, -, e⟩ | e
  · exact .inr hr
  · rw [e, State.start]
    split <;> exact .inl ⟨rfl, rfl, rfl, rfl, rfl, rfl, rfl, rfl, id⟩
  all_goals rw [e]; exact .inl ⟨rfl, rfl, rfl, rfl, rfl, rfl, rfl, rfl, id⟩

/-- A host access that answers t is a register write, or changes nothing but LMEM, the record of races and the data read. -/
theorem hostAccess_writes_register_or_memory {a : HostAccess} {s t : State} (h : hostAccess a s = .next t) :
    (∃ off v, a = .write off 32 v ∧ t = s.writeRegister off.toNat v) ∨
    ∃ m log d v, t = { s with lmem := m, race := log, draws := d, rdata := v } := by
  rcases hostAccess_cases h with ⟨off, rfl⟩ | hw | ⟨off, width, -, -, rfl⟩ | ⟨off, width, v, -, -, rfl⟩
  · exact .inr ⟨_, _, _, _, rfl⟩
  · exact .inl hw
  · refine .inr ?_
    unfold State.hostReadMemory
    split
    · dsimp only
      split <;> exact ⟨_, _, _, _, rfl⟩
    · exact ⟨_, _, _, _, rfl⟩
  · refine .inr ?_
    unfold State.hostWriteMemory
    split
    · split <;> exact ⟨_, _, _, _, rfl⟩
    · exact ⟨_, _, _, _, rfl⟩

/-- A host access keeps the tables, unless it is a CTRL write with SRST. -/
theorem hostAccess_tables_cases {a : HostAccess} {s t : State} (h : hostAccess a s = .next t) :
    KeepsTables s t ∨ ∃ v, a = .write 0x004 32 v ∧ v.getLsbD 2 = true ∧ t = s.softReset := by
  rcases hostAccess_writes_register_or_memory h with ⟨off, v, rfl, rfl⟩ | ⟨m, log, d, v, rfl⟩
  · rcases writeRegister_tables_cases s off.toNat v with hk | ⟨ho, hv, e⟩
    · exact .inl hk
    · obtain rfl : off = 0x004 := BitVec.eq_of_toNat_eq ho
      exact .inr ⟨v, rfl, hv, e⟩
  · exact .inl ⟨rfl, rfl, rfl, rfl, rfl, rfl, rfl, rfl, id⟩

/-! ### Every step -/

/-- Settles O48: whatever is no INIT keeps the tables or clears CFGOK, and a successful INIT builds them from what it latches. -/
theorem stepKeepsTables : Obligations.StepKeepsTables := by
  refine fun s t => step_keeps (fun s ts h => (KeepsTables.turns s ts).tablesLatched h) ?engine ?access fun s _ => nofun
  case engine =>
    intro s t hs _ h
    rcases engineStep_tables_cases h with hk | ⟨-, -, -, ht, -⟩
    · exact hk.tablesLatched hs
    · exact ht
  case access =>
    intro a s t hs h
    rcases hostAccess_tables_cases h with hk | ⟨v, -, -, rfl⟩
    · exact hk.tablesLatched hs
    · exact nofun

/-- What one step that answers t is, by the turn it takes. -/
theorem step_turn_cases {s t : State} (h : step s = .next t) :
    (∃ ts, s.EngineTurn ts ∧ s.status.busy = true ∧ engineStep { s with turns := ts } = .next t) ∨
    (∃ ts, s.EngineTurn ts ∧ s.status.busy = false ∧ t = { s with turns := ts }) ∨
    (∃ a ts, s.turns = .access a :: ts ∧ hostAccess a { s with turns := ts } = .next t) ∨
    ∃ ts, s.turns = .reset :: ts ∧ t = State.hardwareReset { s with turns := ts } := by
  have engine : ∀ ts, s.EngineTurn ts →
      (∃ ts, s.EngineTurn ts ∧ s.status.busy = true ∧ engineStep { s with turns := ts } = .next t) ∨
      (∃ ts, s.EngineTurn ts ∧ s.status.busy = false ∧ t = { s with turns := ts }) := by
    intro ts he
    rw [step_of_engineTurn he, engineTurn] at h
    split at h
    · exact .inl ⟨ts, he, ‹_›, h⟩
    · injection h with h
      exact .inr ⟨ts, he, Bool.eq_false_of_not_eq_true ‹_›, h.symm⟩
  rcases hs : s.turns with _ | ⟨_ | a | _, ts⟩
  · exact (engine [] (.inl ⟨hs, rfl⟩)).imp_right .inl
  · exact (engine ts (.inr hs)).imp_right .inl
  · exact .inr (.inr (.inl ⟨a, ts, rfl, by rwa [step_of_access hs] at h⟩))
  · simp only [step, hs] at h
    injection h with h
    exact .inr (.inr (.inr ⟨ts, rfl, h.symm⟩))

/-- Settles O44, by the turn: the engine changes the tables in an INIT alone, the host through SRST alone. -/
theorem tablesChangeOnlyAtInit : Obligations.TablesChangeOnlyAtInit := by
  intro s t h
  have kept : ∀ ts, KeepsTables { s with turns := ts } t →
      t.acfg = s.acfg ∧ t.acparam0 = s.acparam0 ∧ t.acparam1 = s.acparam1 ∧ t.w = s.w ∧ t.r = s.r ∧ t.lut = s.lut ∧
        t.consts = s.consts := fun ts k => ⟨k.acfg, k.acparam0, k.acparam1, k.w, k.r, k.lut, k.consts⟩
  rcases step_turn_cases h with ⟨ts, he, hb, h⟩ | ⟨ts, -, -, rfl⟩ | ⟨a, ts, ha, h⟩ | ⟨ts, hr, -⟩
  · rcases engineStep_tables_cases h with hk | ⟨h8, hl, ⟨rest, hd⟩, -, hc, -⟩
    · exact .inl (kept ts hk)
    · have e : State.bytesAt { s with turns := ts } s.pc.toNat 8 = s.bytesAt s.pc.toNat 8 := State.bytesAt_congr fun _ _ => rfl
      exact .inr (.inl ⟨hc, hb, ⟨ts, he⟩, h8, hl, rest, e ▸ hd⟩)
  · exact .inl ⟨rfl, rfl, rfl, rfl, rfl, rfl, rfl⟩
  · rcases hostAccess_tables_cases h with hk | ⟨v, rfl, hv, -⟩
    · exact .inl (kept ts hk)
    · exact .inr (.inr (.inr ⟨v, ts, ha, hv⟩))
  · exact .inr (.inr (.inl ⟨ts, hr⟩))

/-! ### The reserved bits of CFG and ACFG -/

theorem and_cfgMask_reserved (v : Word) : v &&& cfgMask &&& ~~~cfgMask = 0 := by
  rw [BitVec.and_assoc, show cfgMask &&& ~~~cfgMask = 0#32 by decide, BitVec.and_zero]
  rfl

theorem softReset_cfgReserved (s : State) : s.softReset.CfgReserved := by
  show State.reset.cfg &&& ~~~cfgMask = 0 ∧ State.reset.acfg &&& ~~~cfgMask = 0
  decide

/-- An engine step keeps CFG. -/
theorem engineStep_cfg {s t : State} (h : engineStep s = .next t) : t.cfg = s.cfg := by
  rcases engineStep_cases h with ⟨c, a, w, rfl⟩ | ⟨i, rest, u, -, hu, rfl⟩
  · rfl
  · obtain ⟨hc, -⟩ := exec_keeps_host_registers hu
    rw [State.follow_cfg, hc]

/-- A host access keeps CFG, or masks what it writes there, or resets. -/
theorem hostAccess_cfg_cases {a : HostAccess} {s t : State} (h : hostAccess a s = .next t) :
    t.cfg = s.cfg ∨ (∃ v, t.cfg = v &&& cfgMask) ∨ t = s.softReset := by
  rcases hostAccess_writes_register_or_memory h with ⟨off, v, -, rfl⟩ | ⟨m, log, d, v, rfl⟩
  · rcases State.writeRegister_cases s off.toNat v with ⟨-, -, e⟩ | e | e | e | ⟨-, e⟩ | ⟨-, p, c, c0, c1, g, r, hc, e⟩ | e
    case inl => exact .inr (.inr e)
    case inr.inr.inr.inr.inr.inl => rw [e]; exact hc.imp_right fun hc => .inl ⟨v, hc⟩
    case inr.inl =>
      rw [e, State.start]
      split <;> exact .inl rfl
    all_goals rw [e]; exact .inl rfl
  · exact .inl rfl

/-- Settles O50: the host's writes of CFG are masked, and INIT copies CFG to ACFG. -/
theorem stepKeepsCfgReserved : Obligations.StepKeepsCfgReserved := by
  refine fun s t => step_keeps (fun _ _ h => h) ?engine ?access fun s _ => softReset_cfgReserved s
  case engine =>
    rintro s t ⟨hc, ha⟩ _ h
    refine ⟨by rw [engineStep_cfg h, hc], ?_⟩
    rcases engineStep_tables_cases h with hk | ⟨-, -, -, -, -, e⟩
    · rw [hk.acfg, ha]
    · rw [e, hc]
  case access =>
    rintro a s t ⟨hc, ha⟩ h
    rcases hostAccess_tables_cases h with hk | ⟨v, -, -, rfl⟩
    · refine ⟨?_, by rw [hk.acfg, ha]⟩
      rcases hostAccess_cfg_cases h with e | ⟨v, e⟩ | rfl
      · rw [e, hc]
      · rw [e, and_cfgMask_reserved]
      · exact (softReset_cfgReserved s).1
    · exact softReset_cfgReserved s

end Sys2Proof.Machine
end

section
/-! A data command that may run completes, inside the frame of its output operand (spec/10_state.md R34, spec/40_control.md R140,
spec/60_exceptions.md R281). -/

namespace Sys2Proof.Machine

/-- A data command that may run answers, and changes nothing but pc, LMEM, NAN and SAT. -/
theorem exec_of_ready {i : Instr} {s : State} (hd : isDataCommand i = true) (hr : s.Ready i) :
    ∃ t, exec i s = .next t ∧ DataRest i s t := by
  obtain ⟨ins, out, effect, he, -⟩ := exec_eq_dataCommand i s hd
  obtain ⟨t, ht⟩ := dataCommand_next i ins out effect s
  rw [← he] at ht
  refine ⟨t, ht, ?_⟩
  rcases exec_data_cases hd ht with ⟨hc, -⟩ | ⟨-, c, a, hf, -⟩ | ⟨-, h⟩
  · exact absurd (hc.symm.trans hr.1) nofun
  · exact absurd ((firstFault_eq_none_of_ok hr.2).symm.trans hf) nofun
  · exact h

/-- A vector of quantizations writes inside its destination. -/
theorem byte_quantizeElements_outside (curve : F32 → F32) (src : Word) {dst : Word} {n : Nat} (s : State) {c : Nat}
    (hw : dst.toNat + 2 * n < 2 ^ 32) (hc : c < dst.toNat ∨ dst.toNat + 2 * n ≤ c) :
    (iter (quantizeElement curve src dst) n s).byte c = s.byte c := by
  refine iter_induction (quantizeElement curve src dst) (fun t => t.byte c = s.byte c) rfl fun j t hj ht => ?_
  obtain ⟨-, -, outside, -⟩ := quantizeElement_spec curve src dst j t
  have ha : (element dst 2 j).toNat = dst.toNat + 2 * j := toNat_element (by omega)
  exact (outside c (by omega)).trans ht

/-- A vector of expansions writes inside its destination. -/
theorem byte_expandElements_outside (curve : Code → F32) (src : Word) {dst : Word} {n : Nat} (s : State) {c : Nat}
    (hw : dst.toNat + 4 * n < 2 ^ 32) (hc : c < dst.toNat ∨ dst.toNat + 4 * n ≤ c) :
    (iter (expandElement curve src dst) n s).byte c = s.byte c := by
  refine iter_induction (expandElement curve src dst) (fun t => t.byte c = s.byte c) rfl fun j t hj ht => ?_
  obtain ⟨-, outside, -⟩ := expandElement_spec curve src dst j t
  have ha : (element dst 4 j).toNat = dst.toNat + 4 * j := toNat_element (by omega)
  exact (outside c (by omega)).trans ht

theorem State.byte_stickRow (s : State) (row : List (Quantized × Quantized × Quantized)) (a : Nat) :
    (s.stickRow row).byte a = s.byte a := by
  rw [State.stickRow_eq]
  rfl

/-- A data command that may run leaves every byte outside its output operand alone. -/
theorem byte_exec_outside {i : Instr} {s t : State} (hl : s.hw.lmemSize < 2 ^ 32) (hd : isDataCommand i = true) (hr : s.Ready i)
    (h : exec i s = .next t) {a : Nat} (ha : (outputOperand i s).span.holds a = false) : t.byte a = s.byte a := by
  have fits : (outputOperand i s).base.toNat + (outputOperand i s).len < 2 ^ 32 := by
    have := (outputOperand i s).base.isLt
    have := outputOperand_inside hd hr
    omega
  rw [Span.holds_eq_false_iff] at ha
  cases i
  case nop | halt | init | seta | adda | jmp | djnz | setg => cases hd
  case windump ra =>
    obtain rfl := exec_ready hr h (exec_windump ra s) rfl
    have hlen : 4 * s.dumpedTables.length = 8 * s.aN := by rw [length_dumpedTables]; omega
    exact State.byte_writeSamples_outside s (hlen ▸ fits) (hlen ▸ ha)
  case comp ra rb rc | pqnt ra rb rc =>
    obtain rfl := exec_ready hr h rfl rfl
    exact byte_quantizeElements_outside _ _ s fits ha
  case expd ra rb rc | pdeq ra rb rc =>
    obtain rfl := exec_ready hr h rfl rfl
    exact byte_expandElements_outside _ _ s fits ha
  case rfft ra rb =>
    obtain rfl := exec_ready hr h (exec_rfft ra rb s) rfl
    have hlen := length_numRfft s.hw.num s.aN (s.readSamples (s.x ra) s.aN)
    exact State.byte_writeBins_outside s (hlen ▸ fits) (hlen ▸ ha)
  case irfft ra rb =>
    obtain rfl := exec_ready hr h (exec_irfft ra rb s) rfl
    have hlen := length_numIrfft s.hw.num s.aN (s.readBins (s.x ra) (binCount s.aN))
    exact State.byte_writeSamples_outside s (hlen.symm ▸ fits) (hlen.symm ▸ ha)
  case fwd ra rb rc =>
    obtain rfl := exec_ready hr h (exec_fwd ra rb rc s) rfl
    have hlen := length_pixelsOf_encodeFrame s (s.x ra) (sampleLimit (s.x rb) s.aN) s.aN
    rw [dataDone, State.byte_advance, State.byte_stickRow]
    exact State.byte_writePixels_outside s (hlen ▸ fits) (hlen ▸ ha)
  case inv ra rb pv nv =>
    obtain rfl := exec_ready hr h (exec_inv ra rb pv nv s) (invRows_append_eq_operandTable ra rb pv nv s)
    rw [outputOperand_inv] at fits ha
    have hlen := length_decodeBlock s (s.x ra) pv nv
    exact State.byte_writeSamples_outside s (hlen.symm ▸ fits) (hlen.symm ▸ ha)

/-- Settles O12: the registers and flags by what any data command's effect leaves, the bytes command by command. -/
theorem dataCommandsComplete : Obligations.DataCommandsComplete := by
  intro i s hp hd hr
  obtain ⟨t, h, m, x, y, ht, -, -, hq⟩ := exec_of_ready hd hr
  have hl : s.hw.lmemSize < 2 ^ 32 := by
    have := lmemSize_of_legalParams hp
    omega
  refine ⟨t, h, ⟨by rw [ht], fun a => byte_exec_outside hl hd hr h⟩, fun hi => ?_⟩
  obtain ⟨rfl, rfl⟩ := hq (quantizes_eq_false hi)
  rw [ht]

end Sys2Proof.Machine
end

section
/-! A command other than INIT runs alike whatever CFG, CPARAM0 and CPARAM1 hold (spec/10_state.md R40, spec/70_reset_and_hazards.md R330):
every operation it is made of commutes with a change of these three. -/

namespace Sys2Proof.Machine

/-- s with other values in CFG, CPARAM0 and CPARAM1, the configuration the next INIT would take. -/
def State.withConfiguration (s : State) (cfg p0 p1 : Word) : State := { s with cfg := cfg, cparam0 := p0, cparam1 := p1 }

section

variable (s : State) (cfg p0 p1 : Word)

theorem State.bytesAt_withConfiguration (a n : Nat) : (s.withConfiguration cfg p0 p1).bytesAt a n = s.bytesAt a n :=
  State.bytesAt_congr fun _ _ => rfl

theorem State.readF32_withConfiguration (a : Word) : (s.withConfiguration cfg p0 p1).readF32 a = s.readF32 a :=
  State.readF32_congr fun _ _ _ => rfl

theorem State.readU16_withConfiguration (a : Word) : (s.withConfiguration cfg p0 p1).readU16 a = s.readU16 a :=
  State.readU16_congr fun _ _ _ => rfl

theorem State.writeSamples_withConfiguration (a : Word) (l : List F32) :
    (s.withConfiguration cfg p0 p1).writeSamples a l = (s.writeSamples a l).withConfiguration cfg p0 p1 := by
  induction l generalizing s a with
  | nil => rfl
  | cons v l ih => exact ih (s.writeF32 a v) (a + 4)

theorem State.writeCodes_withConfiguration (a : Word) (l : List Code) :
    (s.withConfiguration cfg p0 p1).writeCodes a l = (s.writeCodes a l).withConfiguration cfg p0 p1 := by
  induction l generalizing s a with
  | nil => rfl
  | cons v l ih => exact ih (s.writeU16 a v) (a + 2)

theorem State.stickRow_withConfiguration (row : List (Quantized × Quantized × Quantized)) :
    (s.withConfiguration cfg p0 p1).stickRow row = (s.stickRow row).withConfiguration cfg p0 p1 := by
  rw [State.stickRow_eq, State.stickRow_eq]
  rfl

theorem iter_quantizeElement_withConfiguration (curve : F32 → F32) (src dst : Word) (n : Nat) :
    iter (quantizeElement curve src dst) n (s.withConfiguration cfg p0 p1) =
      (iter (quantizeElement curve src dst) n s).withConfiguration cfg p0 p1 := by
  induction n with
  | zero => rfl
  | succ n ih =>
    rw [iter, iter, ih, quantizeElement, State.readF32_withConfiguration]
    rfl

theorem iter_expandElement_withConfiguration (curve : Code → F32) (src dst : Word) (n : Nat) :
    iter (expandElement curve src dst) n (s.withConfiguration cfg p0 p1) =
      (iter (expandElement curve src dst) n s).withConfiguration cfg p0 p1 := by
  induction n with
  | zero => rfl
  | succ n ih =>
    rw [iter, iter, ih, expandElement, State.readU16_withConfiguration]
    rfl

theorem State.readSamples_withConfiguration (a : Word) (n : Nat) :
    (s.withConfiguration cfg p0 p1).readSamples a n = s.readSamples a n := by
  simp only [State.readSamples, State.readF32_withConfiguration]

theorem State.readBins_withConfiguration (a : Word) (n : Nat) :
    (s.withConfiguration cfg p0 p1).readBins a n = s.readBins a n := by
  simp only [State.readBins, State.readF32_withConfiguration]

theorem State.readPixels_withConfiguration (a : Word) (n : Nat) :
    (s.withConfiguration cfg p0 p1).readPixels a n = s.readPixels a n := by
  simp only [State.readPixels, State.readU16_withConfiguration]

theorem State.encodeFrame_withConfiguration (src : Word) (limit n : Nat) :
    (s.withConfiguration cfg p0 p1).encodeFrame src limit n = s.encodeFrame src limit n := by
  simp only [State.encodeFrame, State.windowed, State.readF32_withConfiguration]
  rfl

theorem State.decodeBlock_withConfiguration (c : Word) (pv nv : Bool) :
    (s.withConfiguration cfg p0 p1).decodeBlock c pv nv = s.decodeBlock c pv nv := by
  simp only [State.decodeBlock, State.rowOrZero, State.readPixels_withConfiguration]
  rfl

/-- A data command whose effect does not look at CFG, CPARAM0 and CPARAM1 does the same whatever they hold. -/
theorem dataCommand_withConfiguration {i : Instr} {ins : List Operand} {out : Operand} {effect effect' : State → State} {t : State}
    (he : effect' (s.withConfiguration cfg p0 p1) = (effect s).withConfiguration cfg p0 p1)
    (h : dataCommand i ins out effect s = .next t) :
    dataCommand i ins out effect' (s.withConfiguration cfg p0 p1) = .next (t.withConfiguration cfg p0 p1) := by
  rcases dataCommand_cases h with ⟨hc, rfl⟩ | ⟨hc, c, a, hf, rfl⟩ | ⟨hc, hf, rfl⟩
  · exact dataCommand_notConfigured (s := s.withConfiguration cfg p0 p1) hc
  · exact dataCommand_fault (s := s.withConfiguration cfg p0 p1) hc hf
  · rw [dataCommand_done (s := s.withConfiguration cfg p0 p1) hc hf, dataDone, he]
    rfl

end

/-- Settles O43: the control commands do not look at CFG, CPARAM0 and CPARAM1, and neither does the effect of a data command. -/
theorem configurationOnlyAtInit : Obligations.ConfigurationOnlyAtInit := by
  intro i s t cfg p0 p1 hi h
  show exec i (s.withConfiguration cfg p0 p1) = .next (t.withConfiguration cfg p0 p1)
  cases i
  case init => exact absurd rfl hi
  case nop | halt | seta | adda | jmp | setg => injection h with h; subst h; rfl
  case djnz a v =>
    simp only [exec, execDjnz] at h ⊢
    split at h
    · rename_i hz
      injection h with h
      subst h
      exact if_pos hz
    · rename_i hz
      injection h with h
      subst h
      exact if_neg hz
  case windump ra =>
    rw [exec_windump] at h ⊢
    exact dataCommand_withConfiguration s cfg p0 p1 (State.writeSamples_withConfiguration s cfg p0 p1 _ _) h
  case comp ra rb rc | pqnt ra rb rc =>
    exact dataCommand_withConfiguration s cfg p0 p1 (iter_quantizeElement_withConfiguration s cfg p0 p1 _ _ _ _) h
  case expd ra rb rc | pdeq ra rb rc =>
    exact dataCommand_withConfiguration s cfg p0 p1 (iter_expandElement_withConfiguration s cfg p0 p1 _ _ _ _) h
  case rfft ra rb =>
    rw [exec_rfft] at h ⊢
    refine dataCommand_withConfiguration s cfg p0 p1 ?_ h
    rw [State.readSamples_withConfiguration]
    exact State.writeSamples_withConfiguration s cfg p0 p1 _ _
  case irfft ra rb =>
    rw [exec_irfft] at h ⊢
    refine dataCommand_withConfiguration s cfg p0 p1 ?_ h
    rw [State.readBins_withConfiguration]
    exact State.writeSamples_withConfiguration s cfg p0 p1 _ _
  case fwd ra rb rc =>
    rw [exec_fwd] at h ⊢
    refine dataCommand_withConfiguration s cfg p0 p1 ?_ h
    rw [State.encodeFrame_withConfiguration, State.writePixels, State.writeCodes_withConfiguration, State.stickRow_withConfiguration]
    rfl
  case inv ra rb pv nv =>
    rw [exec_inv] at h ⊢
    refine dataCommand_withConfiguration s cfg p0 p1 ?_ h
    rw [State.decodeBlock_withConfiguration]
    exact State.writeSamples_withConfiguration s cfg p0 p1 _ _

end Sys2Proof.Machine
end

section
/-! The host's view of the registers (spec/10_state.md R30 to R45): the register map as a table, and every write by the offset it goes to. -/

namespace Sys2Proof.Machine

/-! ### Accesses and offsets -/

/-- A host write of a register is the step's (R30, R44). -/
theorem step_write_register {s : State} {off v : Word} {ts : List Turn} (h : s.turns = .access (.write off 32 v) :: ts)
    (hl : off.toNat < Config.lmemHBase) (h4 : off.toNat % 4 = 0) :
    step s = .next (State.writeRegister { s with turns := ts } off.toNat v) := by
  rw [step_of_access h, hostAccess_write_register hl, if_pos (by simp [registerAccessOk, h4])]

/-- A host read of a register is the step's, and changes nothing but the data read. -/
theorem step_read_register {s : State} {off : Word} {ts : List Turn} (h : s.turns = .access (.read off 32) :: ts)
    (hl : off.toNat < Config.lmemHBase) (h4 : off.toNat % 4 = 0) :
    step s = .next { s with turns := ts, rdata := s.readRegister off.toNat, race := { s.race with lastRead := false } } := by
  rw [step_of_access h, hostAccess_read_register hl, if_pos (by simp [registerAccessOk, h4])]
  rfl

theorem State.whileIdle_busy {s : State} (h : s.status.busy = true) (f : State → State) :
    s.whileIdle f = { s with status := { s.status with wdrop := true } } := if_pos h

theorem State.whileIdle_idle {s : State} (h : s.status.busy = false) (f : State → State) : s.whileIdle f = f s := if_neg (by simp [h])

/-! ### Writes -/

theorem State.writeRegister_pc (v : Word) (s : State) : s.writeRegister 0x020 v = s.whileIdle fun t => t.setPc v := rfl

theorem State.writeRegister_cfg (v : Word) (s : State) :
    s.writeRegister 0x024 v = s.whileIdle fun t => { t with cfg := v &&& cfgMask } := rfl

theorem State.writeRegister_cparam0 (v : Word) (s : State) :
    s.writeRegister 0x028 v = s.whileIdle fun t => { t with cparam0 := v } := rfl

theorem State.writeRegister_cparam1 (v : Word) (s : State) :
    s.writeRegister 0x02C v = s.whileIdle fun t => { t with cparam1 := v } := rfl

theorem State.writeRegister_syngain (v : Word) (s : State) :
    s.writeRegister 0x030 v = s.whileIdle fun t => { t with syngain := v } := rfl

theorem State.writeRegister_address (i : Reg) (v : Word) (s : State) :
    s.writeRegister (0x080 + 4 * i.val) v = s.whileIdle fun t => t.setX i v := by
  fin_cases i <;> rfl

/-- The offsets of the registers that a run keeps from the host: PC, CFG, CPARAM0, CPARAM1, SYNGAIN and the Ai (R43). -/
def Guarded (off : Nat) : Prop := off ∈ [0x020, 0x024, 0x028, 0x02C, 0x030] ∨ ∃ i : Reg, off = 0x080 + 4 * i.val

/-- A guarded register is written while idle alone. -/
theorem Guarded.writeRegister {off : Nat} (h : Guarded off) (v : Word) : ∃ f, ∀ s : State, s.writeRegister off v = s.whileIdle f := by
  rcases h with h | ⟨i, rfl⟩
  · simp only [List.mem_cons, List.not_mem_nil, or_false] at h
    rcases h with rfl | rfl | rfl | rfl | rfl
    · exact ⟨_, State.writeRegister_pc v⟩
    · exact ⟨_, State.writeRegister_cfg v⟩
    · exact ⟨_, State.writeRegister_cparam0 v⟩
    · exact ⟨_, State.writeRegister_cparam1 v⟩
    · exact ⟨_, State.writeRegister_syngain v⟩
  · exact ⟨_, State.writeRegister_address i v⟩

theorem Guarded.register {off : Nat} (h : Guarded off) : off < Config.lmemHBase ∧ off % 4 = 0 := by
  rw [Config.lmemHBase]
  rcases h with h | ⟨i, rfl⟩
  · simp only [List.mem_cons, List.not_mem_nil, or_false] at h
    omega
  · omega

/-- The offsets of the read-only registers (R30). -/
def ReadOnly (off : Nat) : Prop := off ∈ [0x000, 0x00C, 0x010, 0x014, 0x018, 0x01C, 0x034, 0x038, 0x03C, 0x040]

/-- A read-only register ignores writes. -/
theorem ReadOnly.writeRegister {off : Nat} (h : ReadOnly off) (v : Word) (s : State) : s.writeRegister off v = s := by
  simp only [ReadOnly, List.mem_cons, List.not_mem_nil, or_false] at h
  rcases h with rfl | rfl | rfl | rfl | rfl | rfl | rfl | rfl | rfl | rfl <;> rfl

theorem ReadOnly.register {off : Nat} (h : ReadOnly off) : off < Config.lmemHBase ∧ off % 4 = 0 := by
  simp only [ReadOnly, List.mem_cons, List.not_mem_nil, or_false] at h
  rw [Config.lmemHBase]
  omega

/-- A START while busy (R43, R141). -/
theorem State.writeCtrl_start_busy {s : State} {v : Word} (hb : s.status.busy = true) (h0 : v.getLsbD 0 = true)
    (h2 : v.getLsbD 2 = false) :
    s.writeCtrl v = { s with irqen := v.getLsbD 1, status := { s.status with wdrop := true } } := by
  simp only [State.writeCtrl, State.start, h0, h2, hb, Bool.false_eq_true, if_false, if_true]

/-- A CTRL write without START and SRST (R32). -/
theorem State.writeCtrl_irqen (s : State) {v : Word} (h0 : v.getLsbD 0 = false) (h2 : v.getLsbD 2 = false) :
    s.writeCtrl v = { s with irqen := v.getLsbD 1 } := by
  simp only [State.writeCtrl, h0, h2, Bool.false_eq_true, if_false]

/-- Settles O54, one clause of R43 at a time. -/
theorem hostWritesWhileBusy : Obligations.HostWritesWhileBusy := by
  intro s off v ts h
  refine ⟨fun hb ho => ?guarded, fun hb ho h0 h2 => ?start, fun ho => ?clear, fun ho => ?readOnly⟩
  case guarded =>
    have hg : Guarded off.toNat := ho.imp_left (List.mem_map_of_mem (f := BitVec.toNat))
    obtain ⟨hl, h4⟩ := hg.register
    obtain ⟨f, hf⟩ := hg.writeRegister v
    rw [step_write_register h hl h4, hf]
    exact congrArg _ (State.whileIdle_busy (s := { s with turns := ts }) hb f)
  case start =>
    subst ho
    rw [step_write_register h (by decide) (by decide)]
    exact congrArg _ (State.writeCtrl_start_busy (s := { s with turns := ts }) hb h0 h2)
  case clear =>
    subst ho
    exact step_write_register h (by decide) (by decide)
  case readOnly =>
    have hr : ReadOnly off.toNat := List.mem_map_of_mem (f := BitVec.toNat) ho
    obtain ⟨hl, h4⟩ := hr.register
    rw [step_write_register h hl h4, hr.writeRegister]

/-- A write of a guarded register takes effect while idle. -/
theorem step_write_guarded_idle {s : State} {off v : Word} {ts : List Turn} (h : s.turns = .access (.write off 32 v) :: ts)
    (hb : s.status.busy = false) (hg : Guarded off.toNat) {f : State → State}
    (hf : ∀ s : State, s.writeRegister off.toNat v = s.whileIdle f) : step s = .next (f { s with turns := ts }) := by
  obtain ⟨hl, h4⟩ := hg.register
  rw [step_write_register h hl h4, hf]
  exact congrArg _ (State.whileIdle_idle (s := { s with turns := ts }) hb f)

/-- Settles O55, register by register. -/
theorem hostWritesWhileIdle : Obligations.HostWritesWhileIdle := by
  intro s off v ts h
  refine ⟨fun hb => ⟨?pc, ?cfg, ?cparam0, ?cparam1, ?syngain, fun i hi => ?address⟩, fun ho h0 h2 => ?irqen⟩
  case pc => rintro rfl; exact step_write_guarded_idle h hb (.inl (by decide)) (State.writeRegister_pc v)
  case cfg => rintro rfl; exact step_write_guarded_idle h hb (.inl (by decide)) (State.writeRegister_cfg v)
  case cparam0 => rintro rfl; exact step_write_guarded_idle h hb (.inl (by decide)) (State.writeRegister_cparam0 v)
  case cparam1 => rintro rfl; exact step_write_guarded_idle h hb (.inl (by decide)) (State.writeRegister_cparam1 v)
  case syngain => rintro rfl; exact step_write_guarded_idle h hb (.inl (by decide)) (State.writeRegister_syngain v)
  case address => exact step_write_guarded_idle h hb (.inr ⟨i, hi⟩) (hi ▸ State.writeRegister_address i v)
  case irqen =>
    subst ho
    rw [step_write_register h (by decide) (by decide)]
    exact congrArg _ (State.writeCtrl_irqen { s with turns := ts } h0 h2)

/-! ### The register map -/

/-- What the host reads at every mapped offset (R30 to R42). -/
def State.registerMap (s : State) : List (Nat × Word) :=
  [(0x000, 0x41564201#32), (0x004, if s.irqen then 2 else 0),
    (0x008,
      BitVec.ofNat 32
        (s.status.busy.toNat + 2 * s.status.done.toNat + 4 * s.status.err.toNat + 8 * s.status.cfgok.toNat +
          16 * s.status.nan.toNat + 32 * s.status.sat.toNat + 64 * s.status.wdrop.toNat)),
    (0x00C, BitVec.ofNat 32 (causeCode s.errCause)), (0x010, s.errPc), (0x014, s.errAddr), (0x018, s.errCmdL),
    (0x01C, s.errCmdH), (0x020, s.pc), (0x024, s.cfg), (0x028, s.cparam0), (0x02C, s.cparam1), (0x030, s.syngain),
    (0x034, BitVec.ofNat 32 s.hw.lmemSize), (0x038, s.acfg), (0x03C, s.acparam0), (0x040, s.acparam1),
    (0x080, s.x 0), (0x084, s.x 1), (0x088, s.x 2), (0x08C, s.x 3), (0x090, s.x 4), (0x094, s.x 5), (0x098, s.x 6),
    (0x09C, s.x 7)]

/-- The mapped offsets. -/
def mappedOffsets : List Nat :=
  [0x000, 0x004, 0x008, 0x00C, 0x010, 0x014, 0x018, 0x01C, 0x020, 0x024, 0x028, 0x02C, 0x030, 0x034, 0x038, 0x03C, 0x040,
    0x080, 0x084, 0x088, 0x08C, 0x090, 0x094, 0x098, 0x09C]

theorem State.map_fst_registerMap (s : State) : s.registerMap.map Prod.fst = mappedOffsets := rfl

theorem State.ctrlWord_eq (s : State) : s.ctrlWord = if s.irqen then 2 else 0 := by
  unfold State.ctrlWord
  cases s.irqen <;> rfl

/-- STATUS as the sum of its bits (R33). -/
theorem statusWord_eq (s : Status) :
    statusWord s =
      BitVec.ofNat 32 (s.busy.toNat + 2 * s.done.toNat + 4 * s.err.toNat + 8 * s.cfgok.toNat + 16 * s.nan.toNat +
        32 * s.sat.toNat + 64 * s.wdrop.toNat) := by
  obtain ⟨busy, done, err, cfgok, nan, sat, wdrop⟩ := s
  revert busy done err cfgok nan sat wdrop
  decide

/-- A mapped register reads as the map says. -/
theorem State.readRegister_of_mem_registerMap {s : State} {off : Nat} {v : Word} (h : (off, v) ∈ s.registerMap) :
    s.readRegister off = v := by
  have rows : ∀ p ∈ s.registerMap, s.readRegister p.1 = p.2 := by
    simp only [State.registerMap, ← State.ctrlWord_eq, ← statusWord_eq, List.forall_mem_cons, List.not_mem_nil, false_imp_iff,
      implies_true, and_true]
    and_intros <;> rfl
  exact rows _ h

theorem mod_four_of_mem_mappedOffsets {off : Nat} (h : off ∈ mappedOffsets) : off % 4 = 0 := by
  revert off
  decide

/-- Past the map there is no Ai. -/
theorem regAt_eq_none {off : Nat} (h : off ∉ mappedOffsets) : regAt off = none := by
  refine if_neg fun ⟨hl, hu, h4⟩ => h ?_
  have mapped : ∀ i < 8, 0x080 + 4 * i ∈ mappedOffsets := by decide
  have := mapped ((off - 0x080) / 4) (by omega)
  rwa [show 0x080 + 4 * ((off - 0x080) / 4) = off by omega] at this

theorem State.readRegister_unmapped (s : State) {off : Nat} (h : off ∉ mappedOffsets) : s.readRegister off = 0 := by
  unfold State.readRegister
  split
  case h_18 => rw [regAt_eq_none h]
  all_goals exact absurd (by decide) h

theorem State.writeRegister_unmapped (s : State) {off : Nat} (v : Word) (h : off ∉ mappedOffsets) : s.writeRegister off v = s := by
  unfold State.writeRegister
  split
  case h_8 => rw [regAt_eq_none h]
  all_goals exact absurd (by decide) h

/-- A register access of another width or alignment is refused (R45). -/
theorem registerAccessOk_eq_false {off width : Nat} (h : width ≠ 32 ∨ off % 4 ≠ 0) : registerAccessOk off width = false := by
  simp only [registerAccessOk, Bool.and_eq_false_iff, decide_eq_false_iff_not]
  exact h

/-- Settles O56: the table of mapped registers, and what is past it. -/
theorem hostReadsRegisterMap : Obligations.HostReadsRegisterMap := by
  intro s off ts hl
  refine ⟨fun v h hv => ?read, fun v h h4 ho => ?write, fun width hw => ⟨fun h => ?_, fun v h => ?_⟩⟩
  case read =>
    rcases hv with hm | ⟨h4, ho, rfl⟩
    · have hm : (off.toNat, v) ∈ s.registerMap := hm
      have ho : off.toNat ∈ mappedOffsets := List.mem_map_of_mem (f := Prod.fst) hm
      rw [step_read_register h hl (mod_four_of_mem_mappedOffsets ho), State.readRegister_of_mem_registerMap hm]
    · rw [step_read_register h hl h4, s.readRegister_unmapped ho]
  case write => rw [step_write_register h hl h4, State.writeRegister_unmapped _ v ho]
  · rw [step_of_access h, hostAccess_read_register hl, registerAccessOk_eq_false hw]
    rfl
  · rw [step_of_access h, hostAccess_write_register hl, registerAccessOk_eq_false hw]
    rfl

end Sys2Proof.Machine
end

section
/-! Faults before a command has an effect: those of the fetch and of the decoder (spec/20_memory.md R88, spec/40_control.md R140), and the
operand check of a data command (spec/20_memory.md R93, spec/60_exceptions.md R280, R281). -/

namespace Sys2Proof.Machine

/-! ### Fetch and decode -/

theorem fetchDecode_misaligned {s : State} (h : s.pc.toNat % 8 ≠ 0) : fetchDecode s = .error (s.raise .fetchAlign s.pc 0) := if_pos h

theorem fetchDecode_pastEnd {s : State} (h : s.pc.toNat % 8 = 0) (he : s.hw.lmemSize < s.pc.toNat + 8) :
    fetchDecode s = .error (s.raise .fetchRange s.pc 0) := by
  rw [fetchDecode, if_neg (not_not.2 h), if_pos he]

theorem fetchDecode_illegalOp {s : State} (h : s.pc.toNat % 8 = 0) (he : s.pc.toNat + 8 ≤ s.hw.lmemSize)
    (hd : decode (s.bytesAt s.pc.toNat 8) = .error .illegalOp) : fetchDecode s = .error (s.raise .illegalOp 0 s.fetchWord) := by
  rw [fetchDecode, if_neg (not_not.2 h), if_neg (Nat.not_lt.2 he), hd]

theorem fetchDecode_reservedBits {s : State} (h : s.pc.toNat % 8 = 0) (he : s.pc.toNat + 8 ≤ s.hw.lmemSize)
    (hd : decode (s.bytesAt s.pc.toNat 8) = .error .reservedBits) :
    fetchDecode s = .error (s.raise .reservedBits 0 s.fetchWord) := by
  rw [fetchDecode, if_neg (not_not.2 h), if_neg (Nat.not_lt.2 he), hd]

/-- The turns to come are no part of what is fetched. -/
theorem State.bytesAt_turns (s : State) (ts : List Turn) (a n : Nat) : State.bytesAt { s with turns := ts } a n = s.bytesAt a n :=
  State.bytesAt_congr fun _ _ => rfl

theorem State.fetchWord_turns (s : State) (ts : List Turn) : State.fetchWord { s with turns := ts } = s.fetchWord := by
  simp only [State.fetchWord, State.memRead, State.bytesAt_turns]

/-- A fault of the fetch or the decoder is the whole of the engine's turn; it ends the run. -/
theorem step_of_fetchDecode_error {s t : State} {ts : List Turn} (ht : s.EngineTurn ts) (hb : s.status.busy = true)
    (hf : fetchDecode { s with turns := ts } = .error t) : step s = .next t.endRun := by
  rw [step_of_engineTurn ht, engineTurn, if_pos hb, engineStep, hf]

/-- Settles O7, cause by cause. -/
theorem fetchFaultsInOrder : Obligations.FetchFaultsInOrder := by
  intro s ts ht hb
  refine ⟨fun ha => ?align, fun ha he => ?range, fun ha he => ⟨fun hd => ?illegal, fun hd => ?reserved⟩⟩
  case align => exact step_of_fetchDecode_error ht hb (fetchDecode_misaligned ha)
  case range => exact step_of_fetchDecode_error ht hb (fetchDecode_pastEnd ha he)
  case illegal =>
    rw [← State.bytesAt_turns s ts] at hd
    rw [← State.fetchWord_turns s ts]
    exact step_of_fetchDecode_error ht hb (fetchDecode_illegalOp ha he hd)
  case reserved =>
    rw [← State.bytesAt_turns s ts] at hd
    rw [← State.fetchWord_turns s ts]
    exact step_of_fetchDecode_error ht hb (fetchDecode_reservedBits ha he hd)

/-! ### The operand check -/

theorem checkOperand_misaligned {n : Nat} {o : Operand} (hl : o.len ≠ 0) (ha : o.base.toNat % o.align ≠ 0) :
    checkOperand n o = some .memAlign := by
  rw [checkOperand, if_neg hl, if_pos ha]

theorem checkOperand_pastEnd {n : Nat} {o : Operand} (hl : o.len ≠ 0) (ha : o.base.toNat % o.align = 0)
    (he : n < o.base.toNat + o.len) : checkOperand n o = some .memRange := by
  rw [checkOperand, if_neg hl, if_neg (not_not.2 ha), if_pos he]

/-- Behind operands that pass, an operand that fails is the first fault. -/
theorem firstFault_of_first_failing {n : Nat} {before after : List Operand} {o : Operand} {c : Cause}
    (hb : ∀ p ∈ before, p.Ok n) (ho : checkOperand n o = some c) : firstFault n (before ++ o :: after) = some (c, o.base) := by
  rw [firstFault_append_of_ok hb, firstFault, ho]

/-- Only a data command has operands to check. -/
theorem isDataCommand_of_mem_operandTable {i : Instr} {s : State} {o : Operand} (h : o ∈ operandTable i s) : isDataCommand i = true := by
  cases i
  case nop | halt | init | seta | adda | jmp | djnz | setg => cases h
  all_goals rfl

/-- A data command with CFGOK set whose operands fail takes the fault entry of the first fault. -/
theorem exec_of_firstFault {i : Instr} {s : State} {c : Cause} {a : Word} (hd : isDataCommand i = true) (hc : s.status.cfgok = true)
    (hf : firstFault s.hw.lmemSize (operandTable i s) = some (c, a)) : exec i s = .next (s.raise c a (encodeWord i)) := by
  obtain ⟨ins, out, effect, he, ht, -⟩ := exec_eq_dataCommand i s hd
  rw [he]
  exact dataCommand_fault hc (ht ▸ hf)

/-- Settles O10: the first fault of the operand table is the first operand that fails, and a command without one does its effect. -/
theorem operandFaultsInOrder : Obligations.OperandFaultsInOrder := by
  intro i s hc
  refine ⟨fun before o after ht hb hl => ?faults, fun hd hok => ?passes⟩
  case faults =>
    have hd : isDataCommand i = true := isDataCommand_of_mem_operandTable (s := s) (o := o) (by simp [ht])
    have raises {c : Cause} (ho : checkOperand s.hw.lmemSize o = some c) : exec i s = .next (s.raise c o.base (encodeWord i)) :=
      exec_of_firstFault hd hc (ht ▸ firstFault_of_first_failing hb ho)
    exact ⟨fun ha => raises (checkOperand_misaligned hl ha), fun ha he => raises (checkOperand_pastEnd hl ha he)⟩
  case passes =>
    obtain ⟨t, he, m, x, y, rfl, -⟩ := exec_of_ready hd ⟨hc, hok⟩
    exact ⟨_, he, rfl, rfl, rfl⟩

end Sys2Proof.Machine
end

section
/-! Host accesses to LMEM and past it (spec/20_memory.md R82 to R84, R98), each by what the machine is: idle, in a run, or asked for an
address past LMEM_SIZE. -/

namespace Sys2Proof.Machine

/-! ### Accesses -/

/-- A host write at LMEM_HBASE or above that is not refused is the step's. -/
theorem step_write_memory {s t : State} {off v : Word} {width : Nat} {ts : List Turn} (h : s.turns = .access (.write off width v) :: ts)
    (ho : Config.lmemHBase ≤ off.toNat) (hk : memoryAccessOk off.toNat width = true)
    (ht : State.hostWriteMemory { s with turns := ts } (off.toNat - Config.lmemHBase) (width / 8) v = t) : step s = .next t := by
  rw [step_of_access h, hostAccess_write_memory ho, if_pos hk, ht]

/-- A host read at LMEM_HBASE or above that is not refused is the step's. -/
theorem step_read_memory {s t : State} {off : Word} {width : Nat} {ts : List Turn} (h : s.turns = .access (.read off width) :: ts)
    (ho : Config.lmemHBase ≤ off.toNat) (hk : memoryAccessOk off.toNat width = true)
    (ht : State.hostReadMemory { s with turns := ts } (off.toNat - Config.lmemHBase) (width / 8) = t) : step s = .next t := by
  rw [step_of_access h, hostAccess_read_memory ho, if_pos hk, ht]

theorem step_write_memory_refused {s : State} {off v : Word} {width : Nat} {ts : List Turn}
    (h : s.turns = .access (.write off width v) :: ts) (ho : Config.lmemHBase ≤ off.toNat)
    (hk : ¬memoryAccessOk off.toNat width = true) : step s = .refused (.hostMemoryAccess off width) := by
  rw [step_of_access h, hostAccess_write_memory ho, if_neg hk]

theorem step_read_memory_refused {s : State} {off : Word} {width : Nat} {ts : List Turn} (h : s.turns = .access (.read off width) :: ts)
    (ho : Config.lmemHBase ≤ off.toNat) (hk : ¬memoryAccessOk off.toNat width = true) :
    step s = .refused (.hostMemoryAccess off width) := by
  rw [step_of_access h, hostAccess_read_memory ho, if_neg hk]

/-! ### Reads and writes of LMEM -/

section

variable {s : State} {a n : Nat} {v : Word}

theorem State.hostWriteMemory_idle (ha : a < s.hw.lmemSize) (hb : s.status.busy = false) :
    s.hostWriteMemory a n v = s.memWrite a n v.toNat := by
  rw [State.hostWriteMemory, if_pos ha, if_neg (by simp [hb])]

theorem State.hostWriteMemory_busy (ha : a < s.hw.lmemSize) (hb : s.status.busy = true) :
    s.hostWriteMemory a n v =
      { s with
        lmem := redrawSpan s.draws s.lmem ⟨a, n⟩
        race := { s.race with raced := ⟨a, n⟩ :: s.race.raced }
        draws := s.draws + 1 } := by
  rw [State.hostWriteMemory, if_pos ha, if_pos hb]

theorem State.hostWriteMemory_pastEnd (ha : s.hw.lmemSize ≤ a) : s.hostWriteMemory a n v = s :=
  if_neg (Nat.not_lt.2 ha)

theorem State.hostReadMemory_idle (ha : a < s.hw.lmemSize) (hb : s.status.busy = false) :
    s.hostReadMemory a n = { s with rdata := BitVec.ofNat 32 (s.memRead a n), race := { s.race with lastRead := false } } := by
  rw [State.hostReadMemory, if_pos ha]
  exact if_neg (by simp [hb])

/-- The read that goes on record when the host reads n bytes at address a during a run. -/
def State.readOnRecord (s : State) (a n : Nat) : HostRead :=
  { span := ⟨a, n⟩, seen := BitVec.ofNat 32 (s.memRead a n), draw := s.draws }

theorem State.hostReadMemory_busy (ha : a < s.hw.lmemSize) (hb : s.status.busy = true) :
    s.hostReadMemory a n =
      { s with
        rdata := (s.readOnRecord a n).pending
        race := { s.race with reads := s.readOnRecord a n :: s.race.reads, lastRead := true }
        draws := s.draws + 1 } := by
  rw [State.hostReadMemory, if_pos ha]
  exact if_pos hb

theorem State.hostReadMemory_pastEnd (ha : s.hw.lmemSize ≤ a) :
    s.hostReadMemory a n = { s with rdata := 0, race := { s.race with lastRead := false } } :=
  if_neg (Nat.not_lt.2 ha)

end

/-- The turns to come are no part of LMEM. -/
theorem State.memRead_turns (s : State) (ts : List Turn) (a n : Nat) : State.memRead { s with turns := ts } a n = s.memRead a n := by
  rw [State.memRead, State.memRead, State.bytesAt_turns]

/-- The widths of an access, in bytes. -/
theorem bytes_of_width {width : Nat} (h : width = 8 ∨ width = 16 ∨ width = 32) : width / 8 ≤ 4 ∧ 256 ^ (width / 8) = 2 ^ width := by
  rcases h with rfl | rfl | rfl <;> decide

/-- Settles O59: a legal access is a read or a write of LMEM, idle or past its end; any other is refused. -/
theorem hostReadsAndWritesLmem : Obligations.HostReadsAndWritesLmem := by
  intro s off v width ts ho a legal
  have hk : legal ↔ memoryAccessOk off.toNat width = true := (memoryAccessOk_iff _ _).symm
  refine ⟨fun h => ⟨fun hl ha hb => ?write, fun hl ha => ?ignored, fun hl => ?refusedWrite⟩,
    fun h => ⟨fun hl ha hb => ?read, fun hl ha => ?zero, fun hl => ?refusedRead⟩⟩
  case write =>
    obtain ⟨-, hw⟩ := bytes_of_width hl.1
    refine ⟨_, step_write_memory h ho (hk.1 hl) (State.hostWriteMemory_idle ha hb), rfl, ?_,
      fun b hb => State.byte_memWrite_outside _ hb⟩
    rw [← hw]
    exact State.memRead_memWrite_same _ a _ _
  case ignored => exact step_write_memory h ho (hk.1 hl) (State.hostWriteMemory_pastEnd ha)
  case refusedWrite => exact step_write_memory_refused h ho (mt hk.2 hl)
  case read =>
    obtain ⟨hw, -⟩ := bytes_of_width hl.1
    refine ⟨_, step_read_memory h ho (hk.1 hl) (State.hostReadMemory_idle ha hb), ?_, rfl⟩
    rw [State.memRead_turns]
    exact s.toNat_memRead hw
  case zero => exact ⟨_, step_read_memory h ho (hk.1 hl) (State.hostReadMemory_pastEnd ha), rfl, fun _ => rfl⟩
  case refusedRead => exact step_read_memory_refused h ho (mt hk.2 hl)

end Sys2Proof.Machine
end

section
/-! Races (spec/20_memory.md R98, R101, R103): host accesses during a run, what the run's end gives, and which bytes a command computes from
which. -/

namespace Sys2Proof.Machine

/-! ### Host accesses during a run -/

/-- A host read during a run. -/
theorem step_read_memory_busy {s : State} {off : Word} {width : Nat} {ts : List Turn} (ho : Config.lmemHBase ≤ off.toNat)
    (hb : s.status.busy = true) (hk : memoryAccessOk off.toNat width = true) (ha : off.toNat - Config.lmemHBase < s.hw.lmemSize)
    (h : s.turns = .access (.read off width) :: ts) :
    step s =
      .next
        { s with
          turns := ts
          rdata := (s.readOnRecord (off.toNat - Config.lmemHBase) (width / 8)).pending
          race :=
            { s.race with reads := s.readOnRecord (off.toNat - Config.lmemHBase) (width / 8) :: s.race.reads, lastRead := true }
          draws := s.draws + 1 } := by
  have hr : State.readOnRecord { s with turns := ts } (off.toNat - Config.lmemHBase) (width / 8) =
      s.readOnRecord (off.toNat - Config.lmemHBase) (width / 8) := by
    rw [State.readOnRecord, State.memRead_turns, State.readOnRecord]
  rw [step_read_memory h ho hk (State.hostReadMemory_busy ha hb), hr]

/-- A read in a run gives free bytes at first, and 0 above the bytes read. -/
theorem HostRead.pending_byte (r : HostRead) (hr : r.span.len ≤ 4) {j : Nat} (hj : j < 4) :
    r.pending.extractLsb' (8 * j) 8 = if j < r.span.len then Config.freeByte r.draw (r.span.base + j) else 0 :=
  r.data_byte _ hr hj

/-- A byte of a redrawn span holds the draw's value. -/
theorem State.byte_of_redrawSpan_inside {s t : State} {d : Nat} {p : Span} {a : Nat} (ht : t.lmem = redrawSpan d s.lmem p)
    (h : p.holds a = true) : t.byte a = Config.freeByte d a := by
  rw [State.byte, ht, get?_redrawSpan_inside d s.lmem h, Option.getD_some]

/-- A byte outside a redrawn span is as it was. -/
theorem State.byte_of_redrawSpan_outside {s t : State} {d : Nat} {p : Span} {a : Nat} (ht : t.lmem = redrawSpan d s.lmem p)
    (hd : t.lmemDraw = s.lmemDraw) (h : p.holds a = false) : t.byte a = s.byte a :=
  State.byte_congr (ht ▸ get?_redrawSpan_outside d s.lmem h) hd

/-! ### The end of a run -/

/-- A settled read: free in the bytes that a command of the run wrote, and what they held in the others. -/
theorem HostRead.settled_byte (wrote : List Span) (r : HostRead) (hr : r.span.len ≤ 4) {j : Nat} (hj : j < 4) :
    (r.settled wrote).extractLsb' (8 * j) 8 =
      if r.span.len ≤ j then 0
      else if wrote.any fun p => p.holds (r.span.base + j) then Config.freeByte r.draw (r.span.base + j)
      else r.seen.extractLsb' (8 * j) 8 := by
  rw [HostRead.settled, r.data_byte _ hr hj]
  by_cases h : j < r.span.len
  · rw [if_pos h, if_neg (Nat.not_le.2 h)]
  · rw [if_neg h, if_pos (Nat.not_lt.1 h)]

/-- The run's end puts the settled reads of the run in front of those of the earlier runs. -/
theorem State.raceReads_endRun_getElem? (s : State) {k : Nat} {r : HostRead} (h : s.race.reads[k]? = some r) :
    s.endRun.raceReads[k]? = some (r.settled s.race.wrote) := by
  have hk : k < s.race.reads.length := (List.getElem?_eq_some_iff.1 h).1
  rw [State.endRun_raceReads, List.getElem?_append_left (by simpa using hk), List.getElem?_map, h, Option.map_some]

/-- Where the run's latest read is the host's latest, its settled data stand as that. -/
theorem State.rdata_endRun_of_lastRead (s : State) {r : HostRead} (h : s.race.reads[0]? = some r) (hl : s.race.lastRead = true) :
    s.endRun.rdata = r.settled s.race.wrote := by
  rw [State.endRun_rdata, if_pos hl, List.headD_eq_head?_getD, List.head?_eq_getElem?, List.getElem?_map, h, Option.map_some,
    Option.getD_some]

/-! ### Spans and the bytes the statements speak of -/

theorem Span.holds_iff_among (a : Word) (off len b : Nat) : Span.holds ⟨a.toNat + off, len⟩ b = true ↔ Among a off len b := by
  simp [Span.holds, Among]

/-- A raced byte is among `len` bytes exactly if their span meets the record. -/
theorem Span.meetsAny_raced_iff (a : Word) (off len : Nat) (r : RaceLog) :
    Span.meetsAny ⟨a.toNat + off, len⟩ r.raced = true ↔ ∃ b, r.Raced b ∧ Among a off len b := by
  simp only [Span.meetsAny_iff, Span.holds_iff_among, RaceLog.Raced, and_comm]

/-- The spans of the live bins hold the bins but for two imaginary parts. -/
theorem holds_liveBins (a : Word) (n b : Nat) : (∃ p ∈ liveBins a n, p.holds b = true) ↔ InLiveBins a n b := by
  simp only [liveBins, List.mem_cons, List.not_mem_nil, or_false, exists_eq_or_imp, exists_eq_left, Span.holds, Bool.and_eq_true,
    decide_eq_true_eq, InLiveBins, Among]
  omega

/-- The spans of the live row hold the row but for two imaginary codes. -/
theorem holds_liveRow (a : Word) (n b : Nat) : (∃ p ∈ liveRow a n, p.holds b = true) ↔ InLiveRow a n b := by
  simp only [liveRow, List.mem_cons, List.not_mem_nil, or_false, exists_eq_or_imp, exists_eq_left, Span.holds, Bool.and_eq_true,
    decide_eq_true_eq, InLiveRow, Among]
  omega

/-! ### What a command puts on record -/

/-- Byte b is computed from byte c: one of the flows reads c and writes b. -/
def Feeds (fs : List Flow) (c b : Nat) : Prop := ∃ f ∈ fs, f.out.holds b = true ∧ ∃ p ∈ f.ins, p.holds c = true

/-- A command that reads all its input first races the bytes that it computes from raced ones. -/
theorem raced_iff_feeds {fs : List Flow} {r t : RaceLog} (ht : t.raced = racedBy false fs r.raced) (b : Nat) :
    t.Raced b ↔ r.Raced b ∨ ∃ c, r.Raced c ∧ Feeds fs c b := by
  rw [RaceLog.Raced, ht, holds_racedBy_frame]
  refine or_congr_right ⟨?_, ?_⟩
  · rintro ⟨f, hf, hb, p, hp, c, hc, hr⟩
    exact ⟨c, hr, f, hf, hb, p, hp, hc⟩
  · rintro ⟨c, hr, f, hf, hb, p, hp, hc⟩
    exact ⟨f, hf, hb, p, hp, c, hc, hr⟩

/-- Flows that take all their output from all their input. -/
theorem racesFrom_of_feeds {fs : List Flow} {ins out : Nat → Prop} {r t : RaceLog} (ht : t.raced = racedBy false fs r.raced)
    (hf : ∀ c b, Feeds fs c b ↔ out b ∧ ins c) : RacesFrom ins out r t := by
  intro b
  simp only [raced_iff_feeds ht, hf]
  exact or_congr_right ⟨fun ⟨c, hc, hb, hi⟩ => ⟨hb, c, hc, hi⟩, fun ⟨hb, c, hc, hi⟩ => ⟨c, hc, hb, hi⟩⟩

/-- Byte b is raced before element j of a vector command. -/
def RacedBefore (src dst : Word) (inSize outSize : Nat) (r : RaceLog) (j b : Nat) : Prop :=
  ((racedBy true (elementFlows src dst inSize outSize j) r.raced).any fun p => p.holds b) = true

/-- One element more, where the addresses do not wrap. -/
theorem racedBefore_succ {src dst : Word} {inSize outSize j : Nat} (r : RaceLog) (hs : src.toNat + inSize * j < 2 ^ 32)
    (hd : dst.toNat + outSize * j < 2 ^ 32) (b : Nat) :
    RacedBefore src dst inSize outSize r (j + 1) b ↔
      RacedBefore src dst inSize outSize r j b ∨
        (Among dst (outSize * j) outSize b ∧ ∃ c, RacedBefore src dst inSize outSize r j c ∧ Among src (inSize * j) inSize c) := by
  simp only [RacedBefore, holds_racedBy_element, toNat_element hs, toNat_element hd, Span.holds_iff_among, and_comm]

/-- The flows of a vector command whose operands do not wrap, element by element. -/
theorem racesEach_of_elementFlows {src dst : Word} {inSize outSize n : Nat} {r t : RaceLog}
    (hs : src.toNat + inSize * n < 2 ^ 32) (hd : dst.toNat + outSize * n < 2 ^ 32)
    (ht : t.raced = racedBy true (elementFlows src dst inSize outSize n) r.raced) : RacesEach src dst inSize outSize n r t := by
  refine ⟨RacedBefore src dst inSize outSize r, fun b => Iff.rfl, fun j hj b => racedBefore_succ r ?_ ?_ b,
    fun b => by rw [RaceLog.Raced, ht, RacedBefore]⟩
  · have := Nat.mul_le_mul_left inSize hj.le
    omega
  · have := Nat.mul_le_mul_left outSize hj.le
    omega

/-! ### The flows of each command -/

@[simp] theorem feeds_nil (c b : Nat) : ¬Feeds [] c b := by simp [Feeds]

@[simp] theorem feeds_cons (f : Flow) (fs : List Flow) (c b : Nat) :
    Feeds (f :: fs) c b ↔ (f.out.holds b = true ∧ ∃ p ∈ f.ins, p.holds c = true) ∨ Feeds fs c b := by
  simp [Feeds]

theorem feeds_rfft (ra rb : Reg) (s : State) (c b : Nat) :
    Feeds (flowsOf (.rfft ra rb) s) c b ↔ InLiveBins (s.x rb) s.aN b ∧ Among (s.x ra) 0 (4 * s.aN) c := by
  rw [← holds_liveBins, ← Span.holds_iff_among]
  simp [Feeds, flowsOf, ← and_assoc, exists_and_right]

theorem feeds_irfft (ra rb : Reg) (s : State) (c b : Nat) :
    Feeds (flowsOf (.irfft ra rb) s) c b ↔ Among (s.x rb) 0 (4 * s.aN) b ∧ InLiveBins (s.x ra) s.aN c := by
  rw [← holds_liveBins, ← Span.holds_iff_among]
  simp [flowsOf]

theorem feeds_fwd (ra rb rc : Reg) (s : State) (c b : Nat) :
    Feeds (flowsOf (.fwd ra rb rc) s) c b ↔
      Among (s.x rc) 0 (6 * (s.aN / 2 + 1)) b ∧ Among (s.x ra) 0 (4 * min (s.x rb).toNat s.aN) c := by
  rw [← Span.holds_iff_among, ← Span.holds_iff_among]
  simp [flowsOf, sampleLimit, rowBytes, binCount]

/-- Something in p that reaches the first half by a or the second by b. -/
theorem exists_and_halves {p a b : Nat → Prop} {first second : Prop} :
    (∃ c, p c ∧ (first ∧ a c ∨ second ∧ b c)) ↔ (first ∧ ∃ c, p c ∧ a c) ∨ (second ∧ ∃ c, p c ∧ b c) := by
  simp only [and_or_left, exists_or, and_left_comm (b := first), and_left_comm (b := second), exists_and_left]

/-- A neighbouring row that INV reads where its flag says so. -/
theorem holds_neighbour (valid : Bool) (a : Word) (n b : Nat) :
    (∃ p ∈ if valid then liveRow a n else [], p.holds b = true) ↔ valid = true ∧ InLiveRow a n b := by
  cases valid
  · simp
  · simpa using holds_liveRow a n b

/-- The centre row of INV reaches all its output, the row before it the first half and the row after it the second. -/
theorem feeds_inv (ra rb : Reg) (pv nv : Bool) (s : State) (c b : Nat) :
    Feeds (flowsOf (.inv ra rb pv nv) s) c b ↔
      (Among (s.x rb) 0 (4 * (s.aN / 2)) b ∧
        (InLiveRow (s.x ra) s.aN c ∨ (pv = true ∧ InLiveRow (rowBefore (s.x ra) s.aN) s.aN c))) ∨
      (Among (s.x rb) (4 * (s.aN / 2)) (4 * (s.aN / 2)) b ∧
        (InLiveRow (s.x ra) s.aN c ∨ (nv = true ∧ InLiveRow (rowAfter (s.x ra) s.aN) s.aN c))) := by
  simp only [flowsOf, feeds_cons, feeds_nil, or_false, List.mem_append, or_and_right, exists_or, holds_liveRow, holds_neighbour,
    ← Span.holds_iff_among, Nat.add_zero]

/-! ### The record after a command -/

theorem State.raceAfter_wrote (s : State) (i : Instr) :
    (s.raceAfter i).wrote = addSpan (outputOperand i s).span s.race.wrote := rfl

theorem State.raceAfter_steered (s : State) (i : Instr) : (s.raceAfter i).steered = s.steeredBy i := rfl

/-- What steers a run: a raced byte in the opcode half of the word at pc, in its immediate half where that decides, or in a deciding
register, now or before. -/
theorem State.steeredBy_iff (s : State) (i : Instr) :
    s.steeredBy i = true ↔
      s.race.steered = true ∨ (∃ b, s.race.Raced b ∧ Among s.pc 0 4 b) ∨
        (immediateDecides i s = true ∧ ∃ b, s.race.Raced b ∧ Among s.pc 4 4 b) ∨ ∃ a ∈ s.race.regs, a ∈ decidingRegs i := by
  simp only [State.steeredBy, Bool.or_eq_true, Bool.and_eq_true, Span.meetsAny_raced_iff, ← Span.meetsAny_raced_iff s.pc 0,
    Nat.add_zero, List.any_eq_true, List.contains_iff_mem, or_assoc, and_comm (a := _ ∈ decidingRegs i)]

/-- The immediate half decides for every command but SETA, ADDA, SETG and a DJNZ that falls through. -/
theorem immediateDecides_of_ne {i : Instr} {s : State}
    (h : ∀ a v, i ≠ .seta a v ∧ i ≠ .adda a v ∧ i ≠ .setg v ∧ (i = .djnz a v → s.x a ≠ 1)) : immediateDecides i s = true := by
  cases i
  case seta a v =>
    obtain ⟨hne, -⟩ := h a v
    exact absurd rfl hne
  case adda a v =>
    obtain ⟨-, hne, -⟩ := h a v
    exact absurd rfl hne
  case setg v =>
    obtain ⟨-, -, hne, -⟩ := h 0 v
    exact absurd rfl hne
  case djnz a v =>
    obtain ⟨-, -, -, branches⟩ := h a v
    exact decide_eq_true (branches rfl)
  all_goals rfl

/-- Where a raced byte decided what runs, or set the gain of an INV, all of the output is raced. -/
theorem State.raced_raceAfter_of_steered {s : State} {i : Instr} (h : (s.steeredBy i || (usesGain i && s.race.gain)) = true)
    (b : Nat) :
    (s.raceAfter i).Raced b ↔ s.race.Raced b ∨ (outputOperand i s).span.holds b = true := by
  have hr : (s.raceAfter i).raced = addSpan (outputOperand i s).span s.race.raced := if_pos h
  rw [RaceLog.Raced, hr, any_addSpan_holds, Bool.or_eq_true, or_comm, RaceLog.Raced]

/-- An operand of a command that may run does not wrap. -/
theorem State.Ready.operand_end_lt {i : Instr} {s : State} (h : s.Ready i) (hp : Config.legalParams s.hw = true) {o : Operand}
    (ho : o ∈ operandTable i s) : o.base.toNat + o.len < 2 ^ 32 := by
  have := lmemSize_of_legalParams hp
  have := o.base.isLt
  rcases h.2 o ho with h | ⟨-, h⟩ <;> omega

/-- Without a raced immediate no register comes to hold a value from raced bytes. -/
theorem racedRegs_false_nil (i : Instr) : racedRegs false [] i = [] := by cases i <;> rfl

/-- Without a raced immediate SYNGAIN does not come to hold one either. -/
theorem racedGain_false_false (i : Instr) : racedGain false false i = false := by cases i <;> rfl

namespace State.CleanCommand

variable {s : State} {i : Instr}

/-- No part of the word at pc is raced. -/
theorem word (h : s.CleanCommand) {off len : Nat} (hl : off + len ≤ 8) : ¬∃ b, s.race.Raced b ∧ Among s.pc off len b := by
  obtain ⟨hw, -⟩ := h
  rintro ⟨b, hb, ha⟩
  exact hw b (by unfold Among at ha ⊢; omega) hb

theorem immediate (h : s.CleanCommand) : Span.meetsAny ⟨s.pc.toNat + 4, 4⟩ s.race.raced = false := by
  rw [Bool.eq_false_iff, Ne, Span.meetsAny_raced_iff]
  exact h.word (by decide)

theorem steeredBy (h : s.CleanCommand) : s.steeredBy i = false := by
  obtain ⟨-, hregs, -, hs⟩ := id h
  rw [Bool.eq_false_iff, Ne, State.steeredBy_iff]
  rintro (hsteered | hopcode | ⟨-, himmediate⟩ | ⟨a, ha, -⟩)
  · exact absurd (hs.symm.trans hsteered) nofun
  · exact h.word (by decide) hopcode
  · exact h.word (by decide) himmediate
  · rw [hregs] at ha
    cases ha

/-- A clean command leaves no register and no gain from raced bytes. -/
theorem raceAfter (h : s.CleanCommand) :
    (s.raceAfter i).regs = [] ∧ (s.raceAfter i).gain = false ∧ (s.raceAfter i).steered = false := by
  obtain ⟨-, hregs, hgain, -⟩ := id h
  simp only [State.raceAfter, h.immediate, hregs, hgain, h.steeredBy, racedRegs_false_nil, racedGain_false_false, and_self]

/-- A clean command races what its flows do. -/
theorem raced (h : s.CleanCommand) : (s.raceAfter i).raced = racedBy (isVectorCommand i) (flowsOf i s) s.race.raced := by
  obtain ⟨-, -, hgain, -⟩ := id h
  exact if_neg (by simp [h.steeredBy, hgain])

/-- The bytes that each clean command races (R98). -/
theorem racesOf (h : s.CleanCommand) (hp : Config.legalParams s.hw = true) (hr : isDataCommand i = true → s.Ready i) :
    RacesOf i s s.race (s.raceAfter i) := by
  have hraced := h.raced (i := i)
  have fits (hd : isDataCommand i = true) {o : Operand} (ho : o ∈ operandTable i s) : o.base.toNat + o.len < 2 ^ 32 :=
    (hr hd).operand_end_lt hp ho
  cases i
  case nop | halt | init | seta | adda | jmp | djnz | setg | windump =>
    intro b
    rw [RaceLog.Raced, hraced]
    rfl
  case comp a b c | pqnt a b c | expd a b c | pdeq a b c =>
    exact racesEach_of_elementFlows (fits rfl (.head _)) (fits rfl (.tail _ (.head _))) hraced
  case rfft a b => exact racesFrom_of_feeds hraced (feeds_rfft a b s)
  case irfft a b => exact racesFrom_of_feeds hraced (feeds_irfft a b s)
  case fwd a b c => exact racesFrom_of_feeds hraced (feeds_fwd a b c s)
  case inv a b pv nv =>
    intro y
    rw [raced_iff_feeds hraced]
    simp only [feeds_inv, exists_and_halves]
    rfl

end State.CleanCommand

/-- A raced immediate that SETA or ADDA puts into a register, or SETG into SYNGAIN, is on record there. -/
theorem State.raceAfter_of_immediate {s : State} {i : Instr} (h : ∃ b, s.race.Raced b ∧ Among s.pc 4 4 b) :
    (∀ a v, i = .seta a v ∨ i = .adda a v → a ∈ (s.raceAfter i).regs) ∧ ∀ v, i = .setg v → (s.raceAfter i).gain = true := by
  rw [← Span.meetsAny_raced_iff] at h
  refine ⟨?_, ?_⟩
  · rintro a v (rfl | rfl) <;> simp [State.raceAfter, racedRegs, h]
  · rintro v rfl
    exact h

/-- Settles O60: accesses during a run by the host port's rules, the run's end byte by byte, a command's record by its flows. -/
theorem racedBytesAreFree : Obligations.RacedBytesAreFree := by
  refine ⟨?accesses, fun s => ?runEnd, fun i s hp hr => ?command⟩
  case accesses =>
    intro s off width ts ho hb hw hal a ha
    have hk := (memoryAccessOk_iff _ _).2 ⟨hw, hal⟩
    obtain ⟨hn, -⟩ := bytes_of_width hw
    refine ⟨fun h => ?read, fun v h => ?write⟩
    case read =>
      exact ⟨_, _, step_read_memory_busy ho hb hk ha h, rfl, rfl, s.toNat_memRead hn, rfl, fun j hj => HostRead.pending_byte _ hn hj⟩
    case write =>
      refine ⟨_, step_write_memory h ho hk (State.hostWriteMemory_busy ha hb), rfl, fun j hj => ?_, fun b hb => ?_⟩
      · exact State.byte_of_redrawSpan_inside (s := s) (p := ⟨a, width / 8⟩) rfl (by simp [Span.holds, hj])
      · exact State.byte_of_redrawSpan_outside (s := s) (p := ⟨a, width / 8⟩) rfl rfl ((Span.holds_eq_false_iff _ _).2 hb)
  case runEnd =>
    refine ⟨fun a ha => s.byte_endRun_raced ha, fun a ha => s.byte_endRun_calm (Bool.eq_false_of_not_eq_true ha), ?_,
      fun k r hk hl => ⟨_, s.raceReads_endRun_getElem? hk, ?_, fun j hj => HostRead.settled_byte _ r hl hj⟩, fun h => ?_⟩
    · simp
    · rintro rfl h
      exact s.rdata_endRun_of_lastRead hk h
    · simp [h]
  case command =>
    refine ⟨fun b => ?_, rfl, rfl, fun h => ⟨h.racesOf hp hr, h.raceAfter⟩, fun h => ?_, fun h => ?_, fun h a b pv nv hi => ?_,
      State.raceAfter_of_immediate⟩
    · rw [State.raceAfter_wrote, any_addSpan_holds, Bool.or_eq_true, or_comm]
    · rw [State.raceAfter_steered, State.steeredBy_iff]
      rcases h with h | h | h | ⟨h, hi⟩
      · exact .inl h
      · exact .inr (.inl h)
      · exact .inr (.inr (.inr h))
      · exact .inr (.inr (.inl ⟨immediateDecides_of_ne hi, h⟩))
    · exact State.raced_raceAfter_of_steered (by rw [← State.raceAfter_steered, h, Bool.true_or])
    · exact State.raced_raceAfter_of_steered (by simp [hi, usesGain, h])

end Sys2Proof.Machine
end

section
/-! Command words (spec/30_encoding.md R110 to R117). Each format keeps the fields it uses and the word of those fields is the word
without its reserved bits; both round trips and the decoder's errors follow. -/

namespace Sys2Proof

/-! ### The fields of a word -/

theorem regBits_toFin_eq (v : BitVec 3) : regBits v.toFin = v := by
  revert v; decide

/-- Unpacking gives back what was packed: the fields of R110 do not overlap. -/
theorem fieldsOf_packFields (op : Byte) (f : Fields) : fieldsOf (packFields op f) = f := by
  have register {lo : Nat} (r : Reg) (h : ∀ i < 3, (packFields op f).getLsbD (lo + i) = (regBits r).getLsbD i) :
      ((packFields op f).extractLsb' lo 3).toFin = r := by
    rw [extractLsb'_eq_of_getLsbD h, regBits_toFin]
  have imm : (packFields op f).extractLsb' 32 32 = f.imm :=
    extractLsb'_eq_of_getLsbD fun i _ => by grind [getLsbD_packFields]
  simp only [fieldsOf]
  rw [register f.ra, register f.rb, register f.rc, imm, getLsbD_packFields, getLsbD_packFields]
  · rfl
  all_goals exact fun i hi => by grind [getLsbD_packFields]

/-! ### The bits a format reserves -/

/-- The reserved-zero bits of a format as fields, each by its lowest bit and its width (R111). -/
def Format.reservedFields : Format → List (Nat × Nat)
  | .n => [(8, 56)]
  | .i => [(11, 21)]
  | .j => [(8, 24)]
  | .r1 => [(11, 53)]
  | .r2 => [(14, 50)]
  | .r3 => [(17, 47)]
  | .rf => [(14, 3), (19, 13), (32, 32)]

theorem getLsbD_reservedMask (fmt : Format) {b : Nat} (hb : b < 64) :
    (reservedMask fmt).getLsbD b = fmt.reservedFields.any fun p => decide (p.1 ≤ b ∧ b < p.1 + p.2) := by
  cases fmt <;> (revert b; decide)

theorem extractLsb'_eq_zero_iff (w : Command) (lo n : Nat) :
    w.extractLsb' lo n = 0 ↔ ∀ b, lo ≤ b ∧ b < lo + n → w.getLsbD b = false := by
  refine ⟨fun h b hb => ?_, fun h => extractLsb'_eq_of_getLsbD fun i hi => ?_⟩
  · have hz : (w.extractLsb' lo n).getLsbD (b - lo) = false := by rw [h]; simp
    rw [BitVec.getLsbD_extractLsb', Nat.add_sub_cancel' hb.1] at hz
    simpa [show b - lo < n by omega] using hz
  · rw [h _ (by omega)]
    simp

/-- The decoder's test of a format's mask asks for zeros in its reserved fields. -/
theorem and_reservedMask_eq_zero_iff (w : Command) (fmt : Format) :
    w &&& reservedMask fmt = 0#64 ↔ ∀ p ∈ fmt.reservedFields, w.extractLsb' p.1 p.2 = 0 := by
  simp only [extractLsb'_eq_zero_iff]
  constructor
  · intro h p hp b hb
    by_cases hl : b < 64
    · have hz : (w &&& reservedMask fmt).getLsbD b = false := by rw [h]; simp
      have hm : (reservedMask fmt).getLsbD b = true := by
        rw [getLsbD_reservedMask fmt hl]
        exact List.any_eq_true.2 ⟨p, hp, decide_eq_true hb⟩
      simpa [hm] using hz
    · exact BitVec.getLsbD_of_ge w b (by omega)
  · intro h
    refine BitVec.eq_of_getLsbD_eq fun b hb => ?_
    suffices hw : (reservedMask fmt).getLsbD b = true → w.getLsbD b = false by
      cases hm : (reservedMask fmt).getLsbD b <;> simp_all
    intro hm
    rw [getLsbD_reservedMask fmt hb, List.any_eq_true] at hm
    obtain ⟨p, hp, hin⟩ := hm
    exact h p hp b (of_decide_eq_true hin)

/-! ### The fields a format uses -/

/-- The operand fields with 0 in those a format does not use (R111). -/
def Format.keep (fmt : Format) (f : Fields) : Fields :=
  match fmt with
  | .n => ⟨0, 0, 0, false, false, 0⟩
  | .i => ⟨f.ra, 0, 0, false, false, f.imm⟩
  | .j => ⟨0, 0, 0, false, false, f.imm⟩
  | .r1 => ⟨f.ra, 0, 0, false, false, 0⟩
  | .r2 => ⟨f.ra, f.rb, 0, false, false, 0⟩
  | .r3 => ⟨f.ra, f.rb, f.rc, false, false, 0⟩
  | .rf => ⟨f.ra, f.rb, 0, f.pv, f.nv, 0⟩

/-- Packing the fields a format uses clears exactly the bits it reserves. -/
theorem packFields_keep_fieldsOf (fmt : Format) (w : Command) :
    packFields (opField w) (fmt.keep (fieldsOf w)) = w &&& ~~~reservedMask fmt := by
  refine BitVec.eq_of_getLsbD_eq fun b hb => ?_
  rw [getLsbD_packFields, BitVec.getLsbD_and, BitVec.getLsbD_not, getLsbD_reservedMask fmt hb]
  have hzero : regBits 0 = 0 := rfl
  cases fmt <;>
    simp only [Format.keep, fieldsOf, opField, Format.reservedFields, regBits_toFin_eq, hzero, List.any_cons, List.any_nil,
      BitVec.getLsbD_extractLsb'] <;>
    grind

/-- A word with no reserved bit set is the word of its opcode and the fields its format uses. -/
theorem packFields_keep_eq_self_iff (fmt : Format) (w : Command) :
    packFields (opField w) (fmt.keep (fieldsOf w)) = w ↔ w &&& reservedMask fmt = 0#64 := by
  rw [packFields_keep_fieldsOf]
  constructor
  · intro h
    rw [← h, BitVec.and_assoc, BitVec.and_comm (~~~_), BitVec.and_not_self]
    exact BitVec.and_zero
  · intro h
    calc w &&& ~~~reservedMask fmt = (w &&& ~~~reservedMask fmt) ||| (w &&& reservedMask fmt) := by rw [h]; simp
      _ = w := by rw [← BitVec.and_or_distrib_left, BitVec.or_comm, BitVec.or_not_self, BitVec.and_allOnes]

/-! ### Opcodes and commands -/

theorem exists_commandOf {op : Byte} {fmt : Format} (h : formatOf op = some fmt) (f : Fields) : ∃ i, commandOf op f = some i := by
  unfold formatOf at h
  split at h
  case h_18 => cases h
  all_goals exact ⟨_, rfl⟩

/-- A command has the opcode it was decoded from, and the fields its format uses. -/
theorem commandOf_eq_some {op : Byte} {f : Fields} {i : Instr} (h : commandOf op f = some i) :
    opcodeOf i = op ∧ ∃ fmt, formatOf op = some fmt ∧ operandFields i = fmt.keep f := by
  unfold commandOf at h
  split at h <;> cases h <;> exact ⟨rfl, _, rfl, rfl⟩

theorem commandOf_opcodeOf (i : Instr) : commandOf (opcodeOf i) (operandFields i) = some i := by
  cases i <;> rfl

/-! ### What the decoder answers -/

/-- Each of the decoder's answers, with what it takes (R115). -/
theorem decodeWord_cases (w : Command) :
    (formatOf (opField w) = none ∧ decodeWord w = .error .illegalOp) ∨
    ∃ fmt, formatOf (opField w) = some fmt ∧
      ((w &&& reservedMask fmt ≠ 0#64 ∧ decodeWord w = .error .reservedBits) ∨
        (w &&& reservedMask fmt = 0#64 ∧ ∃ i, commandOf (opField w) (fieldsOf w) = some i ∧ decodeWord w = .ok i)) := by
  unfold decodeWord
  cases hf : formatOf (opField w) with
  | none => exact .inl ⟨rfl, rfl⟩
  | some fmt =>
    refine .inr ⟨fmt, rfl, ?_⟩
    obtain ⟨i, hi⟩ := exists_commandOf hf (fieldsOf w)
    by_cases hm : w &&& reservedMask fmt = 0#64
    · exact .inr ⟨hm, i, hi, by simp only [hi]; exact if_pos hm⟩
    · exact .inl ⟨hm, if_neg hm⟩

theorem decodeWord_eq_ok_iff {w : Command} {i : Instr} :
    decodeWord w = .ok i ↔
      ∃ fmt, formatOf (opField w) = some fmt ∧ w &&& reservedMask fmt = 0#64 ∧ commandOf (opField w) (fieldsOf w) = some i := by
  rcases decodeWord_cases w with ⟨hf, hd⟩ | ⟨fmt, hf, ⟨hm, hd⟩ | ⟨hm, j, hj, hd⟩⟩
  · simp [hf, hd]
  · simp [hf, hd, hm]
  · simp [hf, hd, hm, hj]

theorem decodeWord_eq_illegalOp_iff {w : Command} : decodeWord w = .error .illegalOp ↔ formatOf (opField w) = none := by
  rcases decodeWord_cases w with ⟨hf, hd⟩ | ⟨fmt, hf, ⟨-, hd⟩ | ⟨-, j, -, hd⟩⟩ <;> simp [hf, hd]

theorem decodeWord_eq_reservedBits_iff {w : Command} :
    decodeWord w = .error .reservedBits ↔ ∃ fmt, formatOf (opField w) = some fmt ∧ w &&& reservedMask fmt ≠ 0#64 := by
  rcases decodeWord_cases w with ⟨hf, hd⟩ | ⟨fmt, hf, ⟨hm, hd⟩ | ⟨hm, j, -, hd⟩⟩
  · simp [hf, hd]
  · simp [hf, hd, hm]
  · simp [hf, hd, hm]

/-- The decoder gives the word of a command back as that command. -/
theorem decodeWord_encodeWord (i : Instr) : decodeWord (encodeWord i) = .ok i := by
  have hop : opField (encodeWord i) = opcodeOf i := opField_packFields _ _
  have hf : fieldsOf (encodeWord i) = operandFields i := fieldsOf_packFields _ _
  obtain ⟨-, fmt, hfmt, hkeep⟩ := commandOf_eq_some (commandOf_opcodeOf i)
  refine decodeWord_eq_ok_iff.2 ⟨fmt, hop ▸ hfmt, (packFields_keep_eq_self_iff fmt _).1 ?_, ?_⟩
  · rw [hop, hf, ← hkeep, encodeWord]
  · rw [hop, hf, commandOf_opcodeOf]

/-- A whole command at the head of a list of bytes is decoded as its word, and the rest is handed back. -/
theorem decode_leBytes_append (w : Command) (rest : List Byte) :
    decode (leBytes 8 w.toNat ++ rest) = (decodeWord w).map (·, rest) := by
  have hlen : (leBytes 8 w.toNat).length = 8 := Machine.length_leBytes 8 _
  have hw : leNat (leBytes 8 w.toNat) = w.toNat := by
    rw [Machine.leNat_leBytes, Nat.mod_eq_of_lt (by simpa using w.isLt)]
  rw [decode, if_neg (by simp [hlen]), List.take_left' hlen, List.drop_left' hlen, hw, BitVec.ofNat_toNat, BitVec.setWidth_eq]
  cases decodeWord w <;> rfl

/-- Settles O2: the bytes give the word, and the word its command. -/
theorem decodeEncode : Obligations.DecodeEncode := by
  intro i rest
  rw [encode, decode_leBytes_append, decodeWord_encodeWord]
  rfl

/-- Settles O3: the command has the word's opcode and the fields its format uses, and the word has no other bit set. -/
theorem acceptedWordReencodes : Obligations.AcceptedWordReencodes := by
  intro w i h
  obtain ⟨fmt, hfmt, hclear, hcmd⟩ := decodeWord_eq_ok_iff.1 h
  obtain ⟨hop, fmt', hfmt', hfields⟩ := commandOf_eq_some hcmd
  obtain rfl : fmt = fmt' := Option.some.inj (hfmt.symm.trans hfmt')
  rw [encodeWord, hop, hfields, (packFields_keep_eq_self_iff fmt w).2 hclear]

/-! ### What the decoder rejects -/

/-- The unassigned opcodes (R116). -/
theorem formatOf_eq_none_iff (op : Byte) :
    formatOf op = none ↔ op.toNat = 0x03 ∨ (0x09 ≤ op.toNat ∧ op.toNat ≤ 0x0F) ∨ 0x19 ≤ op.toNat := by
  revert op; decide

/-- The opcodes of each format (R114). -/
theorem formatOf_eq_some_iff (op : Byte) (fmt : Format) :
    formatOf op = some fmt ↔
      match fmt with
      | .n => op.toNat ≤ 0x02
      | .i => op.toNat = 0x04 ∨ op.toNat = 0x05 ∨ op.toNat = 0x07
      | .j => op.toNat = 0x06 ∨ op.toNat = 0x08
      | .r1 => op.toNat = 0x10
      | .r2 => op.toNat = 0x13 ∨ op.toNat = 0x14
      | .r3 => op.toNat = 0x11 ∨ op.toNat = 0x12 ∨ op.toNat = 0x15 ∨ op.toNat = 0x16 ∨ op.toNat = 0x17
      | .rf => op.toNat = 0x18 := by
  cases fmt <;> (revert op; decide)

theorem Format.exists_iff {p : Format → Prop} :
    (∃ fmt, p fmt) ↔ p .n ∨ p .i ∨ p .j ∨ p .r1 ∨ p .r3 ∨ p .r2 ∨ p .rf := by
  constructor
  · rintro ⟨fmt, h⟩
    cases fmt <;> simp [h]
  · rintro (h | h | h | h | h | h | h) <;> exact ⟨_, h⟩

/-- Settles O4: the answers of the decoder, with the opcodes and the reserved fields of each format. -/
theorem decodeErrorsExactly : Obligations.DecodeErrorsExactly := by
  intro w op illegal reserved
  have hop : op = (opField w).toNat := rfl
  have hillegal : decodeWord w = .error .illegalOp ↔ illegal := by
    rw [decodeWord_eq_illegalOp_iff, formatOf_eq_none_iff, ← hop]
  have hreserved : decodeWord w = .error .reservedBits ↔ reserved := by
    rw [decodeWord_eq_reservedBits_iff, Format.exists_iff]
    simp only [Ne, and_reservedMask_eq_zero_iff, formatOf_eq_some_iff, ← hop, Format.reservedFields, List.forall_mem_cons,
      List.not_mem_nil, IsEmpty.forall_iff, implies_true, and_true, not_and_or, reserved]
  refine ⟨hillegal, hreserved, fun hi hr => ?_⟩
  rcases decodeWord_cases w with ⟨-, hd⟩ | ⟨fmt, -, ⟨-, hd⟩ | ⟨-, i, -, hd⟩⟩
  · exact absurd (hillegal.1 hd) hi
  · exact absurd (hreserved.1 hd) hr
  · exact ⟨i, hd⟩

/-! ### The encoder's formula -/

theorem toNat_append_eq_add {m n : Nat} (x : BitVec m) (y : BitVec n) : (x ++ y).toNat = x.toNat * 2 ^ n + y.toNat := by
  rw [BitVec.toNat_append, ← Nat.shiftLeft_add_eq_or_of_lt y.isLt, Nat.shiftLeft_eq]

theorem toNat_regBits (r : Reg) : (regBits r).toNat = r.val :=
  Nat.mod_eq_of_lt r.isLt

theorem toNat_packFields (op : Byte) (f : Fields) :
    (packFields op f).toNat =
      op.toNat + f.ra.val * 2 ^ 8 + f.rb.val * 2 ^ 11 + f.rc.val * 2 ^ 14 + f.pv.toNat * 2 ^ 17 + f.nv.toNat * 2 ^ 18 +
        f.imm.toNat * 2 ^ 32 := by
  simp only [packFields, toNat_append_eq_add, toNat_regBits, BitVec.toNat_ofBool, BitVec.toNat_ofNat]
  omega

theorem getElem?_leBytes {n j : Nat} (h : j < n) (v : Nat) : (leBytes n v)[j]? = some (BitVec.ofNat 8 (v / 256 ^ j)) := by
  induction n generalizing j v with
  | zero => cases h
  | succ n ih =>
    cases j with
    | zero => simp [leBytes]
    | succ j => rw [leBytes, List.getElem?_cons_succ, ih (Nat.lt_of_succ_lt_succ h), Nat.div_div_eq_div_mul, pow_succ']

/-- Settles O5: the fields are laid end to end, and so are the bytes. -/
theorem encoderFormulaHolds : Obligations.EncoderFormulaHolds := by
  intro i
  refine ⟨toNat_packFields _ _, Machine.length_leBytes 8 _, fun j hj => ?_⟩
  rw [encode, getElem?_leBytes hj, show (256 : Nat) ^ j = 2 ^ (8 * j) from (pow_mul 2 8 j).symm]
  simp [BitVec.extractLsb', Nat.shiftRight_eq_div_pow]

/-! ### The worked encodings -/

/-- Settles O1: the word of each line's command and its bytes are those of the table; the decoder gives the command back. -/
theorem workedEncodingsAgree : Obligations.WorkedEncodingsAgree := by
  intro row hrow
  suffices h : ∃ i, row.1.assemble 0 = some i ∧ encodeWord i = row.2.1 ∧ encode i = row.2.2 by
    obtain ⟨i, hi, hw, hb⟩ := h
    exact ⟨i, hi, hw, hb, hw ▸ decodeWord_encodeWord i⟩
  simp only [List.mem_cons, List.not_mem_nil, or_false] at hrow
  rcases hrow with rfl | rfl | rfl | rfl | rfl | rfl | rfl | rfl | rfl | rfl <;> exact ⟨_, rfl, rfl, rfl⟩

end Sys2Proof
end

section
/-! NOT_CONFIGURED is every data command's first cause and no other command's (spec/30_encoding.md R114, spec/60_exceptions.md R280, R281). -/

namespace Sys2Proof.Machine

/-- A command that needs no CFGOK leaves the error registers alone, but for an INIT that fails, which has a cause of its own (R201). -/
theorem exec_control_errCause {i : Instr} {s t : State} (hd : isDataCommand i = false) (h : exec i s = .next t) :
    t.errCause = s.errCause ∨ t.errCause = .cfgBlocksize ∨ t.errCause = .cfgMethod ∨ t.errCause = .cfgWindow ∨ t.errCause = .cfgParam := by
  cases i
  case init =>
    rcases execInit_cases h with ⟨c, hc, rfl⟩ | ⟨m, win, k, -, -, -, -, -, rfl⟩
    · exact .inr hc
    · exact .inl rfl
  case djnz a v =>
    simp only [exec, execDjnz] at h
    split at h <;> (injection h with h; subst h; exact .inl rfl)
  case nop | halt | seta | adda | jmp | setg => injection h with h; subst h; exact .inl rfl
  all_goals exact absurd hd nofun

/-- Settles O9: the configuration is the data command's first test, and the other commands' causes are INIT's. -/
theorem notConfiguredComesFirst : Obligations.NotConfiguredComesFirst := by
  refine fun i s => ⟨fun hd hc => ?data, fun hd hs t h => ?other⟩
  case data =>
    obtain ⟨ins, out, effect, he, -⟩ := exec_eq_dataCommand i s hd
    rw [he, dataCommand_notConfigured hc]
  case other =>
    rcases exec_control_errCause hd h with hk | hk | hk | hk | hk
    · exact hk ▸ hs
    all_goals rw [hk]; exact nofun

end Sys2Proof.Machine
end

section
/-! The control commands (spec/40_control.md R142 to R148), each by the one state it answers and by its word, and the step they run in
(R140, R309). -/

namespace Sys2Proof

/-- The word of a command with one register and an immediate (R111). -/
theorem toNat_packFields_imm (op : Byte) (ra : Reg) (imm : Word) :
    (packFields op ⟨ra, 0, 0, false, false, imm⟩).toNat = op.toNat + ra.val * 2 ^ 8 + imm.toNat * 2 ^ 32 := by
  simp [toNat_packFields]

/-- The word of a command with an immediate alone (R111). -/
theorem toNat_packFields_imm_alone (op : Byte) (imm : Word) :
    (packFields op ⟨0, 0, 0, false, false, imm⟩).toNat = op.toNat + imm.toNat * 2 ^ 32 := by
  simp [toNat_packFields]

end Sys2Proof

namespace Sys2Proof.Machine

/-! ### What each command answers -/

section

variable (s : State) (ra : Reg) (imm : Word)

theorem exec_nop : exec .nop s = .next { s with pc := s.pc + 8 } := rfl

theorem exec_halt : exec .halt s = .next { s with pc := s.pc + 8, status := { s.status with busy := false, done := true } } := rfl

theorem exec_seta : exec (.seta ra imm) s = .next { s with regs := s.regs.set ra imm, pc := s.pc + 8 } := rfl

theorem exec_adda : exec (.adda ra imm) s = .next { s with regs := s.regs.set ra (s.x ra + imm), pc := s.pc + 8 } := rfl

theorem exec_jmp : exec (.jmp imm) s = .next { s with pc := imm } := rfl

theorem exec_setg : exec (.setg imm) s = .next { s with syngain := imm, pc := s.pc + 8 } := rfl

end

section

variable {s : State} {ra : Reg} (imm : Word)

/-- A DJNZ whose counter comes to 0 falls through. -/
theorem exec_djnz_of_eq_one (h : s.x ra = 1) :
    exec (.djnz ra imm) s = .next { s with regs := s.regs.set ra 0, pc := s.pc + 8 } := by
  have ht : s.x ra - 1 = 0 := by rw [h]; rfl
  show execDjnz ra imm s = _
  rw [execDjnz, ht]
  rfl

/-- A DJNZ whose counter does not come to 0 branches. -/
theorem exec_djnz_of_ne_one (h : s.x ra ≠ 1) :
    exec (.djnz ra imm) s = .next { s with regs := s.regs.set ra (s.x ra - 1), pc := imm } :=
  if_neg fun ht => h (by bv_omega)

end

/-! ### The obligations of the commands -/

/-- Settles O13: NOP's answer, and the decoder's reserved field of NOP's format. -/
theorem nopAdvances : Obligations.NopAdvances := by
  refine ⟨exec_nop, rfl, rfl, fun w hop hres => decodeWord_eq_reservedBits_iff.2 ⟨.n, ?_, ?_⟩⟩
  · rw [show opField w = 0 from hop]
    rfl
  · rw [Ne, and_reservedMask_eq_zero_iff]
    exact fun h => hres (h (8, 56) (.head _))

/-- Settles O14: HALT's answer; DONE alone raises IRQ, and the START behind it finds an idle engine. -/
theorem haltEndsRun : Obligations.HaltEndsRun := by
  refine ⟨rfl, fun s => ⟨_, exec_halt s, rfl, ?_, rfl, rfl⟩⟩
  show (s.irqen && (true || s.status.err)) = s.irqen
  rw [Bool.true_or, Bool.and_true]

/-- Settles O15: SETA's answer and its word. -/
theorem setaLoads : Obligations.SetaLoads := fun ra imm s => ⟨exec_seta s ra imm, toNat_packFields_imm _ ra imm⟩

/-- Settles O16: the sum mod 2^32 does not see whether the immediate was read with a sign. -/
theorem addaAdds : Obligations.AddaAdds := by
  refine fun ra imm s => ⟨⟨_, exec_adda s ra imm, BitVec.toNat_add _ _, ?_⟩, toNat_packFields_imm _ ra imm⟩
  rw [BitVec.ofInt_add, BitVec.ofInt_toInt, BitVec.ofInt_natCast, BitVec.ofNat_toNat, BitVec.setWidth_eq]

/-- A fault of the fetch is the engine's whole step. -/
theorem engineStep_of_fetchDecode_error {s t : State} (h : fetchDecode s = .error t) : engineStep s = .next t.endRun := by
  rw [engineStep, h]

/-- Settles O17: JMP does not look at its target; the fetch there does. -/
theorem jmpSetsPc : Obligations.JmpSetsPc := by
  intro imm s
  refine ⟨exec_jmp s imm, toNat_packFields_imm_alone _ imm, fun ha => ?align, fun ha he => ?range⟩
  case align =>
    exact ⟨_, engineStep_of_fetchDecode_error (fetchDecode_misaligned (s := { s with pc := imm }) ha), rfl, rfl, rfl⟩
  case range =>
    exact ⟨_, engineStep_of_fetchDecode_error (fetchDecode_pastEnd (s := { s with pc := imm }) ha he), rfl, rfl, rfl⟩

/-- Settles O18: the counter at 1, at 0, where it wraps, and above 1. -/
theorem djnzCountsDown : Obligations.DjnzCountsDown := by
  intro ra imm s
  refine ⟨fun h => ?one, fun h => ?zero, fun h => ?above, toNat_packFields_imm _ ra imm⟩
  case one => exact exec_djnz_of_eq_one imm (BitVec.eq_of_toNat_eq h)
  case zero =>
    have hx : s.x ra = 0 := BitVec.eq_of_toNat_eq h
    rw [exec_djnz_of_ne_one imm (by rw [hx]; decide), hx]
    rfl
  case above =>
    have hx : s.x ra - 1 = BitVec.ofNat 32 ((s.x ra).toNat - 1) := by bv_omega
    rw [exec_djnz_of_ne_one imm (by bv_omega), hx]

/-- Settles O19: SETG's answer, which looks at no flag. -/
theorem setgStoresGain : Obligations.SetgStoresGain := fun imm s => ⟨exec_setg s imm, toNat_packFields_imm_alone _ imm⟩

/-! ### START -/

/-- A START while idle (R141). -/
theorem State.writeCtrl_start_idle {s : State} {v : Word} (hb : s.status.busy = false) (h0 : v.getLsbD 0 = true)
    (h2 : v.getLsbD 2 = false) :
    s.writeCtrl v =
      { s with
        irqen := v.getLsbD 1
        status := { s.status with done := false, err := false, busy := true }
        errCause := .none
        errPc := 0
        errAddr := 0
        errCmdL := 0
        errCmdH := 0 } := by
  simp only [State.writeCtrl, State.start, h0, h2, hb, Bool.false_eq_true, if_false, if_true]

/-- Settles O57: the write to CTRL, by whether the engine is idle. -/
theorem startBeginsRun : Obligations.StartBeginsRun := by
  intro s v ts h h0 h2
  rw [step_write_register h (by decide) (by decide)]
  exact ⟨fun hb => congrArg _ (State.writeCtrl_start_idle (s := { s with turns := ts }) hb h0 h2),
    fun hb => congrArg _ (State.writeCtrl_start_busy (s := { s with turns := ts }) hb h0 h2)⟩

/-! ### The step -/

/-- INIT answers, whichever of its checks fails (R200, R201). -/
theorem execInit_next (s : State) : ∃ t, execInit s = .next t := by
  unfold execInit
  repeat' split
  all_goals exact ⟨_, rfl⟩

/-- Every command has a next state in every state (R140, R282). -/
theorem exec_next (i : Instr) (s : State) : ∃ t, exec i s = .next t := by
  by_cases hd : isDataCommand i = true
  · obtain ⟨ins, out, effect, he, -⟩ := exec_eq_dataCommand i s hd
    rw [he]
    exact dataCommand_next i ins out effect s
  cases i
  case init => exact execInit_next s
  case djnz ra imm =>
    by_cases h : s.x ra = 1
    · exact ⟨_, exec_djnz_of_eq_one imm h⟩
    · exact ⟨_, exec_djnz_of_ne_one imm h⟩
  case nop | halt | seta | adda | jmp | setg => exact ⟨_, rfl⟩
  all_goals exact absurd rfl hd

/-- The record of races is the step's and no command's (R98). -/
theorem exec_race {i : Instr} {s t : State} (h : exec i s = .next t) : t.race = s.race := by
  cases exec_executes h <;> rfl

theorem State.follow_of_busy {s t : State} {i : Instr} (h : t.status.busy = true) :
    s.follow i t = { t with race := s.raceAfter i } := if_pos h

theorem State.follow_of_idle {s t : State} {i : Instr} (h : t.status.busy = false) : s.follow i t = t.endRun := if_neg (by simp [h])

/-- Settles O6: the fetched command answers, and the step is its answer with what follows for the races. -/
theorem stepRunsDecoded : Obligations.StepRunsDecoded := by
  intro s ts ht u
  rw [step_of_engineTurn ht]
  refine ⟨fun hb ha he i rest hd => ?runs, fun hb => ?idle⟩
  case runs =>
    obtain ⟨t, hx⟩ := exec_next i u
    have hf : fetchDecode u = .ok i := fetchDecode_ok ha he ((congrArg decode (State.bytesAt_turns s ts _ 8)).trans hd)
    refine ⟨t, hx, (if_pos hb).trans (engineStep_ok hf hx), fun hon => ⟨State.follow_of_busy hon, State.raceAfter_calm⟩,
      fun hoff => ⟨State.follow_of_idle hoff, fun hr => ?_⟩⟩
    rw [State.follow_of_idle hoff, State.endRun_of_noRaces ((exec_race hx).trans hr)]
  case idle => exact if_neg (by simp [hb])

end Sys2Proof.Machine
end

section
/-! The quantizer (spec/41_companding.md R160): its four cases, and the bounds of the last one, for which rounding and so the product with
65535.0 is monotone. -/

namespace Sys2Proof.Machine

/-! ### Rounding is monotone -/

theorem rneBits_mono {p p' q : Nat} (hq : 0 < q) (h : p ≤ p') : rneBits p q ≤ rneBits p' q := by
  obtain ⟨hle, hinf, near⟩ := roundToNearestEven p q hq
  obtain ⟨-, hinf', near'⟩ := roundToNearestEven p' q hq
  rcases h.eq_or_lt with rfl | hlt
  · exact le_rfl
  by_contra hgt
  rw [Nat.not_le] at hgt
  have hfin' : rneBits p' q < 0x7F800000 := by omega
  have hfin : rneBits p q < 0x7F800000 := by
    refine lt_of_le_of_ne hle fun e => hfin'.ne ?_
    exact hinf'.2 ((hinf.1 e).trans h)
  have hmag : magUnits (BitVec.ofNat 32 (rneBits p' q)) * q < magUnits (BitVec.ofNat 32 (rneBits p q)) * q :=
    Nat.mul_lt_mul_of_pos_right (magUnits_ofNat_strictMono hgt (by omega)) hq
  have hp := (near hfin _ hfin').1
  have hp' := (near' hfin' _ hfin).1
  dsimp only at hp hp'
  generalize magUnits (BitVec.ofNat 32 (rneBits p' q)) * q = a at *
  generalize magUnits (BitVec.ofNat 32 (rneBits p q)) * q = b at *
  omega

theorem magUnits_le_of_magBits_le {x y : F32} (h : magBits x ≤ magBits y) : magUnits x ≤ magUnits y := by
  have hmag (z : F32) : magUnits (BitVec.ofNat 32 (magBits z)) = magUnits z := by
    have hz : magBits (BitVec.ofNat 32 (magBits z)) = magBits z := by
      simp only [magBits, BitVec.toNat_ofNat]
      omega
    simp only [magUnits, hz]
  rw [← hmag x, ← hmag y]
  exact magUnits_mono h (Nat.mod_lt _ (by norm_num))

theorem not_isInf_of_isFinite {v : F32} (h : isFinite v = true) : isInf v = false := by
  simp only [isFinite, isInf, decide_eq_true_eq, decide_eq_false_iff_not] at *
  omega

/-- The magnitude of a finite product is the rounded product of the magnitudes. -/
theorem magBits_fmul {a b : F32} (ha : isFinite a = true) (hb : isFinite b = true) :
    magBits (fmul a b) = rneBits (magUnits a * magUnits b) (2 ^ 149 * 2 ^ 149) := by
  rw [fmul, not_isNaN_of_isFinite ha, not_isNaN_of_isFinite hb, not_isInf_of_isFinite ha, not_isInf_of_isFinite hb]
  exact magBits_withSign _ (lt_of_le_of_lt (rneBits_le _ _) (by decide))

theorem floorNat_fmul_mono {a b c : F32} (hb : isFinite b = true) (hc : isFinite c = true) (h : magBits a ≤ magBits b) :
    floorNat (fmul a c) ≤ floorNat (fmul b c) := by
  have ha : isFinite a = true := by
    rw [isFinite, decide_eq_true_eq] at hb ⊢
    exact lt_of_le_of_lt h hb
  refine Nat.div_le_div_right (magUnits_le_of_magBits_le ?_)
  rw [magBits_fmul ha hc, magBits_fmul hb hc]
  exact rneBits_mono (by positivity) (Nat.mul_le_mul_right _ (magUnits_le_of_magBits_le h))

/-! ### The order -/

/-- Two values that are not NaN compare one way or the other. -/
theorem flt_eq_false_iff {a b : F32} (ha : isNaN a = false) (hb : isNaN b = false) : flt a b = false ↔ fle b a = true := by
  simp [flt, fle, ha, hb]

theorem magBits_le_of_fle {a b : F32} (h0 : fle zero32 a = true) (h : fle a b = true) : magBits a ≤ magBits b := by
  obtain ⟨-, -, h0⟩ := (fle_iff zero32 a).1 h0
  obtain ⟨-, -, h⟩ := (fle_iff a b).1 h
  rw [show orderKey zero32 = 0 from rfl] at h0
  have ha : (magBits a : Int) = orderKey a := by
    rw [orderKey] at h0 ⊢
    split_ifs at h0 ⊢ <;> omega
  have hb : orderKey b ≤ magBits b := by
    rw [orderKey]
    split_ifs <;> omega
  omega

theorem fle_trans {a b c : F32} (h : fle a b = true) (k : fle b c = true) : fle a c = true := by
  obtain ⟨ha, -, h⟩ := (fle_iff a b).1 h
  obtain ⟨-, hc, k⟩ := (fle_iff b c).1 k
  exact (fle_iff a c).2 ⟨ha, hc, h.trans k⟩

/-! ### The cases of Q -/

theorem quantize_of_below {y : F32} (h : flt y zero32 = true) : quantize y = ⟨0, false, true⟩ := by
  obtain ⟨hn, -⟩ := (flt_iff y zero32).1 h
  simp [quantize, hn, h]

theorem quantize_of_above {y : F32} (h : flt one32 y = true) : quantize y = ⟨65535, false, true⟩ := by
  obtain ⟨-, hn, hk⟩ := (flt_iff one32 y).1 h
  have h0 : flt y zero32 = false := (flt_eq_false_iff hn rfl).2 ((fle_iff zero32 y).2 ⟨rfl, hn, le_trans (by decide) hk.le⟩)
  simp [quantize, hn, h0, h]

theorem quantize_of_inRange {y : F32} (h0 : fle zero32 y = true) (h1 : fle y one32 = true) :
    quantize y = ⟨BitVec.ofNat 16 (floorNat (fmul y 0x477FFF00#32)), false, false⟩ := by
  obtain ⟨-, hn, -⟩ := (fle_iff zero32 y).1 h0
  simp [quantize, hn, (flt_eq_false_iff hn rfl).2 h0, (flt_eq_false_iff rfl hn).2 h1]

/-- In [0, 1] the product with 65535.0 is at most that of 1, so the code holds its floor. -/
theorem toNat_code_of_inRange {y : F32} (h0 : fle zero32 y = true) (h1 : fle y one32 = true) :
    (quantize y).code.toNat = floorNat (fmul y 0x477FFF00#32) := by
  have hmax : floorNat (fmul y 0x477FFF00#32) ≤ floorNat (fmul one32 0x477FFF00#32) :=
    floorNat_fmul_mono rfl rfl (magBits_le_of_fle h0 h1)
  rw [show floorNat (fmul one32 0x477FFF00#32) = 65535 by decide +kernel] at hmax
  rw [quantize_of_inRange h0 h1]
  exact Nat.mod_eq_of_lt (by omega)

/-- From RNE(1/65535) on the code is not 0. -/
theorem lt_of_code_eq_zero {y : F32} (h : (quantize y).code = 0) (hn : isNaN y = false) : flt y 0x37800080#32 = true := by
  by_contra hy
  rw [Bool.not_eq_true, flt_eq_false_iff hn rfl] at hy
  have h0 : fle zero32 y = true := fle_trans (by decide) hy
  cases habove : flt one32 y with
  | true =>
    rw [quantize_of_above habove] at h
    exact absurd h (by decide)
  | false =>
    have h1 : fle y one32 = true := (flt_eq_false_iff rfl hn).1 habove
    have hfin : isFinite y = true := decide_eq_true (lt_of_le_of_lt (magBits_le_of_fle h0 h1) (by decide))
    have hmin : floorNat (fmul 0x37800080#32 0x477FFF00#32) ≤ floorNat (fmul y 0x477FFF00#32) :=
      floorNat_fmul_mono hfin rfl (magBits_le_of_fle (by decide) hy)
    rw [← toNat_code_of_inRange h0 h1, h] at hmin
    exact absurd hmin (by decide +kernel)

/-- NAN is set for a NaN, SAT for a value below 0 or above 1. -/
theorem quantize_flags (y : F32) : (quantize y).nan = isNaN y ∧ (quantize y).sat = (flt y zero32 || flt one32 y) := by
  cases hn : isNaN y
  · cases h0 : flt y zero32 <;> cases h1 : flt one32 y <;> simp [quantize, hn, h0, h1]
  · simp [quantize_of_isNaN y hn, flt_of_isNaN, hn]

/-- Settles O41, by the cases of Q; the corner cases are evaluated. -/
theorem quantizerClampsAndFlags : Obligations.QuantizerClampsAndFlags := by
  refine ⟨fun y => ⟨quantize_of_isNaN y, quantize_of_below, quantize_of_above, fun h0 h1 => ?inRange, lt_of_code_eq_zero,
    fun s => ?flags⟩, ?corners⟩
  case inRange =>
    have h := quantize_of_inRange h0 h1
    exact ⟨toNat_code_of_inRange h0 h1, congrArg Quantized.nan h, congrArg Quantized.sat h⟩
  case flags =>
    obtain ⟨hnan, hsat⟩ := quantize_flags y
    rw [State.stick, hnan, hsat, ← Bool.or_assoc]
    rfl
  case corners => decide +kernel

end Sys2Proof.Machine
end

section
/-! The companding curves of the active method (spec/41_companding.md R161 to R169): compression and expansion, method by method. -/

namespace Sys2Proof.Machine

/-! ### Compression -/

theorem State.compress_mu {s : State} (h : methodOf s.acfg = some .mu) (x : F32) :
    s.compress x = cMu s.hw.num s.consts s.acparam0 x := by
  simp only [State.compress, h]

theorem State.compress_uv {s : State} (h : methodOf s.acfg = some .uv) (x : F32) : s.compress x = cUv s.consts x := by
  simp only [State.compress, h]

theorem State.compress_sq {s : State} (h : methodOf s.acfg = some .sq) (x : F32) : s.compress x = cSq s.consts.k x := by
  simp only [State.compress, h]

theorem cSq_one (x : F32) : cSq 1 x = x := rfl

/-- One K more is one square root more. -/
theorem cSq_add_two (j : Nat) (x : F32) : cSq (j + 2) x = fsqrt (cSq (j + 1) x) := rfl

/-- Settles O26, method by method. -/
theorem compressFollowsCurve : Obligations.CompressFollowsCurve := by
  intro s x
  refine ⟨State.compress_mu (x := x), State.compress_uv (x := x), fun h => ⟨fun hk => ?_, fun j hk => ?_⟩⟩
  · rw [State.compress_sq h, hk, cSq_one]
  · rw [State.compress_sq h, State.compress_sq (s := { s with consts := { s.consts with k := j + 1 } }) h, hk, cSq_add_two]

/-! ### Expansion -/

/-- With CFGOK set the LUT is the one INIT builds for the active method (R168). -/
theorem State.TablesLatched.buildLut_eq {s : State} (h : s.TablesLatched) (hc : s.status.cfgok = true) {m : Method}
    (hm : methodOf s.acfg = some m) : s.lut = buildLut m s.consts s.acparam0 s.lut := by
  obtain ⟨m', -, hm', -, -, -, -, -, -, hlut⟩ := h hc
  obtain rfl : m' = m := Option.some.inj (hm'.symm.trans hm)
  exact hlut.symm

/-- A table-backed method expands by its table (R168). -/
theorem State.expand_of_lut {s : State} {t : Lut} (h : s.lut = t) (hm : methodOf s.acfg = some .mu ∨ methodOf s.acfg = some .uv)
    (r : Code) : s.expand r = lutEntry s.hw.num t r := by
  rcases hm with hm | hm <;> simp only [State.expand, hm, h]

theorem State.expand_sq {s : State} (h : methodOf s.acfg = some .sq) (r : Code) : s.expand r = eSq s.consts.k (yin r) := by
  simp only [State.expand, h]

/-- Settles O27: what INIT put in the table is the curve at Yin(r). -/
theorem expandIsCurve : Obligations.ExpandIsCurve := by
  intro s r hc hl
  refine ⟨fun hm => ?mu, fun hm => ?uv, fun hm => State.expand_sq hm r⟩
  case mu => exact State.expand_of_lut (hl.buildLut_eq hc hm) (.inl hm) r
  case uv => exact State.expand_of_lut (hl.buildLut_eq hc hm) (.inr hm) r

end Sys2Proof.Machine
end

section
/-! The vector commands element by element (spec/20_memory.md R103, spec/41_companding.md R170, R171, spec/44_forward.md R240,
spec/45_backward.md R261): the passes of the loop are the machines between the elements, and where source and destination share no byte
each element is the image of the source as it was before the command. -/

namespace Sys2Proof.Machine

/-! ### Each element in its turn -/

/-- After n passes NAN and SAT have collected the quantizations of the elements, each as its pass found it (R34). -/
theorem iter_quantizeElement_status (curve : F32 → F32) (src dst : Word) (n : Nat) (s : State) :
    let q (i : Nat) := quantize (curve ((iter (quantizeElement curve src dst) i s).readF32 (element src 4 i)))
    (iter (quantizeElement curve src dst) n s).status =
      { s.status with
        nan := s.status.nan || (List.range n).any fun i => (q i).nan
        sat := s.status.sat || (List.range n).any fun i => (q i).sat } := by
  induction n with
  | zero => simp [iter]
  | succ n ih =>
    obtain ⟨-, status, -⟩ := quantizeElement_spec curve src dst n (iter (quantizeElement curve src dst) n s)
    rw [iter, status, ih]
    simp [List.range_succ, Bool.or_assoc]

theorem quantizesEach_iter (curve : F32 → F32) (src dst : Word) (n : Nat) (s : State) :
    QuantizesEach curve src dst n s (dataDone (iter (quantizeElement curve src dst) n) s) := by
  have status := iter_quantizeElement_status curve src dst n s
  refine ⟨fun i => iter (quantizeElement curve src dst) i s, rfl, fun i _ => ?_, State.byte_advance _, congrArg Status.nan status,
    congrArg Status.sat status⟩
  obtain ⟨code, -, bytes, -⟩ := quantizeElement_spec curve src dst i (iter (quantizeElement curve src dst) i s)
  exact ⟨code, fun a ha => bytes a ((Span.holds_eq_false_iff _ a).1 ha)⟩

theorem expandsEach_iter (curve : Code → F32) (src dst : Word) (n : Nat) (s : State) :
    ExpandsEach curve src dst n s (dataDone (iter (expandElement curve src dst) n) s) := by
  obtain ⟨l, rest⟩ := iter_expandElement_rest curve src dst n s
  refine ⟨fun i => iter (expandElement curve src dst) i s, rfl, fun i _ => ?_, State.byte_advance _, by rw [dataDone, rest]; rfl⟩
  obtain ⟨value, bytes, -⟩ := expandElement_spec curve src dst i (iter (expandElement curve src dst) i s)
  exact ⟨value, fun a ha => bytes a ((Span.holds_eq_false_iff _ a).1 ha)⟩

/-- A data command that may run does its effect, inside the frame of its output operand. -/
theorem exec_ready_frame {i : Instr} {ins : List Operand} {out : Operand} {effect : State → State} {s : State}
    (hp : Config.legalParams s.hw = true) (hd : isDataCommand i = true) (hr : s.Ready i)
    (he : exec i s = dataCommand i ins out effect s) (ht : ins ++ [out] = operandTable i s) :
    exec i s = .next (dataDone effect s) ∧ DataFrame (outputOperand i s) s (dataDone effect s) := by
  obtain ⟨t, h, frame, -⟩ := dataCommandsComplete i s hp hd hr
  obtain rfl := exec_ready hr h he ht
  exact ⟨h, frame⟩

/-- Settles O24: the elements by the passes of the loop, the frame as of every data command. -/
theorem compWritesCodes : Obligations.CompWritesCodes := by
  intro ra rb rc s hp hr
  obtain ⟨h, frame⟩ := exec_ready_frame hp rfl hr rfl rfl
  exact ⟨_, h, quantizesEach_iter _ _ _ _ s, frame⟩

/-- Settles O25: as for O24, with the passes that expand. -/
theorem expdWritesValues : Obligations.ExpdWritesValues := by
  intro ra rb rc s hp hr
  obtain ⟨h, frame⟩ := exec_ready_frame hp rfl hr rfl rfl
  exact ⟨_, h, expandsEach_iter _ _ _ _ s, frame⟩

/-! ### Source and destination that share no byte -/

/-- m i is the machine before element i of n, and element i writes its `size` bytes of dst and no other. -/
def WritesElements (dst : Word) (size n : Nat) (m : Nat → State) : Prop :=
  ∀ i < n, ∀ a, Span.holds ⟨(element dst size i).toNat, size⟩ a = false → (m (i + 1)).byte a = (m i).byte a

namespace WritesElements

variable {src dst : Word} {inSize size n : Nat} {m : Nat → State}

/-- Elements i to j - 1 leave every byte outside their part of the destination alone. -/
theorem byte_eq (h : WritesElements dst size n m) (hw : dst.toNat + size * n < 2 ^ 32) {i j : Nat} (hij : i ≤ j) (hj : j ≤ n) {a : Nat}
    (ha : a < dst.toNat + size * i ∨ dst.toNat + size * j ≤ a) : (m j).byte a = (m i).byte a := by
  induction j, hij using Nat.le_induction with
  | base => rfl
  | succ j hij ih =>
    have below := Nat.mul_le_mul_left size hij
    have inside := Nat.mul_le_mul_left size hj
    rw [Nat.mul_succ] at ha inside
    have hb : (element dst size j).toNat = dst.toNat + size * j := toNat_element (by omega)
    rw [h j hj a ((Span.holds_eq_false_iff _ a).2 (by simp only [hb]; omega)), ih (by omega) (by omega)]

/-- Element i finds the source as it was before the command. -/
theorem byte_source (h : WritesElements dst size n m) (hw : dst.toNat + size * n < 2 ^ 32) (hs : src.toNat + inSize * n < 2 ^ 32)
    (hm : Span.meets ⟨src.toNat, inSize * n⟩ ⟨dst.toNat, size * n⟩ = false) {i : Nat} (hi : i < n) {a : Nat}
    (h1 : (element src inSize i).toNat ≤ a) (h2 : a < (element src inSize i).toNat + inSize) : (m i).byte a = (m 0).byte a := by
  have inside := Nat.mul_le_mul_left inSize hi
  have below := Nat.mul_le_mul_left size hi
  rw [Nat.mul_succ] at inside below
  rw [toNat_element (by omega)] at h1 h2
  simp only [Span.meets, Bool.and_eq_false_iff, decide_eq_false_iff_not] at hm
  exact h.byte_eq hw (Nat.zero_le i) hi.le (by omega)

/-- What element i wrote is there at the end. -/
theorem byte_destination (h : WritesElements dst size n m) (hw : dst.toNat + size * n < 2 ^ 32) {i : Nat} (hi : i < n) {a : Nat}
    (h2 : a < (element dst size i).toNat + size) : (m n).byte a = (m (i + 1)).byte a := by
  have inside := Nat.mul_le_mul_left size hi
  rw [Nat.mul_succ] at inside
  rw [toNat_element (by omega)] at h2
  exact h.byte_eq hw hi le_rfl (by rw [Nat.mul_succ]; omega)

end WritesElements

theorem QuantizesEach.readCodes_eq {curve : F32 → F32} {src dst : Word} {n : Nat} {s t : State} (h : QuantizesEach curve src dst n s t)
    (hs : src.toNat + 4 * n < 2 ^ 32) (hd : dst.toNat + 2 * n < 2 ^ 32)
    (hm : Span.meets ⟨src.toNat, 4 * n⟩ ⟨dst.toNat, 2 * n⟩ = false) :
    t.readCodes dst n = (s.readSamples src n).map fun v => (quantize (curve v)).code := by
  obtain ⟨m, rfl, elements, final, -, -⟩ := h
  have writes : WritesElements dst 2 n m := fun i hi => (elements i hi).2
  rw [State.readCodes, State.readSamples, List.map_map]
  refine List.map_congr_left fun i hi => ?_
  rw [List.mem_range] at hi
  calc t.readU16 (element dst 2 i) = (m (i + 1)).readU16 (element dst 2 i) :=
        State.readU16_congr fun a _ h2 => (final a).trans (writes.byte_destination hd hi h2)
    _ = (quantize (curve ((m i).readF32 (element src 4 i)))).code := (elements i hi).1
    _ = (quantize (curve ((m 0).readF32 (element src 4 i)))).code := by
        rw [State.readF32_congr fun a h1 h2 => writes.byte_source hd hs hm hi h1 h2]

theorem ExpandsEach.readSamples_eq {curve : Code → F32} {src dst : Word} {n : Nat} {s t : State} (h : ExpandsEach curve src dst n s t)
    (hs : src.toNat + 2 * n < 2 ^ 32) (hd : dst.toNat + 4 * n < 2 ^ 32)
    (hm : Span.meets ⟨src.toNat, 2 * n⟩ ⟨dst.toNat, 4 * n⟩ = false) :
    t.readSamples dst n = (s.readCodes src n).map fun r => canon (curve r) := by
  obtain ⟨m, rfl, elements, final, -⟩ := h
  have writes : WritesElements dst 4 n m := fun i hi => (elements i hi).2
  rw [State.readCodes, State.readSamples, List.map_map]
  refine List.map_congr_left fun i hi => ?_
  rw [List.mem_range] at hi
  calc t.readF32 (element dst 4 i) = (m (i + 1)).readF32 (element dst 4 i) :=
        State.readF32_congr fun a _ h2 => (final a).trans (writes.byte_destination hd hi h2)
    _ = canon (curve ((m i).readU16 (element src 2 i))) := (elements i hi).1
    _ = canon (curve ((m 0).readU16 (element src 2 i))) := by
        rw [State.readU16_congr fun a h1 h2 => writes.byte_source hd hs hm hi h1 h2]

theorem canon_deq (r : Code) : canon (deq r) = deq r := canon_fdiv _ _

/-- Settles O37: what each command does element by element, read back as a whole. -/
theorem vectorsWithoutOverlap : Obligations.VectorsWithoutOverlap := by
  intro ra rb rc s hp n
  refine ⟨fun hr hm => ?comp, fun hr hm => ?pqnt, fun hr hm => ?expd, fun hr hm => ?pdeq⟩
  all_goals
    refine ⟨_, (exec_ready_frame hp rfl hr rfl rfl).1, ?_⟩
    have hs := hr.operand_end_lt hp (List.mem_cons_self ..)
    have hd := hr.operand_end_lt hp (List.mem_cons_of_mem _ (List.mem_cons_self ..))
  case comp | pqnt => exact (quantizesEach_iter _ _ _ n s).readCodes_eq hs hd hm
  case expd => exact (expandsEach_iter _ _ _ n s).readSamples_eq hs hd hm
  case pdeq =>
    rw [(expandsEach_iter _ _ _ n s).readSamples_eq hs hd hm]
    simp only [canon_deq]

end Sys2Proof.Machine
end

section
/-! The window and normalization tables (spec/42_window_init.md R190, R191, R203): their entries, and what WINDUMP writes of them. -/

namespace Sys2Proof.Machine

open Config (NumChoice)

/-! ### Entries -/

@[simp] theorem length_windowTable (num : NumChoice) (win : Window) (n : Nat) : (windowTable num win n).length = n := by
  simp [windowTable]

theorem getElem?_windowTable (num : NumChoice) (win : Window) {n i : Nat} (hi : i < n) :
    (windowTable num win n)[i]? = some (windowAt num win n i) := by
  simp [windowTable, hi]

/-- The second factor of R's zip is the list of squares turned by n/2. -/
theorem normTable_eq_zipWith_rotate {w : List F32} {n : Nat} (hw : w.length = n) :
    normTable w n =
      List.zipWith (fun a b => fdiv one32 (fadd a b)) (w.map fun v => fmul v v) ((w.map fun v => fmul v v).rotate (n / 2)) := by
  rw [List.rotate_eq_drop_append_take (by rw [List.length_map, hw]; exact Nat.div_le_self n 2)]
  rfl

theorem length_normTable {w : List F32} {n : Nat} (hw : w.length = n) : (normTable w n).length = n := by
  simp [normTable_eq_zipWith_rotate hw, hw]

theorem getElem?_normTable {w : List F32} {n i : Nat} {wi wj : F32} (hw : w.length = n) (hi : w[i]? = some wi)
    (hj : w[(i + n / 2) % n]? = some wj) : (normTable w n)[i]? = some (fdiv one32 (fadd (fmul wi wi) (fmul wj wj))) := by
  have hlt : i < (w.map fun v => fmul v v).length := by
    rw [List.length_map]
    exact (List.getElem?_eq_some_iff.1 hi).1
  rw [normTable_eq_zipWith_rotate hw, List.getElem?_zipWith, List.getElem?_rotate hlt, List.length_map, hw, List.getElem?_map,
    List.getElem?_map, hi, hj]
  rfl

/-- Both squares of a rectangular window are 1. -/
theorem rectangular_norm : fdiv one32 (fadd (fmul one32 one32) (fmul one32 one32)) = half32 := by decide +kernel

/-- Settles O22: W by its definition at i, R by the turned list at i. -/
theorem tablesFollowCurves : Obligations.TablesFollowCurves := by
  intro num win l _ n w r
  have hn : 0 < n := Nat.two_pow_pos l
  have hw : w.length = n := length_windowTable num win n
  refine ⟨hw, length_normTable hw, fun i hi => ?_⟩
  have hwi : w[i]? = some (windowAt num win n i) := getElem?_windowTable num win hi
  have hwj : w[(i + n / 2) % n]? = some (windowAt num win n ((i + n / 2) % n)) := getElem?_windowTable num win (Nat.mod_lt _ hn)
  have hr := getElem?_normTable hw hwi hwj
  refine ⟨hwi.trans ?curve, _, _, hwi, hwj, hr, ?half⟩
  case curve => cases win <;> rfl
  case half =>
    rintro rfl
    exact hr.trans (congrArg some rectangular_norm)

/-! ### WINDUMP -/

/-- Reading all entries of a list by a default gives the list. -/
theorem map_range_getD {α : Type} {l : List α} {n : Nat} (hl : l.length = n) (d : Nat → α) :
    (List.range n).map (fun i => l.getD i (d i)) = l := by
  subst hl
  refine List.ext_getElem (by simp) fun i _ hi => ?_
  simp [hi]

/-- With CFGOK set the tables have N entries each, so the dump is the two of them. -/
theorem State.TablesLatched.dumpedTables_eq {s : State} (h : s.TablesLatched) (hc : s.status.cfgok = true) :
    s.dumpedTables = s.w ++ s.r := by
  obtain ⟨-, win, -, -, -, -, hw, hr, -, -⟩ := h hc
  have lw : s.w.length = s.aN := by rw [hw, length_windowTable]
  have lr : s.r.length = s.aN := by rw [hr, length_normTable lw]
  exact congrArg₂ (· ++ ·) (map_range_getD lw _) (map_range_getD lr _)

/-- Settles O23: the run of samples WINDUMP writes, read back, inside the frame of its operand. -/
theorem windumpWritesTables : Obligations.WindumpWritesTables := by
  intro ra s hp ht hr
  obtain ⟨h, frame⟩ := exec_ready_frame hp rfl hr (exec_windump ra s) rfl
  refine ⟨_, h, ?read, ?status, frame⟩
  case read =>
    have fits : (s.x ra).toNat + 8 * s.aN < 2 ^ 32 := hr.operand_end_lt hp (List.mem_cons_self ..)
    rw [← ht.dumpedTables_eq hr.1, ← length_dumpedTables]
    exact State.readSamples_writeSamples s (by rw [length_dumpedTables]; omega)
  case status => rw [dataDone, State.writeSamples_eq]; rfl

end Sys2Proof.Machine
end

section
/-! INIT (spec/42_window_init.md R200, R201): the validity tests of the methods (spec/41_companding.md R163 to R165) as the rules say them,
and what INIT answers in each case. -/

namespace Sys2Proof.Machine

open Config (NumChoice)

/-! ### The order of the finite values -/

theorem magUnits_ofNat_magBits (x : F32) : magUnits (BitVec.ofNat 32 (magBits x)) = magUnits x := by
  have h : magBits (BitVec.ofNat 32 (magBits x)) = magBits x := by
    simp only [magBits, BitVec.toNat_ofNat]
    omega
  simp only [magUnits, h]

theorem magUnits_lt_of_magBits_lt {x y : F32} (h : magBits x < magBits y) : magUnits x < magUnits y := by
  rw [← magUnits_ofNat_magBits x, ← magUnits_ofNat_magBits y]
  exact magUnits_ofNat_strictMono h (Nat.mod_lt _ (by norm_num))

theorem magBits_le_iff (x y : F32) : magBits x ≤ magBits y ↔ magUnits x ≤ magUnits y :=
  ⟨magUnits_le_of_magBits_le, fun h => Nat.le_of_not_lt fun hlt => absurd (magUnits_lt_of_magBits_lt hlt) (Nat.not_lt.2 h)⟩

theorem magBits_eq_zero_iff (x : F32) : magBits x = 0 ↔ magUnits x = 0 := by
  have h := magBits_le_iff x zero32
  rwa [show magBits zero32 = 0 from rfl, show magUnits zero32 = 0 from rfl, Nat.le_zero, Nat.le_zero] at h

/-- Finite values are ordered as the numbers they stand for. -/
theorem fle_iff_units {x y : F32} (hx : isFinite x = true) (hy : isFinite y = true) : fle x y = true ↔ units x ≤ units y := by
  have hle := magBits_le_iff x y
  have hge := magBits_le_iff y x
  have hx0 := magBits_eq_zero_iff x
  have hy0 := magBits_eq_zero_iff y
  rw [fle_iff, not_isNaN_of_isFinite hx, not_isNaN_of_isFinite hy, orderKey, orderKey, units, units]
  simp only [true_and]
  split_ifs <;> omega

/-- Only the zeros compare equal to 0. -/
theorem feq_zero (x : F32) : feq x 0 = isZero x := by
  rw [Bool.eq_iff_iff]
  constructor
  · intro h
    simp only [feq, Bool.and_eq_true, decide_eq_true_eq] at h
    obtain ⟨-, h⟩ := h
    rw [show orderKey 0 = 0 from rfl, orderKey] at h
    rw [isZero, decide_eq_true_eq]
    split_ifs at h <;> omega
  · intro h
    have hn := not_isNaN_of_isZero h
    rw [isZero, decide_eq_true_eq] at h
    rw [feq, hn, orderKey, h]
    cases signBit x <;> rfl

/-! ### The validity tests -/

theorem muConsts_eq_some_iff {num : NumChoice} {p0 p1 : F32} {old k : CurveConsts} :
    muConsts num p0 old = some k ↔ DerivedConsts num .mu p0 p1 old k := by
  simp only [muConsts, DerivedConsts, Option.ite_none_right_eq_some, Option.some.injEq, Bool.and_eq_true, and_assoc, eq_comm (b := k)]
  rfl

theorem uvConsts_eq_some_iff {num : NumChoice} {u v : F32} {old k : CurveConsts} :
    uvConsts u v old = some k ↔ DerivedConsts num .uv u v old k := by
  simp only [uvConsts, DerivedConsts, Option.ite_none_right_eq_some, Option.some.injEq, Bool.and_eq_true, Bool.not_eq_true', and_assoc,
    feq_zero, List.forall_mem_cons, List.not_mem_nil, false_implies, implies_true, and_true, eq_comm (b := k)]
  rfl

/-- The whole numbers 1 to 64, as their bits are tested and as they are counted in units. -/
theorem isIntegral_one_to_64_iff {x : F32} {n : Nat} (hx : isFinite x = true) :
    (isIntegral x = true ∧ fle one32 x = true ∧ fle x 0x42800000#32 = true ∧ floorNat x = n) ↔
      1 ≤ n ∧ n ≤ 64 ∧ units x = n * 2 ^ 149 := by
  rw [fle_iff_units rfl hx, fle_iff_units hx rfl, show units one32 = 2 ^ 149 by decide +kernel,
    show units 0x42800000#32 = 64 * 2 ^ 149 by decide +kernel, isIntegral, decide_eq_true_eq, floorNat]
  rcases units_eq_or x with h | h <;> rw [h] <;> omega

theorem sqConsts_eq_some_iff {num : NumChoice} {p0 p1 : F32} {old k : CurveConsts} :
    sqConsts p0 old = some k ↔ DerivedConsts num .sq p0 p1 old k := by
  simp only [sqConsts, DerivedConsts, Option.ite_none_right_eq_some, Option.some.injEq, Bool.and_eq_true, and_assoc]
  refine and_congr_right fun hf => ⟨?test, ?count⟩
  case test =>
    rintro ⟨hi, h1, h64, rfl⟩
    obtain ⟨hn, hn', hu⟩ := (isIntegral_one_to_64_iff hf).1 ⟨hi, h1, h64, rfl⟩
    exact ⟨_, hn, hn', hu, rfl⟩
  case count =>
    rintro ⟨n, hn, hn', hu, rfl⟩
    obtain ⟨hi, h1, h64, rfl⟩ := (isIntegral_one_to_64_iff hf).2 ⟨hn, hn', hu⟩
    exact ⟨hi, h1, h64, rfl⟩

/-- The constants INIT finds are those the rules derive (R163 to R165). -/
theorem curveConsts_eq_some_iff {num : NumChoice} {m : Method} {p0 p1 : F32} {old k : CurveConsts} :
    curveConsts num m p0 p1 old = some k ↔ DerivedConsts num m p0 p1 old k := by
  cases m with
  | mu => exact muConsts_eq_some_iff
  | uv => exact uvConsts_eq_some_iff
  | sq => exact sqConsts_eq_some_iff

theorem curveConsts_eq_none_iff {num : NumChoice} {m : Method} {p0 p1 : F32} {old : CurveConsts} :
    curveConsts num m p0 p1 old = none ↔ ¬∃ k, DerivedConsts num m p0 p1 old k := by
  simp only [← curveConsts_eq_some_iff, Option.eq_none_iff_forall_ne_some, not_exists, ne_eq]

/-! ### METHOD and WIN -/

theorem methodOf_eq_none_iff (cfg : Word) : methodOf cfg = none ↔ methodBits cfg = 3 := by
  rw [methodOf]
  generalize methodBits cfg = b
  revert b
  decide

theorem windowOf_eq_none_iff (cfg : Word) : windowOf cfg = none ↔ 6 ≤ (windowBits cfg).toNat := by
  rw [windowOf]
  generalize windowBits cfg = b
  revert b
  decide

/-! ### What INIT answers -/

/-- The block size is a legal one (R200). -/
def State.Sized (s : State) : Prop := 2 ≤ blkLog2 s.cfg ∧ blkLog2 s.cfg ≤ s.hw.maxLog2N

theorem State.sized_iff (s : State) :
    s.Sized ↔ ¬(blkLog2 s.cfg < Config.minLog2N ∨ s.hw.maxLog2N < blkLog2 s.cfg) := by
  rw [State.Sized, Config.minLog2N]
  omega

section

variable {s : State} {m : Method} {win : Window} {k : CurveConsts}

theorem exec_init_of_not_sized (h : ¬s.Sized) : exec .init s = .next (s.initFail .cfgBlocksize) :=
  if_pos (not_not.1 (mt s.sized_iff.2 h))

theorem exec_init_of_no_method (h : s.Sized) (hm : methodOf s.cfg = none) : exec .init s = .next (s.initFail .cfgMethod) := by
  rw [exec, execInit, if_neg (s.sized_iff.1 h), hm]

theorem exec_init_of_no_window (h : s.Sized) (hm : methodOf s.cfg = some m) (hw : windowOf s.cfg = none) :
    exec .init s = .next (s.initFail .cfgWindow) := by
  rw [exec, execInit, if_neg (s.sized_iff.1 h), hm, hw]

theorem exec_init_of_no_consts (h : s.Sized) (hm : methodOf s.cfg = some m) (hw : windowOf s.cfg = some win)
    (hk : curveConsts s.hw.num m s.cparam0 s.cparam1 s.consts = none) : exec .init s = .next (s.initFail .cfgParam) := by
  rw [exec, execInit, if_neg (s.sized_iff.1 h), hm, hw]
  simp only [hk]

theorem exec_init_of_configures (h : s.Configures m win k) : exec .init s = .next (s.configure m win k).advance := by
  rw [exec, execInit, if_neg (s.sized_iff.1 ⟨h.minLog2N, h.maxLog2N⟩), h.method, h.window]
  simp only [h.consts]

end

/-- Settles O21, cause by cause. -/
theorem initFails : Obligations.InitFails := by
  refine fun s => ⟨fun c => rfl, exec_init_of_not_sized, fun h hm => ?method, fun h hm hw => ?window, fun h hw m hm hk => ?param⟩
  case method => exact exec_init_of_no_method h ((methodOf_eq_none_iff _).2 hm)
  case window =>
    obtain ⟨m, hm⟩ := Option.ne_none_iff_exists'.1 (mt (methodOf_eq_none_iff _).1 hm)
    exact exec_init_of_no_window h hm ((windowOf_eq_none_iff _).2 hw)
  case param =>
    obtain ⟨win, hw⟩ := Option.ne_none_iff_exists'.1 (mt (windowOf_eq_none_iff _).1 (Nat.not_le.2 hw))
    exact exec_init_of_no_consts h hm hw (curveConsts_eq_none_iff.2 hk)

/-- 8·N is a binary32 value for every block size. -/
theorem synGain_exact : ∀ l ≤ 16, let g := u2f (8 * ((2 ^ l : Nat) : Int)); units g = 8 * 2 ^ l * 2 ^ 149 ∧ isFinite g = true := by
  decide +kernel

theorem maxLog2N_of_legalParams {p : Config.Params} (h : Config.legalParams p = true) : p.maxLog2N ≤ 16 := by
  simp only [Config.legalParams, Bool.and_eq_true, decide_eq_true_eq] at h
  omega

/-- Settles O20: the premises are those of a successful INIT, and 8·N is exact. -/
theorem initConfigures : Obligations.InitConfigures := by
  intro s m win k hp h2 hmax hm hw hk
  obtain ⟨hgain, hfin⟩ := synGain_exact (blkLog2 s.cfg) (hmax.trans (maxLog2N_of_legalParams hp))
  refine ⟨_, hgain, hfin, (exec_init_of_configures ⟨h2, hmax, hm, hw, curveConsts_eq_some_iff.2 hk⟩).trans ?_⟩
  cases m <;> rfl

end Sys2Proof.Machine
end

section
/-! RFFT and IRFFT (spec/43_fft.md R225, R226): a transform gives canonical values alone, so what a command writes is what is read back.
Each command reads all its inputs in the machine it starts from. -/

namespace Sys2Proof.Machine

open Config (NumChoice)

theorem map_canonBin_numRfft (num : NumChoice) (n : Nat) (t : List F32) : (numRfft num n t).map canonBin = numRfft num n t :=
  (List.map_congr_left fun _ hz => canonBin_of_mem_numRfft hz).trans (List.map_id' _)

theorem map_canon_numIrfft (num : NumChoice) (n : Nat) (y : List Bin) : (numIrfft num n y).map canon = numIrfft num n y :=
  (List.map_congr_left fun _ hv => canon_of_mem_numIrfft hv).trans (List.map_id' _)

/-- The bins of a transform are read back from where they were written. -/
theorem State.readBins_writeBins_numRfft (s : State) {a : Word} {n : Nat} (num : NumChoice) (t : List F32)
    (hw : a.toNat + 8 * (n / 2 + 1) < 2 ^ 32) : (s.writeBins a (numRfft num n t)).readBins a (n / 2 + 1) = numRfft num n t := by
  have back := s.readBins_writeBins (a := a) (l := numRfft num n t) (by rwa [length_numRfft])
  rwa [length_numRfft, map_canonBin_numRfft] at back

/-- The samples of an inverse transform are read back from where they were written. -/
theorem State.readSamples_writeSamples_numIrfft (s : State) {a : Word} {n : Nat} (num : NumChoice) (y : List Bin)
    (hw : a.toNat + 4 * n < 2 ^ 32) : (s.writeSamples a (numIrfft num n y)).readSamples a n = numIrfft num n y := by
  have back := s.readSamples_writeSamples (a := a) (l := numIrfft num n y) (by rwa [length_numIrfft])
  rwa [length_numIrfft, map_canon_numIrfft] at back

/-- Settles O28: the bins RFFT writes, read back, inside the frame of its destination operand. -/
theorem rfftWritesBins : Obligations.RfftWritesBins := by
  intro ra rb s hp hr
  obtain ⟨h, frame⟩ := exec_ready_frame hp rfl hr (exec_rfft ra rb s) rfl
  refine ⟨_, h, ?bins, ?status, frame⟩
  case bins =>
    have fits : (s.x rb).toNat + 8 * (s.aN / 2 + 1) < 2 ^ 32 := hr.operand_end_lt hp (.tail _ (.head _))
    exact s.readBins_writeBins_numRfft s.hw.num _ fits
  case status => rw [dataDone, State.writeBins_eq]; rfl

/-- Settles O29: as for O28, with the samples IRFFT writes. -/
theorem irfftWritesSamples : Obligations.IrfftWritesSamples := by
  intro ra rb s hp hr
  obtain ⟨h, frame⟩ := exec_ready_frame hp rfl hr (exec_irfft ra rb s) rfl
  refine ⟨_, h, ?samples, ?status, frame⟩
  case samples =>
    have fits : (s.x rb).toNat + 4 * s.aN < 2 ^ 32 := hr.operand_end_lt hp (.tail _ (.head _))
    exact s.readSamples_writeSamples_numIrfft s.hw.num _ fits
  case status => rw [dataDone, State.writeSamples_eq]; rfl

end Sys2Proof.Machine
end

section
/-! The phase quantizer PQNT, the bin encoder and FWD (spec/44_forward.md R240 to R242). PQNT is a vector command like COMP, with the phase
map for its curve. A NaN goes through the phase map and through every compression curve, so a NaN magnitude makes the three codes of its
bin 0. FWD quantizes the whole row before it writes, and the flags it collects are the row's. -/

namespace Sys2Proof.Machine

/-- Settles O31: the passes of the loop with the phase map for their curve. -/
theorem pqntWritesCodes : Obligations.PqntWritesCodes := by
  intro ra rb rc s hp hr
  obtain ⟨h, frame⟩ := exec_ready_frame hp rfl hr rfl rfl
  exact ⟨_, h, quantizesEach_iter phaseMap _ _ _ s, frame⟩

/-! ### The bin encoder -/

theorem encodeBin_of_magnitude_ne_zero {curve : F32 → F32} {re im : F32} (h : feq (binMagnitude re im) zero32 = false) :
    encodeBin curve re im =
      (phaseQ (fdiv re (binMagnitude re im)), quantize (curve (binMagnitude re im)), phaseQ (fdiv im (binMagnitude re im))) :=
  if_neg (by simp [h])

theorem encodeBin_of_magnitude_eq_zero {curve : F32 → F32} {re im : F32} (h : feq (binMagnitude re im) zero32 = true) :
    encodeBin curve re im = (phaseQ zero32, quantize (curve (binMagnitude re im)), phaseQ zero32) := if_pos h

/-- The phase of a silent bin: 0.5 is quantized to the code below the middle (R240, R241). -/
theorem phaseQ_zero : phaseQ zero32 = ⟨32767, false, false⟩ := by decide +kernel

theorem phaseQ_of_isNaN {v : F32} (h : isNaN v = true) : phaseQ v = ⟨0, true, false⟩ := by
  have product : fmul half32 v = nan32 := fmul_of_isNaN half32 v (.inr h)
  have sum : phaseMap v = nan32 := by rw [phaseMap, product]; rfl
  exact quantize_of_isNaN _ (by rw [sum]; rfl)

theorem cMu_of_isNaN (num : Config.NumChoice) (k : CurveConsts) (p0 : F32) {x : F32} (h : isNaN x = true) : cMu num k p0 x = nan32 := by
  have product : fmul p0 x = nan32 := fmul_of_isNaN p0 x (.inr h)
  have sum : fadd one32 nan32 = nan32 := fadd_of_isNaN one32 nan32 (.inr rfl)
  have log : numLn num nan32 = nan32 := numLn_of_isNaN num nan32 rfl
  rw [cMu, product, sum, log, fdiv_of_isNaN nan32 k.kml (.inl rfl)]

theorem cUv_of_isNaN (k : CurveConsts) {x : F32} (h : isNaN x = true) : cUv k x = nan32 := by
  have linear : fmul k.gam x = nan32 := fmul_of_isNaN k.gam x (.inr h)
  rw [cUv, linear, fadd_of_isNaN _ nan32 (.inr rfl)]

/-- No square root takes a NaN away; for K ≤ 1, where there is none, the value itself is the NaN. -/
theorem cSq_of_isNaN (k : Nat) {x : F32} (h : isNaN x = true) : isNaN (cSq k x) = true :=
  iter_induction _ (fun y => isNaN y = true) h fun _ y _ hy => by rw [fsqrt_of_isNaN hy]; rfl

/-- Each of the three compression curves answers a NaN with a NaN (R13, R162, R166, R169). -/
theorem State.compress_of_isNaN {s : State} {x : F32} (hm : (methodOf s.acfg).isSome = true) (h : isNaN x = true) :
    isNaN (s.compress x) = true := by
  obtain ⟨m, hm⟩ := Option.isSome_iff_exists.1 hm
  cases m with
  | mu => rw [State.compress_mu hm, cMu_of_isNaN _ _ _ h]; rfl
  | uv => rw [State.compress_uv hm, cUv_of_isNaN _ h]; rfl
  | sq => rw [State.compress_sq hm]; exact cSq_of_isNaN _ h

/-- A NaN magnitude is not zero, so both phases are divided by it, and all three quantizations meet a NaN. -/
theorem encodeBin_of_magnitude_isNaN {curve : F32 → F32} {re im : F32} (h : isNaN (binMagnitude re im) = true)
    (hc : isNaN (curve (binMagnitude re im)) = true) :
    encodeBin curve re im = (⟨0, true, false⟩, ⟨0, true, false⟩, ⟨0, true, false⟩) := by
  have phase (v : F32) : phaseQ (fdiv v (binMagnitude re im)) = ⟨0, true, false⟩ :=
    phaseQ_of_isNaN (by rw [fdiv_of_isNaN _ _ (.inr h)]; rfl)
  rw [encodeBin_of_magnitude_ne_zero (feq_of_isNaN _ _ (.inl h)), phase, phase, quantize_of_isNaN _ hc]

/-- Settles O32: the two branches of the encoder, and the NaN bin through each curve. -/
theorem binEncoderNormalizes : Obligations.BinEncoderNormalizes := by
  refine fun s re im => ⟨encodeBin_of_magnitude_ne_zero, fun h => ?silent, fun h hm => ?nan⟩
  case silent => rw [encodeBin_of_magnitude_eq_zero h]; exact ⟨phaseQ_zero, rfl, phaseQ_zero⟩
  case nan => exact encodeBin_of_magnitude_isNaN h (State.compress_of_isNaN hm h)

/-! ### FWD -/

/-- Settles O33: the row as `encodeFrame` makes it is that of the statement, and its codes and flags are what FWD leaves. -/
theorem fwdWritesRow : Obligations.FwdWritesRow := by
  intro ra rb rc s hp hr n limit frame h row
  obtain ⟨hexec, hframe⟩ := exec_ready_frame hp rfl hr (exec_fwd ra rb rc s) rfl
  have hrow : s.encodeFrame (s.x ra) (sampleLimit (s.x rb) s.aN) s.aN = row := rfl
  have hlen : (pixelsOf row).length = s.aN / 2 + 1 := length_pixelsOf_encodeFrame s (s.x ra) (sampleLimit (s.x rb) s.aN) s.aN
  refine ⟨_, hexec, ?pixels, ?nan, ?sat, hframe⟩
  all_goals simp only [dataDone, hrow, State.stickRow_eq]
  case pixels =>
    have fits : (s.x rc).toNat + 6 * (s.aN / 2 + 1) < 2 ^ 32 := hr.operand_end_lt hp (.tail _ (.head _))
    have back := s.readPixels_writePixels (a := s.x rc) (l := pixelsOf row) (by rwa [hlen])
    rwa [hlen] at back
  case nan | sat => rw [State.writePixels_eq]; rfl

end Sys2Proof.Machine
end

section
/-! The phase decode (spec/45_backward.md R260): rounding changes no value that binary32 has, so neither a small integer nor its division
by a power of two is rounded. -/

namespace Sys2Proof.Machine

/-! ### Exact results are not rounded -/

theorem magUnits_ofNat_le_of_finite {c : Nat} (hc : c < infBits) : magUnits (BitVec.ofNat 32 c) ≤ (2 ^ 24 - 1) * 2 ^ 253 := by
  have greatest : magUnits (BitVec.ofNat 32 0x7F7FFFFF) = (2 ^ 24 - 1) * 2 ^ 253 := by decide +kernel
  rw [infBits] at hc
  exact greatest ▸ magUnits_mono (by omega) (by norm_num)

/-- A finite magnitude is its own rounding (R12). -/
theorem rneBits_eq_of_magUnits {p q c : Nat} (hq : 0 < q) (hc : c < infBits)
    (h : p * 2 ^ 149 = magUnits (BitVec.ofNat 32 c) * q) : rneBits p q = c := by
  obtain ⟨hle, hinf, near⟩ := roundToNearestEven p q hq
  have hfin : rneBits p q < 0x7F800000 := by
    refine lt_of_le_of_ne hle fun e => ?_
    have below := Nat.mul_le_mul_right q (magUnits_ofNat_le_of_finite hc)
    have above := hinf.1 e
    omega
  have hmag := (near hfin c hc).1
  dsimp only at hmag
  rw [h, sub_self, Int.natAbs_zero, Nat.le_zero, Int.natAbs_eq_zero, sub_eq_zero, Nat.cast_inj] at hmag
  rw [infBits] at hc
  exact (magUnits_ofNat_injective (by omega) (by omega) (Nat.eq_of_mul_eq_mul_right hq hmag)).symm

/-- A number of at most 24 bits times a power of two is a finite magnitude: shifted up to 24 bits it is a significand. -/
theorem exists_magnitude {n e : Nat} (hn : n < 2 ^ 24) (he : 23 ≤ e) (he' : e ≤ 253) :
    ∃ c < infBits, magUnits (BitVec.ofNat 32 c) = n * 2 ^ e := by
  rcases Nat.eq_zero_or_pos n with rfl | hpos
  · exact ⟨0, by decide, by rw [Nat.zero_mul]; rfl⟩
  have hlog : n.log2 < 24 := (Nat.log2_lt hpos.ne').2 hn
  have lower : 2 ^ 23 ≤ n * 2 ^ (23 - n.log2) := by
    calc 2 ^ 23 = 2 ^ n.log2 * 2 ^ (23 - n.log2) := by rw [← Nat.pow_add]; congr 1; omega
      _ ≤ n * 2 ^ (23 - n.log2) := Nat.mul_le_mul_right _ (Nat.log2_self_le hpos.ne')
  have upper : n * 2 ^ (23 - n.log2) < 2 ^ 24 := by
    calc n * 2 ^ (23 - n.log2) < 2 ^ (n.log2 + 1) * 2 ^ (23 - n.log2) :=
          Nat.mul_lt_mul_of_pos_right Nat.lt_log2_self (Nat.two_pow_pos _)
      _ = 2 ^ 24 := by rw [← Nat.pow_add]; congr 1; omega
  refine ⟨(e - (23 - n.log2)) * 2 ^ 23 + n * 2 ^ (23 - n.log2), by rw [infBits]; omega, ?_⟩
  rw [magUnits_grid upper.le (.inr lower) (by omega), Nat.mul_assoc, ← Nat.pow_add]
  congr 2
  omega

theorem signBit_withSign (neg : Bool) {b : Nat} (h : b < 2 ^ 31) : signBit (withSign neg b) = neg := by
  cases neg <;> simp [signBit, withSign, BitVec.msb_eq_decide] <;> omega

/-- v is the finite value i·2^e, in units of 2^-149, and not -0. -/
structure IsScaled (v : F32) (i : Int) (e : Nat) : Prop where
  finite : isFinite v = true
  sign : signBit v = decide (i < 0)
  magnitude : magUnits v = i.natAbs * 2 ^ e

namespace IsScaled

variable {v w : F32} {i : Int} {e : Nat}

theorem units_eq (h : IsScaled v i e) : units v = i * 2 ^ e := by
  have habs : ((i.natAbs * 2 ^ e : Nat) : Int) = |i| * 2 ^ e := by push_cast; rfl
  rw [units, h.sign, h.magnitude, habs]
  by_cases hi : i < 0
  · rw [if_pos (decide_eq_true hi), abs_of_neg hi, neg_mul, neg_neg]
  · rw [if_neg (by simpa using hi), abs_of_nonneg (not_lt.1 hi)]

/-- The sign bit says that i is negative, the magnitude of -0 that it is 0. -/
theorem ne_negZero (h : IsScaled v i e) : v ≠ 0x80000000#32 := by
  rintro rfl
  have hi : i < 0 := of_decide_eq_true h.sign.symm
  have h0 : 0 = i.natAbs * 2 ^ e := h.magnitude
  have := Nat.mul_pos (Int.natAbs_pos.2 hi.ne) (Nat.two_pow_pos e)
  omega

/-- An exact quotient of 24 bits is not rounded. -/
theorem of_rne {p q : Nat} (hq : 0 < q) (hi : i.natAbs < 2 ^ 24) (he : 23 ≤ e) (he' : e ≤ 253)
    (h : p * 2 ^ 149 = i.natAbs * 2 ^ e * q) : IsScaled (rne (decide (i < 0)) p q) i e := by
  obtain ⟨c, hc, hmag⟩ := exists_magnitude hi he he'
  have hb : rneBits p q = c := rneBits_eq_of_magUnits hq hc (by rw [hmag, h])
  have hlt : c < 2 ^ 31 := hc.trans (by decide)
  have hbits : magBits (withSign (decide (i < 0)) c) = c := magBits_withSign _ hlt
  rw [rne, hb]
  exact ⟨by rw [isFinite, hbits]; exact decide_eq_true hc, signBit_withSign _ hlt, by rw [← magUnits_ofNat_magBits, hbits, hmag]⟩

/-- An integer of 24 bits is converted exactly (R12). -/
theorem of_u2f (hi : i.natAbs < 2 ^ 24) : IsScaled (u2f i) i 149 :=
  of_rne (Nat.two_pow_pos 0) hi (by norm_num) (by norm_num) (by rw [Nat.pow_zero, Nat.mul_one])

/-- A division by 2^k is exact while the quotient keeps its 24 bits. -/
theorem fdiv_two_pow {k : Nat} (hv : IsScaled v i e) (hw : IsScaled w 1 (149 + k)) (hi : i.natAbs < 2 ^ 24) (he : 23 + k ≤ e)
    (he' : e ≤ 253) : IsScaled (fdiv v w) i (e - k) := by
  have hmag : magUnits w = 2 ^ (149 + k) := by rw [hw.magnitude, Int.natAbs_one, Nat.one_mul]
  have hzero : isZero w = false := by
    rw [isZero, decide_eq_false_iff_not, magBits_eq_zero_iff, hmag]
    exact (Nat.two_pow_pos _).ne'
  have hdiv : fdiv v w = rne (decide (i < 0)) (i.natAbs * 2 ^ e) (2 ^ (149 + k)) := by
    rw [fdiv, not_isNaN_of_isFinite hv.finite, not_isNaN_of_isFinite hw.finite, not_isInf_of_isFinite hv.finite,
      not_isInf_of_isFinite hw.finite, hzero, hv.sign, hw.sign, hv.magnitude, hmag]
    simp
  rw [hdiv]
  refine of_rne (Nat.two_pow_pos _) hi (by omega) (by omega) ?_
  rw [Nat.mul_assoc, Nat.mul_assoc, ← Nat.pow_add, ← Nat.pow_add]
  congr 2
  omega

end IsScaled

/-! ### The codes -/

theorem isScaled_deq (r : Code) : IsScaled (deq r) ((r.toNat : Int) - 32768) 134 := by
  have hr := r.isLt
  have two15 : IsScaled 0x47000000#32 1 (149 + 15) := ⟨rfl, rfl, by decide +kernel⟩
  exact (IsScaled.of_u2f (by omega)).fdiv_two_pow two15 (by omega) (by norm_num) (by norm_num)

/-- Settles O42: a code less 32768 has at most 16 bits, and the bounds are those of the codes 0 and 65535. -/
theorem phaseDecodeIsExact : Obligations.PhaseDecodeIsExact := by
  refine ⟨fun r => ?exact, ?corners⟩
  case exact =>
    have h := isScaled_deq r
    have hr := r.isLt
    have lower : units 0xBF800000#32 = -32768 * 2 ^ 134 := by decide +kernel
    have upper : units 0x3F7FFE00#32 = 32767 * 2 ^ 134 := by decide +kernel
    refine ⟨h.finite, h.units_eq, h.ne_negZero, (fle_iff_units rfl h.finite).2 ?_, (fle_iff_units h.finite rfl).2 ?_⟩
    · rw [lower, h.units_eq]
      omega
    · rw [upper, h.units_eq]
      omega
  case corners => decide +kernel

end Sys2Proof.Machine
end

section
/-! PDEQ and INV (spec/45_backward.md R261 to R269). PDEQ is a vector command like EXPD, with the phase decode for its curve. INV reads
its three rows in the machine it starts from, and what it computes from them depends on nothing else but the tables, the curve and
SYNGAIN. -/

namespace Sys2Proof.Machine

/-- Settles O34: the passes of the loop with the phase decode for their curve. -/
theorem pdeqWritesValues : Obligations.PdeqWritesValues := by
  intro ra rb rc s hp hr
  obtain ⟨h, frame⟩ := exec_ready_frame hp rfl hr rfl rfl
  exact ⟨_, h, expandsEach_iter deq _ _ _ s, frame⟩

/-! ### The samples of a block -/

/-- Sample i of the frame a row synthesizes (R264). -/
def State.frameSample (s : State) (row : List Pixel) (i : Nat) : F32 :=
  fmul (fmul ((numIrfft s.hw.num s.aN (s.rowBins row)).getD i zero32) (s.windowEntry i)) s.syngain

theorem State.getD_synth (s : State) (row : List Pixel) {i : Nat} (hi : i < s.aN) :
    (s.synth s.aN s.syngain row).getD i zero32 = s.frameSample row i := by
  simp [State.synth, State.frameSample, List.getD_eq_getElem?_getD, hi]

/-- The samples as R263 writes them: a sample of the previous frame is taken half a frame later, one of the next half a frame earlier,
and neither is past the end of its frame. -/
theorem State.decodeBlock_eq (s : State) (c : Word) (pv nv : Bool) :
    let n := s.aN
    s.decodeBlock c pv nv = (List.range n).map fun i =>
      fmul
        (fadd
          (fadd (s.frameSample (s.rowOrZero true c n) i)
            (if i < n / 2 then s.frameSample (s.rowOrZero pv (rowBefore c n) n) (i + n / 2) else zero32))
          (if n / 2 ≤ i then s.frameSample (s.rowOrZero nv (rowAfter c n) n) (i - n / 2) else zero32))
        (s.normEntry i) := by
  refine List.map_congr_left fun i hi => ?_
  rw [List.mem_range] at hi
  have centre := s.getD_synth (s.rowOrZero true c s.aN) hi
  have previous (h : i < s.aN / 2) := s.getD_synth (s.rowOrZero pv (rowBefore c s.aN) s.aN) (show i + s.aN / 2 < s.aN by omega)
  have following := s.getD_synth (s.rowOrZero nv (rowAfter c s.aN) s.aN) (show i - s.aN / 2 < s.aN by omega)
  dsimp only
  rw [centre, following, ite_congr rfl previous fun _ => rfl]

/-- Settles O35: what INV computes, as R263 writes it, read back from where it was written. -/
theorem invWritesSamples : Obligations.InvWritesSamples := by
  intro ra rb pv nv s hp hr n h m c row frame fc fp fn
  obtain ⟨hexec, hframe⟩ := exec_ready_frame hp rfl hr (exec_inv ra rb pv nv s) (invRows_append_eq_operandTable ra rb pv nv s)
  rw [outputOperand_inv] at hframe
  refine ⟨_, hexec, ?samples, ?status, hframe⟩
  case samples =>
    have output : (⟨s.x rb, 4 * n, 4⟩ : Operand) ∈ operandTable (.inv ra rb pv nv) s := by
      rw [← invRows_append_eq_operandTable]
      exact List.mem_append_right _ (List.mem_singleton_self _)
    have fits : (s.x rb).toNat + 4 * n < 2 ^ 32 := hr.operand_end_lt hp output
    have back := s.readSamples_writeSamples (a := s.x rb) (l := s.decodeBlock c pv nv) (by rwa [length_decodeBlock])
    rw [length_decodeBlock, s.decodeBlock_eq c pv nv, List.map_map] at back
    rw [dataDone, s.decodeBlock_eq c pv nv]
    exact back
  case status => rw [dataDone, State.writeSamples_eq]; rfl

/-! ### What a block depends on -/

/-- A read of a row agrees where its bytes do. -/
theorem State.readPixels_congr {s u : State} {a : Word} {n : Nat} (hw : a.toNat + 6 * n < 2 ^ 32)
    (h : ∀ b, a.toNat ≤ b → b < a.toNat + 6 * n → u.byte b = s.byte b) : u.readPixels a n = s.readPixels a n := by
  refine List.map_congr_left fun i hi => ?_
  rw [List.mem_range] at hi
  have code (j : Nat) (hj : j < 3) : u.readU16 (element a 2 (3 * i + j)) = s.readU16 (element a 2 (3 * i + j)) := by
    have start : (element a 2 (3 * i + j)).toNat = a.toNat + 2 * (3 * i + j) := toNat_element (by omega)
    exact State.readU16_congr fun b h1 h2 => h b (by omega) (by omega)
  rw [element_six, element_add_two, element_two_add_four]
  exact Prod.ext (code 0 (by norm_num)) (Prod.ext (code 1 (by norm_num)) (code 2 (by norm_num)))

/-- A row that is not there is the zero row whatever the bytes are. -/
theorem State.rowOrZero_congr {s u : State} {valid : Bool} {a : Word} {n : Nat}
    (h : valid = true → u.readPixels a (binCount n) = s.readPixels a (binCount n)) : u.rowOrZero valid a n = s.rowOrZero valid a n := by
  cases valid with
  | false => rfl
  | true => exact h rfl

theorem centre_mem_invRows (c : Word) (n : Nat) (pv nv : Bool) : ⟨c, rowBytes n, 2⟩ ∈ invRows c n pv nv := List.mem_cons_self ..

theorem previous_mem_invRows (c : Word) (n : Nat) (nv : Bool) : ⟨rowBefore c n, rowBytes n, 2⟩ ∈ invRows c n true nv := by
  simp [invRows]

theorem following_mem_invRows (c : Word) (n : Nat) (pv : Bool) : ⟨rowAfter c n, rowBytes n, 2⟩ ∈ invRows c n pv true := by
  simp [invRows]

/-- The state a block is computed from, but for its rows (R269): the parameters, the tables, the curve and SYNGAIN. -/
structure SameDecoder (s u : State) : Prop where
  hw : u.hw = s.hw
  acfg : u.acfg = s.acfg
  consts : u.consts = s.consts
  lut : u.lut = s.lut
  w : u.w = s.w
  r : u.r = s.r
  syngain : u.syngain = s.syngain

namespace SameDecoder

variable {s u : State}

theorem aN_eq (h : SameDecoder s u) : u.aN = s.aN := by rw [State.aN, State.aN, h.acfg]

theorem expand_eq (h : SameDecoder s u) (r : Code) : u.expand r = s.expand r := by
  simp only [State.expand, h.acfg, h.hw, h.lut, h.consts]

theorem synth_eq (h : SameDecoder s u) (n : Nat) (gain : F32) (row : List Pixel) : u.synth n gain row = s.synth n gain row := by
  simp only [State.synth, State.rowBins, State.windowEntry, h.expand_eq, h.hw, h.w]

theorem overlapAdd_eq (h : SameDecoder s u) (n : Nat) (fc fp fn : List F32) : u.overlapAdd n fc fp fn = s.overlapAdd n fc fp fn := by
  simp only [State.overlapAdd, State.normEntry, h.r]

theorem decodeBlock_eq (h : SameDecoder s u) {c : Word} {pv nv : Bool}
    (rows : ∀ o ∈ invRows c s.aN pv nv, u.readPixels o.base (binCount s.aN) = s.readPixels o.base (binCount s.aN)) :
    u.decodeBlock c pv nv = s.decodeBlock c pv nv := by
  have centre := State.rowOrZero_congr fun _ : true = true => rows _ (centre_mem_invRows c s.aN pv nv)
  have previous := State.rowOrZero_congr fun hv : pv = true => rows _ (hv ▸ previous_mem_invRows c s.aN nv)
  have following := State.rowOrZero_congr fun hv : nv = true => rows _ (hv ▸ following_mem_invRows c s.aN pv)
  simp only [State.decodeBlock, h.aN_eq, h.syngain, h.synth_eq, h.overlapAdd_eq, centre, previous, following]

end SameDecoder

theorem len_of_mem_invRows {c : Word} {n : Nat} {pv nv : Bool} {o : Operand} (ho : o ∈ invRows c n pv nv) : o.len = 6 * binCount n := by
  revert o
  cases pv <;> cases nv <;> simp [invRows, rowBytes]

/-- Settles O36: the rows are inside LMEM, so none wraps and each is read from its own bytes. -/
theorem invDependsOnItsRows : Obligations.InvDependsOnItsRows := by
  intro c pv nv s u hp _ _ hok hhw hacfg _ hconsts hlut hw hr hgain hbytes
  refine SameDecoder.decodeBlock_eq ⟨hhw, hacfg, hconsts, hlut, hw, hr, hgain⟩ fun o ho => ?_
  have hlen := len_of_mem_invRows ho
  have hsize := lmemSize_of_legalParams hp
  have inside : o.base.toNat + o.len ≤ s.hw.lmemSize := by
    rcases hok o ho with h | ⟨-, h⟩
    · rw [binCount] at hlen
      omega
    · exact h
  refine State.readPixels_congr (by omega) fun b h1 h2 => hbytes o ho b ?_
  simp [Span.holds, Operand.span, hlen, h1, h2]

end Sys2Proof.Machine
end

section
/-! Faults, the answers of every command, and the IRQ line (spec/60_exceptions.md R280, R282, R290, R291, R300). A fault is one of four
fault entries, told apart by the kind of its cause, and the end of the run behind it. -/

namespace Sys2Proof.Machine

/-! ### The kinds of causes -/

/-- The kinds of causes that differ in what the fault entry records: the address, the command word and CFGOK (R280, R290). -/
inductive Cause.Kind where
  | none | fetch | command | config | operand

/-- The kind of a cause (R280). -/
def Cause.kind : Cause → Kind
  | .none => .none
  | .fetchAlign | .fetchRange => .fetch
  | .illegalOp | .reservedBits | .notConfigured => .command
  | .cfgBlocksize | .cfgMethod | .cfgWindow | .cfgParam => .config
  | .memAlign | .memRange => .operand

theorem Cause.kind_eq_fetch_iff (c : Cause) : c.kind = .fetch ↔ c = .fetchAlign ∨ c = .fetchRange := by
  cases c <;> simp [Cause.kind]

theorem Cause.kind_eq_config_iff (c : Cause) :
    c.kind = .config ↔ c = .cfgBlocksize ∨ c = .cfgMethod ∨ c = .cfgWindow ∨ c = .cfgParam := by
  cases c <;> simp [Cause.kind]

theorem Cause.kind_eq_operand_iff (c : Cause) : c.kind = .operand ↔ c = .memAlign ∨ c = .memRange := by
  cases c <;> simp [Cause.kind]

/-! ### The word of a fetched command -/

/-- A decoded command is the one of the word in the first 8 bytes. -/
theorem decodeWord_of_decode {l rest : List Byte} {i : Instr} (h : decode l = .ok (i, rest)) :
    decodeWord (BitVec.ofNat 64 (leNat (l.take 8))) = .ok i := by
  unfold decode at h
  split at h
  · cases h
  · split at h
    · cases h
      assumption
    · cases h

/-- The word that encodes the command decoded at pc is the one that was fetched (R110, R115). -/
theorem encodeWord_eq_fetchWord {s : State} {i : Instr} {rest : List Byte} (h : decode (s.bytesAt s.pc.toNat 8) = .ok (i, rest)) :
    encodeWord i = s.fetchWord := by
  have hw := decodeWord_of_decode h
  rw [List.take_of_length_le (s.length_bytesAt _ 8).le] at hw
  exact acceptedWordReencodes _ _ hw

/-! ### Fault entries -/

/-- The fault entries of an engine step from s, one constructor for each kind of cause (R280, R290). -/
inductive FaultEntry (s : State) : State → Prop
  /-- The fetch fails: pc is the address, and there is no word. -/
  | fetch {c : Cause} (hc : c.kind = .fetch) : FaultEntry s (s.raise c s.pc 0)
  /-- The decoder or the test of CFGOK refuses the command. -/
  | command {c : Cause} (hc : c.kind = .command) : FaultEntry s (s.raise c 0 s.fetchWord)
  /-- INIT refuses the configuration, and clears CFGOK (R201). -/
  | config {c : Cause} (hc : c.kind = .config) :
    FaultEntry s (State.raise { s with status := { s.status with cfgok := false } } c 0 s.fetchWord)
  /-- An operand of the fetched command fails its check. -/
  | operand {c : Cause} {i : Instr} {rest : List Byte} {o : Operand} (hd : decode (s.bytesAt s.pc.toNat 8) = .ok (i, rest))
    (ho : o ∈ operandTable i s) (hc : c.kind = .operand) : FaultEntry s (s.raise c o.base s.fetchWord)

/-- What the fetch and the decoder refuse is a fault entry. -/
theorem fetchDecode_faultEntry {s t : State} (h : fetchDecode s = .error t) : FaultEntry s t := by
  unfold fetchDecode at h
  split at h
  · cases h; exact .fetch rfl
  split at h
  · cases h; exact .fetch rfl
  split at h
  · cases h
  · cases h; exact .command rfl
  · cases h; exact .command rfl
  · cases h; exact .fetch rfl

/-- A control command but INIT leaves ERR alone. -/
theorem exec_control_err {i : Instr} {s t : State} (hd : isDataCommand i = false) (hi : i ≠ .init) (h : exec i s = .next t) :
    t.status.err = s.status.err := by
  cases i
  case init => exact absurd rfl hi
  case djnz ra imm =>
    by_cases hx : s.x ra = 1
    · cases (exec_djnz_of_eq_one imm hx).symm.trans h; rfl
    · cases (exec_djnz_of_ne_one imm hx).symm.trans h; rfl
  case nop | halt | seta | adda | jmp | setg => cases h; rfl
  all_goals exact absurd hd nofun

/-- A fetched command that sets ERR takes a fault entry, and does nothing else (R291). -/
theorem exec_faultEntry {i : Instr} {rest : List Byte} {s t : State} (hd : decode (s.bytesAt s.pc.toNat 8) = .ok (i, rest))
    (h : exec i s = .next t) (hs : s.status.err = false) (ht : t.status.err = true) : FaultEntry s t := by
  have hw := encodeWord_eq_fetchWord hd
  have changed : t.status.err ≠ s.status.err := by simp [hs, ht]
  cases hk : isDataCommand i with
  | true =>
    rcases exec_data_cases hk h with ⟨-, rfl⟩ | ⟨-, c, a, hf, rfl⟩ | ⟨-, m, nan, sat, rfl, -⟩
    · exact hw ▸ .command rfl
    · obtain ⟨hc, o, ho, rfl, -⟩ := firstFault_eq_some hf
      exact hw ▸ .operand hd ho (c.kind_eq_operand_iff.2 hc)
    · exact absurd rfl changed
  | false =>
    by_cases hi : i = .init
    · subst hi
      rcases execInit_cases h with ⟨c, hc, rfl⟩ | ⟨m, win, k, -, -, -, -, -, rfl⟩
      · rw [State.initFail, hw]
        exact .config (c.kind_eq_config_iff.2 hc)
      · exact absurd rfl changed
    · exact absurd (exec_control_err hk hi h) changed

namespace FaultEntry

variable {s u : State}

/-- A fault entry writes STATUS and the error registers, and nothing else (R290). -/
theorem frame (h : FaultEntry s u) :
    u =
      { s with
        status := { s.status with busy := false, err := true, cfgok := u.status.cfgok }
        errCause := u.errCause
        errPc := s.pc
        errAddr := u.errAddr
        errCmdL := u.errCmdL
        errCmdH := u.errCmdH } := by
  cases h <;> rfl

theorem busy (h : FaultEntry s u) : u.status.busy = false := by
  cases h <;> rfl

theorem errCause_ne_none (h : FaultEntry s u) : u.errCause ≠ .none := by
  have kind : u.errCause.kind ≠ .none := by
    cases h with
    | fetch hc | command hc | config hc | operand _ _ hc => exact fun h => absurd (hc.symm.trans h) nofun
  exact fun h => kind (congrArg Cause.kind h)

/-- CFGOK is cleared under a CFG cause … -/
theorem cfgok_of_config (h : FaultEntry s u) (hu : u.errCause.kind = .config) : u.status.cfgok = false := by
  cases h with
  | config => rfl
  | fetch hc | command hc | operand _ _ hc => exact absurd (hc.symm.trans hu) nofun

/-- … and no other. -/
theorem cfgok_of_not_config (h : FaultEntry s u) (hu : u.errCause.kind ≠ .config) : u.status.cfgok = s.status.cfgok := by
  cases h with
  | config hc => exact absurd hc hu
  | fetch | command | operand => rfl

/-- A fetch cause records pc, and no command word. -/
theorem errAddr_of_fetch (h : FaultEntry s u) (hu : u.errCause.kind = .fetch) : u.errAddr = s.pc ∧ u.errCmdL = 0 ∧ u.errCmdH = 0 := by
  cases h with
  | fetch => exact ⟨rfl, rfl, rfl⟩
  | command hc | config hc | operand _ _ hc => exact absurd (hc.symm.trans hu) nofun

/-- Every other cause records the word at pc. -/
theorem errCmd_of_not_fetch (h : FaultEntry s u) (hu : u.errCause.kind ≠ .fetch) :
    u.errCmdL = s.fetchWord.extractLsb' 0 32 ∧ u.errCmdH = s.fetchWord.extractLsb' 32 32 := by
  cases h with
  | fetch hc => exact absurd hc hu
  | command | config | operand => exact ⟨rfl, rfl⟩

/-- A decode or CFG cause, and NOT_CONFIGURED, have no address. -/
theorem errAddr_eq_zero (h : FaultEntry s u) (hf : u.errCause.kind ≠ .fetch) (ho : u.errCause.kind ≠ .operand) : u.errAddr = 0 := by
  cases h with
  | fetch hc => exact absurd hc hf
  | operand _ _ hc => exact absurd hc ho
  | command | config => rfl

/-- An operand cause records the base of an operand of the fetched command. -/
theorem errAddr_of_operand (h : FaultEntry s u) (hu : u.errCause.kind = .operand) :
    ∃ i rest, decode (s.bytesAt s.pc.toNat 8) = .ok (i, rest) ∧ ∃ o ∈ operandTable i s, u.errAddr = o.base := by
  cases h with
  | operand hd ho => exact ⟨_, _, hd, _, ho, rfl⟩
  | fetch hc | command hc | config hc => exact absurd (hc.symm.trans hu) nofun

end FaultEntry

/-- An engine step that sets ERR is a fault entry and then the end of the run (R98). -/
theorem engineStep_faultEntry {s t : State} (h : engineStep s = .next t) (hs : s.status.err = false) (ht : t.status.err = true) :
    ∃ u, FaultEntry s u ∧ t = u.endRun := by
  rcases fetchDecode_cases s with ⟨i, rest, hf, -, -, hd⟩ | ⟨c, a, w, hf⟩
  · obtain ⟨u, hu⟩ := exec_next i s
    cases (engineStep_ok hf hu).symm.trans h
    have entry : FaultEntry s u := exec_faultEntry hd hu hs (by simpa using ht)
    exact ⟨u, entry, State.follow_of_idle entry.busy⟩
  · cases (engineStep_of_fetchDecode_error hf).symm.trans h
    exact ⟨_, fetchDecode_faultEntry hf, rfl⟩

/-- Settles O8: the step is a fault entry, whose kind of cause says what it records, and the end of the run, which changes what is raced
and what the host read. -/
theorem preciseFaults : Obligations.PreciseFaults := by
  intro s t _ hs h ht
  obtain ⟨u, entry, rfl⟩ := engineStep_faultEntry h hs ht
  have hu := entry.frame
  have hrace : u.race = s.race := by rw [hu]
  have hbyte (a : Nat) : u.byte a = s.byte a := by rw [hu]; rfl
  simp only [← Cause.kind_eq_fetch_iff, ← Cause.kind_eq_config_iff, ← Cause.kind_eq_operand_iff]
  refine ⟨entry.errCause_ne_none, ?frame, entry.cfgok_of_config, entry.cfgok_of_not_config, entry.errAddr_of_fetch,
    entry.errCmd_of_not_fetch, entry.errAddr_eq_zero, entry.errAddr_of_operand, fun a ha => ?bytes, fun hr => ?lmem, fun hr => ?reads⟩
  case frame => cases entry <;> rfl
  case bytes =>
    rw [← hrace] at ha
    rw [State.byte_endRun_calm u (Bool.eq_false_of_not_eq_true ha), hbyte]
  case lmem =>
    rw [State.endRun_lmem, State.endRun_draws, hrace, hr, hu]
    exact ⟨rfl, rfl⟩
  case reads =>
    rw [State.endRun_rdata, State.endRun_raceReads, hrace, hr, hu]
    exact ⟨ite_self _, rfl⟩

/-! ### Every command answers -/

/-- The engine step answers, with the command's next state or with a fault entry of the fetch. -/
theorem engineStep_next (s : State) : ∃ t, engineStep s = .next t := by
  rcases fetchDecode_cases s with ⟨i, rest, hf, -⟩ | ⟨c, a, w, hf⟩
  · obtain ⟨t, ht⟩ := exec_next i s
    exact ⟨_, engineStep_ok hf ht⟩
  · exact ⟨_, engineStep_of_fetchDecode_error hf⟩

/-- The engine's turn always answers, idle or busy. -/
theorem step_next_of_engineTurn {s : State} {ts : List Turn} (h : s.EngineTurn ts) : ∃ t, step s = .next t := by
  rw [step_of_engineTurn h, engineTurn]
  split
  · exact engineStep_next _
  · exact ⟨_, rfl⟩

/-- Settles O11, by whose turn it is: the engine's turn and the reset answer, and the turn left is the host's. -/
theorem everyCommandAnswers : Obligations.EveryCommandAnswers := by
  refine ⟨exec_next, fun s => ?_⟩
  rcases hs : s.turns with _ | ⟨_ | a | _, ts⟩
  · exact .inl (step_next_of_engineTurn (.inl ⟨hs, rfl⟩))
  · exact .inl (step_next_of_engineTurn (.inr hs))
  · exact .inr ⟨a, ts, rfl⟩
  · exact .inl ⟨_, by rw [step, hs]⟩

/-! ### IRQ -/

section

variable {s : State}

theorem State.irq_iff : s.irq = true ↔ s.irqen = true ∧ (s.status.done = true ∨ s.status.err = true) := by
  simp [State.irq]

/-- With a source bit set, the line is IRQEN. -/
theorem State.irq_eq_irqen (h : s.status.done = true ∨ s.status.err = true) : s.irq = s.irqen :=
  Bool.eq_iff_iff.2 (State.irq_iff.trans (and_iff_left h))

/-- Without a source bit set, the line is low. -/
theorem State.irq_eq_false (hd : s.status.done = false) (he : s.status.err = false) : s.irq = false := by
  simp [State.irq, hd, he]

/-- An accepted START clears both source bits (R141). -/
theorem State.irq_start (h : s.status.busy = false) : s.start.irq = false := by
  rw [State.start, if_neg (by simp [h])]
  exact State.irq_eq_false rfl rfl

theorem State.writeRegister_status (v : Word) : s.writeRegister 0x008 v = { s with status := clearWritten s.status v } := rfl

/-- A source bit is set after a write to STATUS where it was set and the write has no 1 for it (R33). -/
theorem clearWritten_source_iff (f : Status) (v : Word) :
    (clearWritten f v).done = true ∨ (clearWritten f v).err = true ↔
      (f.done = true ∧ v.getLsbD 1 = false) ∨ (f.err = true ∧ v.getLsbD 2 = false) := by
  simp [clearWritten]

end

/-- Settles O58, event by event: HALT and a fault set a source bit, a reset clears IRQEN, START clears both source bits, and a write to
STATUS clears those it names. -/
theorem irqIsEnabledDoneOrErr : Obligations.IrqIsEnabledDoneOrErr := by
  refine fun s => ⟨State.irq_iff, fun t h => ?halt, fun c a w => State.irq_eq_irqen (.inr rfl), rfl, rfl, State.irq_start,
    fun v h => ?clear⟩
  case halt =>
    cases (exec_halt s).symm.trans h
    exact State.irq_eq_irqen (.inl rfl)
  case clear =>
    rw [State.writeRegister_status] at h
    exact (clearWritten_source_iff _ v).1 (State.irq_iff.1 h).2

end Sys2Proof.Machine
end

section
/-! Reset and soft reset (spec/10_state.md R32, R36, spec/70_reset_and_hazards.md R320 to R322): each of them is `State.resetRegisters` of
some machine, so what the registers read afterwards is said once, of that function; LMEM is what the resets differ in. -/

namespace Sys2Proof.Machine

/-! ### Each reset as a reset of the registers -/

/-- The machine right after a hardware reset is a soft reset of the one before its draw. -/
theorem State.reset_eq_softReset : State.reset = State.softReset { State.reset with draws := 0 } := rfl

/-- The reset input forgets LMEM and then resets the registers. -/
theorem State.hardwareReset_eq_resetRegisters (s : State) :
    s.hardwareReset = State.resetRegisters { s.endRun with lmem := [], lmemDraw := s.endRun.draws } := rfl

/-- The reset input is a turn of its own (R44, R320). -/
theorem step_of_reset {s : State} {ts : List Turn} (h : s.turns = .reset :: ts) :
    step s = .next (State.hardwareReset { s with turns := ts }) := by
  rw [step, h]

/-- SRST wins over the other bits of a CTRL write, and does not wait for the engine to be idle (R32, R43). -/
theorem State.writeRegister_srst (s : State) {v : Word} (h : v.getLsbD 2 = true) : s.writeRegister 0x004 v = s.softReset := if_pos h

/-! ### The registers -/

/-- STATUS reads 0 when all its bits are clear (R33). -/
theorem statusWord_clearStatus : statusWord clearStatus = 0 := by decide

/-- A reset of the registers gives every one of them the value of R320. -/
theorem State.resetRegisters_registersReset (s : State) : s.resetRegisters.RegistersReset where
  id := rfl
  ctrl := State.ctrlWord_eq s.resetRegisters
  status := statusWord_clearStatus
  errors := by
    simp only [List.forall_mem_cons, List.not_mem_nil, false_imp_iff, implies_true, and_true]
    exact ⟨rfl, rfl, rfl, rfl, rfl⟩
  pc := rfl
  cfg := rfl
  cparam0 := rfl
  cparam1 := rfl
  syngain := rfl
  lmemsz := rfl
  active := by
    simp only [List.forall_mem_cons, List.not_mem_nil, false_imp_iff, implies_true, and_true]
    exact ⟨rfl, rfl, rfl⟩
  regs i := by fin_cases i <;> rfl
  idle := ⟨rfl, rfl⟩

theorem State.softReset_registersReset (s : State) : s.softReset.RegistersReset := s.endRun.resetRegisters_registersReset

theorem State.reset_registersReset : State.reset.RegistersReset := by
  rw [State.reset_eq_softReset]
  exact State.softReset_registersReset _

theorem State.hardwareReset_registersReset (s : State) : s.hardwareReset.RegistersReset := by
  rw [State.hardwareReset_eq_resetRegisters]
  exact State.resetRegisters_registersReset _

/-! ### LMEM -/

/-- A soft reset does to LMEM what the end of the run it stops does, so a byte that is not raced stays (R98, R321). -/
theorem State.byte_softReset_calm (s : State) {a : Nat} (h : ¬s.race.Raced a) : s.softReset.byte a = s.byte a :=
  s.byte_endRun_calm (Bool.eq_false_of_not_eq_true h)

/-- Without a raced byte, a soft reset keeps LMEM as it is written (R321). -/
theorem State.softReset_lmem (s : State) (h : s.race.raced = []) : s.softReset.lmem = s.lmem := by
  show s.endRun.lmem = s.lmem
  rw [State.endRun_lmem, h, List.foldl_nil]

/-! ### The obligations -/

/-- The default parameters are legal (R8). -/
theorem legalParams_defaultParams : Config.legalParams Config.defaultParams = true := rfl

theorem State.reset_memoryOk : State.reset.MemoryOk := ⟨legalParams_defaultParams, reset_wf, rfl, nofun⟩

/-- After a soft reset CFGOK is clear, so no table has to be an INIT's (R40). -/
theorem State.softReset_tablesLatched (s : State) : s.softReset.TablesLatched := nofun

/-- Settles O51: LMEM lists no byte, and the other three hold after every soft reset. -/
theorem resetMeetsInvariants : Obligations.ResetMeetsInvariants := by
  refine ⟨State.reset_memoryOk, ?_⟩
  rw [State.reset_eq_softReset]
  exact ⟨State.softReset_tablesLatched _, State.RunFlags.softReset _, softReset_cfgReserved _⟩

/-- Settles O52: the machine right after a reset, and the machine that the reset input leaves. -/
theorem resetGivesValues : Obligations.ResetGivesValues :=
  ⟨State.reset_registersReset, rfl, rfl, fun _ _ h =>
    ⟨_, step_of_reset h, State.hardwareReset_registersReset _, rfl, rfl, rfl⟩⟩

/-- Settles O53: a CTRL write with SRST is a soft reset, which ends the run and resets the registers. -/
theorem softResetKeepsLmem : Obligations.SoftResetKeepsLmem := by
  intro s v ts h hv
  have hstep : step s = .next (State.softReset { s with turns := ts }) := by
    rw [step_write_register h (by decide) (by decide)]
    exact congrArg _ (State.writeRegister_srst { s with turns := ts } hv)
  exact ⟨_, hstep, State.softReset_registersReset _, rfl, rfl, fun _ => State.byte_softReset_calm { s with turns := ts },
    State.softReset_lmem { s with turns := ts }⟩

end Sys2Proof.Machine
end
